-- ==== Sys2Proof/Word.lean ====
section
/-! DEFINITION. The word types of the radio SPI controller (RSC): bytes, command words, module indices, and a bank of one
value per radio module. -/

namespace Sys2Proof

/-- A byte: 8 bits, bit 7 the most significant (R13). -/
abbrev Byte := BitVec 8

/-- A 16-bit host command word `W = {ARG, CMD}` (R100), or a 16-bit RegisterAddress (R105). -/
abbrev Word16 := BitVec 16

/-- A radio module's index. MOD.MODULE has two bits (R31), so four indices can be written down; those at or above
N_MODULES name no module (R239). -/
abbrev ModIdx := Fin 4

/-- One value for each module index: the shape of the per-module registers (R49) and of the chip selects (R22). -/
structure Bank (α : Type) where
  m0 : α
  m1 : α
  m2 : α
  m3 : α
deriving DecidableEq, Repr

end Sys2Proof
end

