-- ==== Sys2Proof/Config.lean ====
section
/-! DEFINITION. What an implementation of the RSC fixes (the parameters of 00_scope.md R11, as plain data), the names the
rules use (strobes, chip states, result codes, events), and the free values: the radio chip's answers (R66), and what the spec
leaves open for odd parameters and for the reference device. -/

namespace Sys2Proof

/-- The ten command strobes, in the order of R104. -/
inductive Strobe where
  | sres | scal | srx | stx | sfstxon | sidle | sfrx | sftx | spwd | snop
deriving DecidableEq, Repr

/-- The eight chip states, in the order of R46. -/
inductive ChipState where
  | idle | rx | tx | fstxon | calibrate | settling | rxFifoErr | txFifoErr
deriving DecidableEq, Repr

/-- The four states a `Sequence` run can be asked for (R104, R171). -/
inductive Target where
  | idle | rx | tx | fstxon
deriving DecidableEq, Repr

/-- The result codes of R222, and nothing else: the reserved codes 0x0D to 0xFE, which the RSC never writes (I19), are no
value of this type. -/
inductive Result where
  | ok | notReady | badAddr | badLen | badArg | badOpcode | timeout | asleep
  | verifyMismatch | rxEmpty | rxFifoErr | rxOversize | rxMalformed
  | pending
deriving DecidableEq, Repr

/-- The role of a byte exchange within its transaction (R64). -/
inductive Role where
  | hdr | addr2 | data
deriving DecidableEq, Repr

/-- The events of the history `hist` (R67). `cs m level` has `level = true` for a chip select driven high. -/
inductive Event where
  | cmd (word : Word16)
  | cs (m : ModIdx) (level : Bool)
  | ready (m : ModIdx) (r : Bool)
  | xfer (m : ModIdx) (role : Role) (out inp : Byte)
  | wait
  | done (code : Result)
  | reset
deriving DecidableEq, Repr

/-- Parameter STROBE_CODE[0..9]: the wire byte of each strobe (R11, R108). -/
structure StrobeCodes where
  sres : Byte := 0x30
  scal : Byte := 0x33
  srx : Byte := 0x34
  stx : Byte := 0x35
  sfstxon : Byte := 0x31
  sidle : Byte := 0x36
  sfrx : Byte := 0x3A
  sftx : Byte := 0x3B
  spwd : Byte := 0x39
  snop : Byte := 0x3D
deriving DecidableEq, Repr

/-- Parameter STATE_CODE: the 3-bit code of each chip state (R11, R46). R12 does not ask that the codes differ; what a code of
no state or of several makes the sequencer do is a free value (log entry 3). -/
structure StateCodes where
  idle : BitVec 3 := 0
  rx : BitVec 3 := 1
  tx : BitVec 3 := 2
  fstxon : BitVec 3 := 3
  calibrate : BitVec 3 := 4
  settling : BitVec 3 := 5
  rxFifoErr : BitVec 3 := 6
  txFifoErr : BitVec 3 := 7
deriving DecidableEq, Repr

/-- The implementation parameters of R11, each with its default. "A model takes each as an argument": `exec` and `step` take
only a state, so the state carries them (log entry 2); no step writes them. -/
structure Params where
  /-- N_MODULES: the number of radio modules. -/
  nModules : Nat := 4
  /-- SHORT_SPACE: the extension byte of the short address space. -/
  shortSpace : Byte := 0x00
  /-- EXT_PREFIX: the extension byte of the extended space, also the header's address field. -/
  extPrefix : Byte := 0x2F
  /-- FIFO_RSV_LO and FIFO_RSV_HI: the FIFO-reserved offsets of the short space, both ends included. -/
  fifoRsvLo : Byte := 0x30
  fifoRsvHi : Byte := 0x3F
  /-- FIFO_ADDR: the header address field of a FIFO access (six bits of the header byte, R109). -/
  fifoAddr : BitVec 6 := 0x3F
  /-- ADDR_NUM_TXBYTES and ADDR_NUM_RXBYTES: the RegisterAddresses of the chip's FIFO byte counts. Their reads make no address
  check (R70); the header of one in neither address space is a free value (log entry 3). -/
  addrNumTxBytes : Word16 := 0x2FD6
  addrNumRxBytes : Word16 := 0x2FD7
  strobeCodes : StrobeCodes := {}
  /-- STATE_HI and STATE_LO: the bit positions of the chip-state field of a status byte. -/
  stateHi : Nat := 7
  stateLo : Nat := 5
  stateCodes : StateCodes := {}
  /-- FIFO_DEPTH: bytes of the chip's RX FIFO and of its TX FIFO. -/
  fifoDepth : Nat := 128
  /-- MAX_PAYLOAD: the largest pure payload length. -/
  maxPayload : Nat := 124
  /-- DBUF_CAP: bytes of the data buffer. -/
  dbufCap : Nat := 128
  /-- MAX_POLLS_RESET: the reset value of the MAX_POLLS CSR. -/
  maxPollsReset : Byte := 255
  /-- SETTLE_WAIT_US: the real-time lower bound of one settle wait; timing only, no rule reads it (R175). -/
  settleWaitUs : Nat := 50
  /-- READY_MAX_SAMPLES: ready samples before a ready timeout. -/
  readyMaxSamples : Nat := 1024
deriving DecidableEq, Repr

/-- The wire byte of a strobe (R108). -/
def Params.strobeCode (p : Params) : Strobe → Byte
  | .sres => p.strobeCodes.sres
  | .scal => p.strobeCodes.scal
  | .srx => p.strobeCodes.srx
  | .stx => p.strobeCodes.stx
  | .sfstxon => p.strobeCodes.sfstxon
  | .sidle => p.strobeCodes.sidle
  | .sfrx => p.strobeCodes.sfrx
  | .sftx => p.strobeCodes.sftx
  | .spwd => p.strobeCodes.spwd
  | .snop => p.strobeCodes.snop

/-- The 3-bit code of a chip state (R46). -/
def Params.stateCode (p : Params) : ChipState → BitVec 3
  | .idle => p.stateCodes.idle
  | .rx => p.stateCodes.rx
  | .tx => p.stateCodes.tx
  | .fstxon => p.stateCodes.fstxon
  | .calibrate => p.stateCodes.calibrate
  | .settling => p.stateCodes.settling
  | .rxFifoErr => p.stateCodes.rxFifoErr
  | .txFifoErr => p.stateCodes.txFifoErr

/-- FREE VALUE (R66, I1): what the radio chip on module `m` answers to a ready sample, given the whole event history. It has
no body: nothing can be proved of its value, so what is proved holds for every answer. Log entry 4. -/
opaque Config.chipReady : List Event → ModIdx → Bool

/-- FREE VALUE (R66, I1): the MISO byte the radio chip on module `m` answers to the MOSI byte `out`, given the whole event
history. Log entry 4. -/
opaque Config.chipByte : List Event → ModIdx → Byte → Byte

/-- FREE VALUE (DESIGN CHOICE, log entry 3): the header of the read of a byte count whose RegisterAddress lies in neither
address space. R70 exempts that read from the address check and R107 gives it no header: whether the header is the short one
(`true`) or the extended one, and its offset, are left open. -/
opaque Config.unstatedHeader : Word16 → Bool × Byte

/-- FREE VALUE (DESIGN CHOICE, log entry 3): which row of R173's table the sequencer takes, among those that may apply, when
the polled code is STATE_CODE of no chip state or of several. -/
opaque Config.freeRow : List Event → Nat

/-- FREE VALUE (DESIGN CHOICE, log entry 22): what RefDev's byte-count register reads when its FIFO holds 256 bytes or more.
R88 returns the length, in one byte, and states no value for a length that does not fit. -/
opaque Config.longCount : Nat → Byte

end Sys2Proof
end

