-- ==== Sys2Proof/Machine/Header.lean ====
section
/-! DEFINITION. The form of a register access's header (R107), for every RegisterAddress a command may access: those the
address check accepts (R130) and the two byte counts, which R70 exempts from it. -/

namespace Sys2Proof.Machine

open Sys2Proof

/-- The extension byte `addr[15:8]` and the offset `addr[7:0]` (R69). -/
def addrExt (addr : Word16) : Byte := addr.extractLsb' 8 8
def addrOff (addr : Word16) : Byte := addr.extractLsb' 0 8

/-- Whether the header is the short one (one byte, the offset's low six bits in it) or the extended one (two bytes), and the
offset (R107). In neither address space R107 gives none; only a byte count can be read there, and its header is a free value
(DESIGN CHOICE, log entry 3). A byte count's short header may have A = EXT_PREFIX: it is one byte all the same (DESIGN CHOICE,
log entry 29). A header of one data byte may have A = FIFO_ADDR: it is sent, although R109 says that no single-byte FIFO
header is (DESIGN CHOICE, log entry 32). -/
def regHeaderForm (p : Params) (addr : Word16) : Bool × Byte :=
  if addrExt addr = p.shortSpace then (true, addrOff addr)
  else if addrExt addr = p.extPrefix then (false, addrOff addr)
  else Config.unstatedHeader addr

/-- The offset stands in the one-byte header of a byte count's read, which no address check has seen (R70). -/
def isCountOffset (p : Params) (a : BitVec 6) : Bool :=
  [p.addrNumTxBytes, p.addrNumRxBytes].any fun addr =>
    (regHeaderForm p addr).1 && (regHeaderForm p addr).2.extractLsb' 0 6 == a

end Sys2Proof.Machine
end

