-- ==== Sys2Proof/Syntax.lean ====
section
/-! DEFINITION. The instructions: one constructor for each row of spec/opcode_table.json. The first nineteen are the host's
command words (30_encoding.md R100 to R104); the other twenty are the header words the RSC sends to a radio chip (R106 to
R111). -/

namespace Sys2Proof

/-- The rows of the opcode table. An operand is a field of the row's own word. The operands in MOD, ADDR_HI, ADDR_LO, LEN,
MAX_POLLS and DBUF lie outside the word (R102) and are read from the state. The ARG byte that REG_READ, REG_WRITE,
REG_WRITE_VERIFY and RX_FRAME ignore is kept as a field, so that no bit of a word is lost. -/
inductive Instr where
  -- register access (40_register_access.md)
  | regRead (arg : Byte)
  | regWrite (arg : Byte)
  | regWriteVerify (arg : Byte)
  -- command strobes (41_strobes.md)
  | strobeSres
  | strobeScal
  | strobeSrx
  | strobeStx
  | strobeSfstxon
  | strobeSidle
  | strobeSfrx
  | strobeSftx
  | strobeSpwd
  | strobeSnop
  -- state sequencer (42_state_sequencer.md)
  | setStateIdle
  | setStateRx
  | setStateTx
  | setStateFstxon
  -- packet framing (43_packet_framing.md)
  | txFrame (pktAddr : Byte)
  | rxFrame (arg : Byte)
  -- wire headers: register access (30_encoding.md R106, R107)
  | wireShortSingleWrite (a : BitVec 6)
  | wireShortBurstWrite (a : BitVec 6)
  | wireShortSingleRead (a : BitVec 6)
  | wireShortBurstRead (a : BitVec 6)
  | wireExtSingleWrite (off : Byte)
  | wireExtBurstWrite (off : Byte)
  | wireExtSingleRead (off : Byte)
  | wireExtBurstRead (off : Byte)
  -- wire headers: FIFO access (R109)
  | wireTxFifoBurstWrite
  | wireRxFifoBurstRead
  -- wire headers: strobes (R108)
  | wireStrobeSres
  | wireStrobeScal
  | wireStrobeSrx
  | wireStrobeStx
  | wireStrobeSfstxon
  | wireStrobeSidle
  | wireStrobeSfrx
  | wireStrobeSftx
  | wireStrobeSpwd
  | wireStrobeSnop
deriving DecidableEq, Repr

end Sys2Proof
end

