-- ==== Sys2Proof/WellFormed.lean ====
section
/-! DEFINITION. Which instructions are well-formed under a parameter set. Only the short-space wire headers carry an operand
that can be wrong: their 6-bit offset (R107, R111, R130; R70 for the byte counts). -/

namespace Sys2Proof

/-- The offset lies in the FIFO-reserved range of the short space (R130). -/
def offsetReserved (p : Params) (a : BitVec 6) : Bool :=
  p.fifoRsvLo.toNat ≤ a.toNat && a.toNat ≤ p.fifoRsvHi.toNat

/-- The offset is the extended-space prefix, which no short header may carry (R130, R77). -/
def offsetIsPrefix (p : Params) (a : BitVec 6) : Bool :=
  a.toNat == p.extPrefix.toNat

/-- The offset is some strobe's wire code. With R = B = 0 the header byte is then that strobe's (R108). By default every code
lies in the FIFO-reserved range; R12 does not ask that of other parameter sets. -/
def offsetIsStrobeCode (p : Params) (a : BitVec 6) : Bool :=
  [Strobe.sres, .scal, .srx, .stx, .sfstxon, .sidle, .sfrx, .sftx, .spwd, .snop].any
    fun k => (p.strobeCode k).toNat == a.toNat

/-- The offset is the FIFO address. With B = 1 the header byte is then a FIFO header (R109). -/
def offsetIsFifo (p : Params) (a : BitVec 6) : Bool :=
  a == p.fifoAddr

/-- An offset a short register header may carry. -/
def shortOffsetOk (p : Params) (a : BitVec 6) : Bool :=
  !offsetReserved p a && !offsetIsPrefix p a

/-- Well-formedness of an instruction: a short header's offset is one the address check allows, or that of a byte count in a
single read (R70), and the header byte is not another row's. -/
def wellFormed (p : Params) : Instr → Bool
  | .regRead _ => true
  | .regWrite _ => true
  | .regWriteVerify _ => true
  | .strobeSres => true
  | .strobeScal => true
  | .strobeSrx => true
  | .strobeStx => true
  | .strobeSfstxon => true
  | .strobeSidle => true
  | .strobeSfrx => true
  | .strobeSftx => true
  | .strobeSpwd => true
  | .strobeSnop => true
  | .setStateIdle => true
  | .setStateRx => true
  | .setStateTx => true
  | .setStateFstxon => true
  | .txFrame _ => true
  | .rxFrame _ => true
  | .wireShortSingleWrite a => shortOffsetOk p a && !offsetIsStrobeCode p a
  | .wireShortBurstWrite a => shortOffsetOk p a && !offsetIsFifo p a
  | .wireShortSingleRead a => shortOffsetOk p a || Machine.isCountOffset p a
  | .wireShortBurstRead a => shortOffsetOk p a && !offsetIsFifo p a
  | .wireExtSingleWrite _ => true
  | .wireExtBurstWrite _ => true
  | .wireExtSingleRead _ => true
  | .wireExtBurstRead _ => true
  | .wireTxFifoBurstWrite => true
  | .wireRxFifoBurstRead => true
  | .wireStrobeSres => true
  | .wireStrobeScal => true
  | .wireStrobeSrx => true
  | .wireStrobeStx => true
  | .wireStrobeSfstxon => true
  | .wireStrobeSidle => true
  | .wireStrobeSfrx => true
  | .wireStrobeSftx => true
  | .wireStrobeSpwd => true
  | .wireStrobeSnop => true

end Sys2Proof
end

