-- ==== Sys2Proof/Decode.lean ====
section
/-! DEFINITION. Decoding: a host command word (R100 to R104) or the header bytes of an SPI transaction (R106 to R109) to an
instruction, or to a named reason why there is none. After it the encoder, and the table's view of both. -/

namespace Sys2Proof

/-- What is decoded: the 16-bit command word the host issued (R100), or the header bytes of a transaction in the order they
are sent (R68, R112). The two never meet: a command word is fetched from ARG and CMD, a header from the sequencer. -/
inductive Code where
  | cmd (w : Word16)
  | wire (bytes : List Byte)
deriving DecidableEq, Repr

/-- Why a code is no instruction. -/
inductive Reject where
  /-- `W[7:4]` is not 0 (R103). -/
  | nonzeroHighNibble
  /-- OPCODE 0x0 or 0x8 to 0xF (R103). -/
  | reservedOpcode
  /-- STROBE with ARG above 9 (R104). -/
  | strobeIndexOutOfRange
  /-- SET_STATE with ARG above 3 (R104). -/
  | targetOutOfRange
  /-- A transaction with no header byte. -/
  | noHeaderByte
  /-- One header byte that is no strobe, no FIFO header and no allowed short header (R111). -/
  | reservedHeader
  /-- Two header bytes whose first does not carry the extended prefix (R107). -/
  | notExtended
  /-- More than two header bytes (R65). -/
  | headerTooLong
deriving DecidableEq, Repr

/-- The ten strobes in index order (R104). -/
def allStrobes : List Strobe :=
  [.sres, .scal, .srx, .stx, .sfstxon, .sidle, .sfrx, .sftx, .spwd, .snop]

/-- The eight chip states in listing order (R46). -/
def allChipStates : List ChipState :=
  [.idle, .rx, .tx, .fstxon, .calibrate, .settling, .rxFifoErr, .txFifoErr]

/-- The STROBE command of a strobe (R104). -/
def strobeInstr : Strobe → Instr
  | .sres => .strobeSres
  | .scal => .strobeScal
  | .srx => .strobeSrx
  | .stx => .strobeStx
  | .sfstxon => .strobeSfstxon
  | .sidle => .strobeSidle
  | .sfrx => .strobeSfrx
  | .sftx => .strobeSftx
  | .spwd => .strobeSpwd
  | .snop => .strobeSnop

/-- The wire header row of a strobe (R108). -/
def wireStrobe : Strobe → Instr
  | .sres => .wireStrobeSres
  | .scal => .wireStrobeScal
  | .srx => .wireStrobeSrx
  | .stx => .wireStrobeStx
  | .sfstxon => .wireStrobeSfstxon
  | .sidle => .wireStrobeSidle
  | .sfrx => .wireStrobeSfrx
  | .sftx => .wireStrobeSftx
  | .spwd => .wireStrobeSpwd
  | .snop => .wireStrobeSnop

/-- The short register header row for R and B (R107). -/
def wireShort (r b : Bool) (a : BitVec 6) : Instr :=
  match r, b with
  | false, false => .wireShortSingleWrite a
  | false, true => .wireShortBurstWrite a
  | true, false => .wireShortSingleRead a
  | true, true => .wireShortBurstRead a

/-- The extended register header row for R and B (R107). -/
def wireExt (r b : Bool) (off : Byte) : Instr :=
  match r, b with
  | false, false => .wireExtSingleWrite off
  | false, true => .wireExtBurstWrite off
  | true, false => .wireExtSingleRead off
  | true, true => .wireExtBurstRead off

/-- Bit 7 of a header byte: R, 1 for a read (R106). -/
def hdrR (h : Byte) : Bool := h.getLsbD 7

/-- Bit 6 of a header byte: B, 1 for a burst (R106). -/
def hdrB (h : Byte) : Bool := h.getLsbD 6

/-- Bits 5:0 of a header byte: the address field A (R106). -/
def hdrA (h : Byte) : BitVec 6 := h.extractLsb' 0 6

/-- The strobe whose wire byte is `h`, if there is one (R108). -/
def strobeOfCode (p : Params) (h : Byte) : Option Strobe :=
  allStrobes.find? fun k => p.strobeCode k == h

/-- `W[3:0]`, `W[7:4]` and `W[15:8]` of a command word (R100). -/
def cmdOpcode (w : Word16) : BitVec 4 := w.extractLsb' 0 4
def cmdZero (w : Word16) : BitVec 4 := w.extractLsb' 4 4
def cmdArg (w : Word16) : Byte := w.extractLsb' 8 8
def cmdLow (w : Word16) : Byte := w.extractLsb' 0 8

/-- The STROBE row of a strobe index (R104). -/
def decodeStrobeArg (a : Byte) : Except Reject Instr :=
  match allStrobes[a.toNat]? with
  | some k => .ok (strobeInstr k)
  | none => .error .strobeIndexOutOfRange

/-- The SET_STATE row of a target state code (R104). -/
def decodeTargetArg (a : Byte) : Except Reject Instr :=
  match a.toNat with
  | 0 => .ok .setStateIdle
  | 1 => .ok .setStateRx
  | 2 => .ok .setStateTx
  | 3 => .ok .setStateFstxon
  | _ => .error .targetOutOfRange

/-- Decoding of a host command word (R100, R101, R103, R104). -/
def decodeCmd (w : Word16) : Except Reject Instr :=
  if cmdZero w ≠ 0 then .error .nonzeroHighNibble
  else
    match (cmdOpcode w).toNat with
    | 1 => .ok (.regRead (cmdArg w))
    | 2 => .ok (.regWrite (cmdArg w))
    | 3 => .ok (.regWriteVerify (cmdArg w))
    | 4 => decodeStrobeArg (cmdArg w)
    | 5 => decodeTargetArg (cmdArg w)
    | 6 => .ok (.txFrame (cmdArg w))
    | 7 => .ok (.rxFrame (cmdArg w))
    | _ => .error .reservedOpcode

/-- Decoding of a one-byte header: a strobe (R108), a FIFO header (R109) or a short register header (R107), a byte count's
single read included (R70). R112 has a header with A = EXT_PREFIX carry an address byte, while parameters can put a strobe
code, FIFO_ADDR or a byte count's short offset there, and R150, R72 and R107 give those one header byte: one byte is taken,
with no address byte after it (DESIGN CHOICE, log entry 29). -/
def decodeHeader1 (p : Params) (h : Byte) : Except Reject Instr :=
  match strobeOfCode p h with
  | some k => .ok (wireStrobe k)
  | none =>
    if hdrB h && offsetIsFifo p (hdrA h) then
      .ok (if hdrR h then .wireRxFifoBurstRead else .wireTxFifoBurstWrite)
    else if shortOffsetOk p (hdrA h) then .ok (wireShort (hdrR h) (hdrB h) (hdrA h))
    else if hdrR h && !hdrB h && Machine.isCountOffset p (hdrA h) then .ok (.wireShortSingleRead (hdrA h))
    else .error .reservedHeader

/-- Decoding of a two-byte header: the extended space (R107). -/
def decodeHeader2 (p : Params) (h off : Byte) : Except Reject Instr :=
  if offsetIsPrefix p (hdrA h) then .ok (wireExt (hdrR h) (hdrB h) off) else .error .notExtended

/-- Decoding of the header bytes of a transaction, in sending order. -/
def decodeWire (p : Params) : List Byte → Except Reject Instr
  | [] => .error .noHeaderByte
  | [h] => decodeHeader1 p h
  | [h, off] => decodeHeader2 p h off
  | _ => .error .headerTooLong

/-- The decoder, total on every code. -/
def decode (p : Params) : Code → Except Reject Instr
  | .cmd w => decodeCmd w
  | .wire bs => decodeWire p bs

/-! ### The encoder -/

/-- The command word `{ARG, 0, OPCODE}` (R100). -/
def cmdWord (opcode : BitVec 4) (arg : Byte) : Word16 := arg ++ (0 : BitVec 4) ++ opcode

/-- A header byte `{R, B, A}` (R106). -/
def hdrByte (r b : Bool) (a : BitVec 6) : Byte := BitVec.ofBool r ++ BitVec.ofBool b ++ a

/-- The extended header `[{R, B, EXT_PREFIX[5:0]}, off]` (R107). -/
def extHeader (p : Params) (r b : Bool) (off : Byte) : List Byte :=
  [hdrByte r b (p.extPrefix.extractLsb' 0 6), off]

/-- The encoder: the word of an instruction, from the spec's encoding tables (R101, R104, R107 to R109). -/
def encode (p : Params) : Instr → Code
  | .regRead arg => .cmd (cmdWord 1 arg)
  | .regWrite arg => .cmd (cmdWord 2 arg)
  | .regWriteVerify arg => .cmd (cmdWord 3 arg)
  | .strobeSres => .cmd (cmdWord 4 0)
  | .strobeScal => .cmd (cmdWord 4 1)
  | .strobeSrx => .cmd (cmdWord 4 2)
  | .strobeStx => .cmd (cmdWord 4 3)
  | .strobeSfstxon => .cmd (cmdWord 4 4)
  | .strobeSidle => .cmd (cmdWord 4 5)
  | .strobeSfrx => .cmd (cmdWord 4 6)
  | .strobeSftx => .cmd (cmdWord 4 7)
  | .strobeSpwd => .cmd (cmdWord 4 8)
  | .strobeSnop => .cmd (cmdWord 4 9)
  | .setStateIdle => .cmd (cmdWord 5 0)
  | .setStateRx => .cmd (cmdWord 5 1)
  | .setStateTx => .cmd (cmdWord 5 2)
  | .setStateFstxon => .cmd (cmdWord 5 3)
  | .txFrame pktAddr => .cmd (cmdWord 6 pktAddr)
  | .rxFrame arg => .cmd (cmdWord 7 arg)
  | .wireShortSingleWrite a => .wire [hdrByte false false a]
  | .wireShortBurstWrite a => .wire [hdrByte false true a]
  | .wireShortSingleRead a => .wire [hdrByte true false a]
  | .wireShortBurstRead a => .wire [hdrByte true true a]
  | .wireExtSingleWrite off => .wire (extHeader p false false off)
  | .wireExtBurstWrite off => .wire (extHeader p false true off)
  | .wireExtSingleRead off => .wire (extHeader p true false off)
  | .wireExtBurstRead off => .wire (extHeader p true true off)
  | .wireTxFifoBurstWrite => .wire [hdrByte false true p.fifoAddr]
  | .wireRxFifoBurstRead => .wire [hdrByte true true p.fifoAddr]
  | .wireStrobeSres => .wire [p.strobeCodes.sres]
  | .wireStrobeScal => .wire [p.strobeCodes.scal]
  | .wireStrobeSrx => .wire [p.strobeCodes.srx]
  | .wireStrobeStx => .wire [p.strobeCodes.stx]
  | .wireStrobeSfstxon => .wire [p.strobeCodes.sfstxon]
  | .wireStrobeSidle => .wire [p.strobeCodes.sidle]
  | .wireStrobeSfrx => .wire [p.strobeCodes.sfrx]
  | .wireStrobeSftx => .wire [p.strobeCodes.sftx]
  | .wireStrobeSpwd => .wire [p.strobeCodes.spwd]
  | .wireStrobeSnop => .wire [p.strobeCodes.snop]

/-- The command word of a code; a wire code has none, and reads as the reserved word 0. -/
def codeWord : Code → Word16
  | .cmd w => w
  | .wire _ => 0

/-- The header bytes of a code; a command word has none. -/
def codeBytes : Code → List Byte
  | .cmd _ => []
  | .wire bs => bs

/-! ### The opcode table's view

The table numbers a HOSTCMD16 row as `W` (ARG in bits 15:8, CMD in bits 7:0), a WIRE8 row as its header byte, and a WIRE16 row
with the header byte, sent first, in bits 15:8 and the offset byte in bits 7:0. -/

/-- The code a 16-bit row's word `w` stands for: the host command word where `w` is one, else the two header bytes. A word
such as 0x2F06 fits two rows (TX_FRAME with ARG 0x2F, and an extended write at offset 6); the host command comes first in the
table and is taken here. The machine itself never meets the question (see `Code`). -/
def tableCode16 (w : Nat) : Code :=
  match decodeCmd (BitVec.ofNat 16 w) with
  | .ok _ => .cmd (BitVec.ofNat 16 w)
  | .error _ => .wire [BitVec.ofNat 8 (w / 256), BitVec.ofNat 8 w]

/-- The code an 8-bit row's word `w` stands for: one header byte, and the offset byte 0 after an extended header. -/
def tableCode8 (w : Nat) : Code :=
  if offsetIsPrefix {} (hdrA (BitVec.ofNat 8 w)) then .wire [BitVec.ofNat 8 w, 0] else .wire [BitVec.ofNat 8 w]

/-- The code of an opcode-table word of `nbits` bits. -/
def tableCode (nbits w : Nat) : Code :=
  if nbits ≤ 8 then tableCode8 w else tableCode16 w

/-- The instruction the decoder reads from an opcode-table word, with the default parameters the table is written in. -/
def decodeTableWord (nbits w : Nat) : Option Instr :=
  match decode {} (tableCode nbits w) with
  | .ok i => some i
  | .error _ => none

end Sys2Proof
end

