-- ==== Sys2Proof/Machine/State.lean ====
section
/-! DEFINITION. The state of the RSC and of what surrounds it, as plain data; the ways a step can stop; and the state right
after power-on. -/

namespace Sys2Proof.Machine

open Sys2Proof

/-- Byte storage by address: pairs with strictly rising addresses, none of them holding 0x00, which is what an unlisted
address reads as (the reset value of every DBUF byte, R53, and of every RefDev register, R84). -/
abbrev Memory := List Host.Cell

/-- The host-visible CSRs that have storage of their own (R25); names are the spec's. The views CHIP_STATE, RX_LQI and
RX_FLAGS.CRC_OK (R40, R45) and the per-module CSRs (R39, R41, R42) are computed when they are read. -/
structure Csrs where
  /-- CMD (R29, R30). -/
  cmd : Byte
  /-- MOD.MODULE, the two bits of MOD that are not reserved (R31). -/
  mod : BitVec 2
  /-- ADDR_HI and ADDR_LO (R32). -/
  addrHi : Byte
  addrLo : Byte
  /-- LEN (R33). -/
  len : Byte
  /-- ARG (R34). -/
  arg : Byte
  /-- MAX_POLLS (R36). -/
  maxPolls : Byte
  /-- STATUS.BUSY, STATUS.DONE, STATUS.OVR (R37). -/
  busy : Bool
  done : Bool
  ovr : Bool
  /-- RESULT (R38). -/
  result : Result
  /-- LAST_POLLS (R43). -/
  lastPolls : Byte
  /-- RX_COUNT, RX_LEN, RX_ADDR, RX_RSSI, RX_STATUS2 (R44). -/
  rxCount : Byte
  rxLen : Byte
  rxAddr : Byte
  rxRssi : Byte
  rxStatus2 : Byte
  /-- RX_FLAGS.PKT_VALID and RX_FLAGS.TRAILING, the stored bits of RX_FLAGS (R45). -/
  pktValid : Bool
  trailing : Bool
deriving DecidableEq, Repr

/-- The registers the RSC holds for one module (R49). -/
structure ModRegs where
  /-- `mod.last_status[m]`. -/
  lastStatus : Byte
  /-- `mod.errcnt[m]`. -/
  errcnt : Byte
  /-- `mod.asleep[m]`. -/
  asleep : Bool
deriving DecidableEq, Repr

/-- The sequencer phase (R51). -/
inductive Phase where
  | idle | check | run
deriving DecidableEq, Repr

/-- Which `Sequence` run is in progress (R171, R190): SET_STATE's one, or one of TX_FRAME's three. -/
inductive SeqRun where
  | setState | txIdle | txReady | txSend
deriving DecidableEq, Repr

/-- `cont` (R51): the place in the running command's pseudocode, as the primitive that was completed last. -/
inductive Cont where
  /-- No primitive of the pseudocode has run yet. -/
  | start
  /-- REG_READ: after its MemRead (R132). -/
  | readBack
  /-- REG_WRITE: after its MemWrite (R133). -/
  | written
  /-- REG_WRITE_VERIFY: after transaction 1, and after transaction 2 (R134). -/
  | verifyWritten
  | verifyRead
  /-- STROBE: after its strobe (R151). -/
  | strobed
  /-- `Sequence`: after a poll, and after the action of an iteration (R172). -/
  | polled (r : SeqRun)
  | acted (r : SeqRun)
  /-- TX_FRAME: after the count read, after SFTX, after the FIFO write (R190). -/
  | txCounted
  | txFlushed
  | txWritten
  /-- RX_FRAME: after the count read, the poll, SFRX, SRX, the FIFO read (R196). -/
  | rxCounted
  | rxPolled
  | rxFlushed
  | rxRearmed
  | rxDrained
deriving DecidableEq, Repr

/-- The place inside `Txn` (R65), as the primitive that comes next; `data` with no byte left to send is CsDeassert. -/
inductive TxnPos where
  | select | ready | hdr | addr2 | data
deriving DecidableEq, Repr

/-- The transaction in progress (R65), a part of `cont`. -/
structure Txn where
  /-- The header bytes, one or two, in sending order. -/
  hdr : List Byte
  /-- The data bytes still to be sent. -/
  out : List Byte
  /-- Whether the MISO bytes of the data phase are returned. -/
  keep : Bool
  /-- The MISO bytes kept so far. -/
  got : List Byte
  pos : TxnPos
deriving DecidableEq, Repr

/-- The sequencer's hidden state (R51). -/
structure Seq where
  phase : Phase
  cont : Cont
  /-- `iter`: iterations of the current `Sequence` run. -/
  iter : Byte
  /-- `samples`: ready samples taken in the current WaitReady. -/
  samples : Nat
  /-- The transaction in progress, if there is one. -/
  txn : Option Txn
  /-- What the last transaction returned (`d` of R65): a local value of the pseudocode. -/
  ret : List Byte
deriving DecidableEq, Repr

/-- The reference device's state (R84). `cur` and `hdrState` are the transaction in progress as the device saw it: the MOSI
bytes received, and the state at the header exchange (R87, R92). R84 calls `state` and `tnext` 3-bit codes, initially IDLE
(0), and R91 speaks of states: both are kept as the state's name, whose code R86 sends. Where STATE_CODEs are shared, or
IDLE's is not 0, a code would act otherwise (DESIGN CHOICE, log entry 27). -/
structure RefDev where
  regs : Memory
  state : ChipState
  rxfifo : List Byte
  txfifo : List Byte
  tleft : Nat
  tnext : ChipState
  sent : List (List Byte)
  cur : List Byte
  hdrState : Option ChipState
deriving DecidableEq, Repr

/-- What answers for a radio chip (R66): the oracle with no law; the reference device of R84 to R96; or, for a test or a
statement that fixes the answers, a list of ready samples and a list of MISO bytes, after which the oracle answers. -/
inductive Chip where
  | oracle
  | refDev (d : RefDev)
  | script (readys : List Bool) (bytes : List Byte)
deriving DecidableEq, Repr

/-- One host step: a CSR read or a CSR write (R27). -/
inductive HostOp where
  | read (a : Byte)
  | write (a v : Byte)
deriving DecidableEq, Repr

/-- Which agent takes the next step (R9). -/
inductive Turn where
  /-- The RSC sequencer: one primitive. -/
  | rsc
  /-- The host: one CSR read or write. -/
  | host (op : HostOp)
  /-- The host polls STATUS until DONE = 1 (R114): one CSR read of it, and while DONE = 0 a step of the RSC and the poll
  again. -/
  | poll
  /-- Block reset. It may meet a host access, which is then lost (R232). -/
  | reset (lost : Option HostOp)
deriving DecidableEq, Repr

/-- The whole state. `cfg`, `chips`, `agenda` and `hbRdata` are not RSC state: the parameters (R11), the chips on the far side
of the bus (R3), the order in which the agents step (R9), and the data on the host bus after the last read (R22). -/
structure State where
  cfg : Params
  csr : Csrs
  mods : Bank ModRegs
  /-- DBUF, keyed by the index `i` of `dbuf[i]` (R50). -/
  dbuf : Memory
  /-- `cs_n[m]`: true is 1, deasserted (R22, R51). -/
  csN : Bank Bool
  seq : Seq
  hist : List Event
  chips : Bank Chip
  /-- The turns already decided; when it is empty, the RSC steps. -/
  agenda : List Turn
  hbRdata : Byte
deriving DecidableEq, Repr

/-- Why the machine stops with a fault. These are assertions of R54 and of the rules named: no state that satisfies the
invariant of Safety.lean raises one. All are safe: the model stops where no rule says what happens. -/
inductive Fault where
  /-- CsAssert while a chip select is low (R61 says it is issued only when every `cs_n` is 1). Raised by the select step of a
  transaction. Safe. -/
  | selectOverlap
  /-- A byte exchange while `cs_n[m]` is 1 (R64). Raised by the exchange steps of a transaction. Safe. -/
  | notSelected
  /-- `cont` is no place in the pseudocode of the command in CMD. Raised by a command's run step. Safe. -/
  | lostPosition
deriving DecidableEq, Repr

/-- Why a step is refused. -/
inductive Refusal where
  /-- An instruction with no meaning yet: raised by `exec`'s arms only. Safe. -/
  | notModelled (mnemonic : String)
  /-- The parameter set breaks a constraint of R12 ("refused, not modelled", I15): raised by `step`. Safe. -/
  | badParameters
  /-- The transaction in progress has header bytes that are no row of the table: raised by `step` in states that no run
  reaches. Safe. -/
  | unknownHeader (why : Reject)
deriving DecidableEq, Repr

/-- The same value for every module. -/
def sameForAll {α : Type} (a : α) : Bank α := ⟨a, a, a, a⟩

/-- The CSRs after a block reset (R53). -/
def Csrs.reset (p : Params) : Csrs where
  cmd := 0
  mod := 0
  addrHi := 0
  addrLo := 0
  len := 0
  arg := 0
  maxPolls := p.maxPollsReset
  busy := false
  done := false
  ovr := false
  result := .ok
  lastPolls := 0
  rxCount := 0
  rxLen := 0
  rxAddr := 0
  rxRssi := 0
  rxStatus2 := 0
  pktValid := false
  trailing := false

/-- A module's registers after a block reset (R53). -/
def ModRegs.reset : ModRegs := ⟨0, 0, false⟩

/-- The sequencer after a block reset (R53): idle, nothing in progress. -/
def Seq.reset : Seq := ⟨.idle, .start, 0, 0, none, []⟩

/-- The reference device as R84 starts it. -/
def RefDev.initial : RefDev := ⟨[], .idle, [], [], 0, .idle, [], [], none⟩

/-- The machine after the power-on reset step (R250), with given parameters and chips: the history was empty and now holds
that reset (R53, 95_test_vectors.md V9-1). -/
def State.powerOn (p : Params) (chips : Bank Chip) : State where
  cfg := p
  csr := Csrs.reset p
  mods := sameForAll ModRegs.reset
  dbuf := []
  csN := sameForAll true
  seq := Seq.reset
  hist := [.reset]
  chips := chips
  agenda := []
  hbRdata := 0

/-- The machine right after reset: default parameters, and the lawless oracle as every chip (R66). -/
def State.reset : State := State.powerOn {} (sameForAll .oracle)

end Sys2Proof.Machine
end

