-- ==== Sys2Proof/Machine/Storage.lean ====
section
/-! DEFINITION. Reading and writing banks (R49) and byte storage in its canonical form (DBUF, R50; RefDev's registers,
R84). -/

namespace Sys2Proof.Machine

open Sys2Proof

/-- Module `m`'s value. -/
def bankGet {α : Type} (b : Bank α) (m : ModIdx) : α :=
  match m with
  | 0 => b.m0
  | 1 => b.m1
  | 2 => b.m2
  | 3 => b.m3

/-- The bank with module `m`'s value replaced. -/
def bankSet {α : Type} (b : Bank α) (m : ModIdx) (a : α) : Bank α :=
  match m with
  | 0 => { b with m0 := a }
  | 1 => { b with m1 := a }
  | 2 => { b with m2 := a }
  | 3 => { b with m3 := a }

/-- The byte at an address; an unlisted address reads as its reset value 0x00 (R53, R84). -/
def memRead : Memory → Nat → Byte
  | [], _ => 0
  | (k, v) :: rest, a => if k = a then v else memRead rest a

/-- The storage with one byte written. Writing 0x00 removes the entry, so the canonical form is kept. -/
def memWrite : Memory → Nat → Byte → Memory
  | [], a, v => if v = 0 then [] else [(a, v)]
  | (k, w) :: rest, a, v =>
    if a < k then (if v = 0 then (k, w) :: rest else (a, v) :: (k, w) :: rest)
    else if a = k then (if v = 0 then rest else (a, v) :: rest)
    else (k, w) :: memWrite rest a v

/-- Every listed address of `m` is above `a`. -/
def memAbove (a : Nat) : Memory → Bool
  | [] => true
  | (k, _) :: rest => decide (a < k) && memAbove a rest

/-- The canonical form: addresses strictly rising, and no entry 0x00. -/
def Memory.wf : Memory → Bool
  | [] => true
  | (k, v) :: rest => decide (v ≠ 0) && memAbove k rest && Memory.wf rest

/-- Every listed address is below `n`. -/
def memBelow (n : Nat) : Memory → Bool
  | [] => true
  | (k, _) :: rest => decide (k < n) && memBelow n rest

end Sys2Proof.Machine
end

