-- ==== Sys2Proof/Machine/Flags.lean ====
section
/-! DEFINITION. The flags and status fields: the byte of a result code (R222), the STATUS and RX_FLAGS bytes (R37, R45), the
CRC validator (R206), the chip-state field of a status byte (R46, R47), and the saturating error counter (R135). -/

namespace Sys2Proof.Machine

open Sys2Proof

/-- The value RESULT reads for a result code (R222). -/
def resultCode : Result → Byte
  | .ok => 0x00
  | .notReady => 0x01
  | .badAddr => 0x02
  | .badLen => 0x03
  | .badArg => 0x04
  | .badOpcode => 0x05
  | .timeout => 0x06
  | .asleep => 0x07
  | .verifyMismatch => 0x08
  | .rxEmpty => 0x09
  | .rxFifoErr => 0x0A
  | .rxOversize => 0x0B
  | .rxMalformed => 0x0C
  | .pending => 0xFF

/-- A flag as a byte whose bit `i` it is. -/
def flagBit (b : Bool) (i : Nat) : Byte := if b then 1#8 <<< i else 0

/-- The STATUS byte (R37): BUSY bit 0, DONE bit 1, OVR bit 2, the rest 0. -/
def statusByte (c : Csrs) : Byte := flagBit c.busy 0 ||| flagBit c.done 1 ||| flagBit c.ovr 2

/-- The CRC validator's flag: bit 7 of status byte 2 (R206). -/
def crcBit (status2 : Byte) : Bool := status2.getLsbD 7

/-- The CRC validator's link quality: bits 6:0 of status byte 2 (R206), read with bit 7 as 0 (R45). -/
def linkQuality (status2 : Byte) : Byte := status2 &&& 0x7F

/-- RX_FLAGS.CRC_OK: `PKT_VALID AND RX_STATUS2[7]` (R45, R206). -/
def crcOk (c : Csrs) : Bool := c.pktValid && crcBit c.rxStatus2

/-- The RX_FLAGS byte (R45): PKT_VALID bit 0, CRC_OK bit 1, TRAILING bit 2, the rest 0. -/
def rxFlagsByte (c : Csrs) : Byte :=
  flagBit c.pktValid 0 ||| flagBit (crcOk c) 1 ||| flagBit c.trailing 2

/-- `StateOf(s) = s[STATE_HI:STATE_LO]` (R47); the field has three bits because STATE_HI - STATE_LO = 2 (R12). -/
def stateField (p : Params) (status : Byte) : BitVec 3 := status.extractLsb' p.stateLo 3

/-- The status byte shows this chip state: its field is the state's STATE_CODE (R46, R47). -/
def stateIs (p : Params) (status : Byte) (c : ChipState) : Bool := stateField p status == p.stateCode c

/-- `SatInc(c) = min(255, c + 1)` (R135). -/
def satInc (c : Byte) : Byte := if c = 255 then 255 else c + 1

end Sys2Proof.Machine
end

