-- ==== Sys2Proof/Machine/Device.lean ====
section
/-! DEFINITION. The far side of the SPI bus: the chip's answers as an oracle (R66), and the reference device RefDev (R84 to
R96), which is one oracle and a test fixture; no rule of the RSC depends on it. -/

namespace Sys2Proof.Machine

open Sys2Proof

/-! ### The reference device -/

/-- RefDev's status byte: its state code shifted to STATE_LO, other bits 0 (R86). -/
def refStatus (p : Params) (d : RefDev) : Byte := (p.stateCode d.state).setWidth 8 <<< p.stateLo

/-- The strobe a header's address field names (R87): its code is `A`, whatever R and B are. -/
def refStrobeOf (p : Params) (a : BitVec 6) : Option Strobe :=
  allStrobes.find? fun k => (p.strobeCode k).toNat == a.toNat

/-- The one byte that returns `len(fifo)` (R88). A length of 256 or more, which only a preloaded FIFO has (R94), does not fit
and the spec states no value: a free one (DESIGN CHOICE, log entry 22). -/
def refCount (fifo : List Byte) : Byte :=
  if fifo.length < 256 then BitVec.ofNat 8 fifo.length else Config.longCount fifo.length

/-- The value a data exchange of a register read returns at a RegisterAddress (R88). R12 lets both byte counts have one
address, for which R88 names both lengths: the TX FIFO's is taken (DESIGN CHOICE, log entry 28). -/
def refReadReg (p : Params) (d : RefDev) (addr : Word16) : Byte :=
  if addr = p.addrNumTxBytes then refCount d.txfifo
  else if addr = p.addrNumRxBytes then refCount d.rxfifo
  else memRead d.regs addr.toNat

/-- A data exchange of a register write at a RegisterAddress (R89); the count registers ignore it. -/
def refWriteReg (p : Params) (d : RefDev) (addr : Word16) (v : Byte) : RefDev :=
  if addr = p.addrNumTxBytes ∨ addr = p.addrNumRxBytes then d
  else { d with regs := memWrite d.regs addr.toNat v }

/-- One data exchange of a register access at `addr`: a read answers the register, a write answers the status byte (R86, R88,
R89). A byte count inside the range is no exception, although R95 asks for an echo where only the range's start is no byte
count (DESIGN CHOICE, log entry 30). -/
def refRegData (p : Params) (d : RefDev) (read : Bool) (addr : Word16) (out : Byte) : Byte × RefDev :=
  if read then (refReadReg p d addr, d) else (refStatus p d, refWriteReg p d addr out)

/-- One data exchange of a short register access at offset `off`; at or beyond 0x2F a read answers 0x00 and a write is ignored
(R88, R89). Parameters can put a byte count there, where R88 says both 0x00 and the count: 0x00 is taken (DESIGN CHOICE, log
entry 23). -/
def refShortData (p : Params) (d : RefDev) (read : Bool) (off : Nat) (out : Byte) : Byte × RefDev :=
  if 0x2F ≤ off then (if read then 0 else refStatus p d, d)
  else refRegData p d read (p.shortSpace ++ BitVec.ofNat 8 off) out

/-- One data exchange of a FIFO read: the head of `rxfifo`, or 0x00 and RX_FIFO_ERR when it is empty (R90). -/
def refFifoPop (d : RefDev) : Byte × RefDev :=
  match d.rxfifo with
  | [] => (0, { d with state := .rxFifoErr })
  | b :: rest => (b, { d with rxfifo := rest })

/-- One data exchange of a FIFO write: the byte is appended, or dropped with TX_FIFO_ERR when the FIFO is full (R90). -/
def refFifoPush (p : Params) (d : RefDev) (out : Byte) : RefDev :=
  if p.fifoDepth ≤ d.txfifo.length then { d with state := .txFifoErr }
  else { d with txfifo := d.txfifo ++ [out] }

/-- One data exchange of a FIFO access (R86, R90). -/
def refFifoData (p : Params) (d : RefDev) (read : Bool) (out : Byte) : Byte × RefDev :=
  if read then refFifoPop d else (refStatus p d, refFifoPush p d out)

/-- An exchange after the header byte `h` (R87): `rest` is what came between. A strobe has no byte after its header, so what
is neither extended nor a FIFO access is a short register access here. At a strobe code of 0x2F or more, which all are by
default, it has no effect (R89) and a read returns 0x00 (R88), as the last sentence of R87 asks; at a lower one R87 says two
things, and the register access is taken (DESIGN CHOICE, log entry 26). FIFO_ADDR below 0x2F is a FIFO access, in the order of
R87, although R95 asks for an echo there (DESIGN CHOICE, log entry 31). -/
def refAfterHeader (p : Params) (d : RefDev) (h : Byte) (rest : List Byte) (out : Byte) : Byte × RefDev :=
  if offsetIsPrefix p (hdrA h) then
    match rest with
    | [] => (refStatus p d, d)
    | off :: data => refRegData p d (hdrR h) (p.extPrefix ++ (off + BitVec.ofNat 8 data.length)) out
  else if offsetIsFifo p (hdrA h) then refFifoData p d (hdrR h) out
  else refShortData p d (hdrR h) ((hdrA h).toNat + rest.length) out

/-- RefDev's answer to one byte exchange, and RefDev after it. -/
def refExchange (p : Params) (d : RefDev) (out : Byte) : Byte × RefDev :=
  match d.cur with
  | [] => (refStatus p d, { d with cur := [out], hdrState := some d.state })
  | h :: rest =>
    let (b, d') := refAfterHeader p d h rest out
    (b, { d' with cur := d.cur ++ [out] })

/-- The effect of a strobe in RefDev's state (R91); in a state not listed it has none. -/
def refStrobe (d : RefDev) : Strobe → RefDev
  | .sres => { d with regs := [], rxfifo := [], txfifo := [], tleft := 0, state := .idle }
  | .scal =>
    match d.state with
    | .idle => { d with state := .calibrate, tleft := 1, tnext := .idle }
    | _ => d
  | .srx =>
    match d.state with
    | .idle | .rx | .tx | .fstxon => { d with state := .rx }
    | _ => d
  | .stx =>
    match d.state with
    | .idle | .rx | .fstxon =>
      match d.txfifo with
      | [] => { d with state := .tx }
      | f => { d with sent := d.sent ++ [f], txfifo := [], state := .tx }
    | _ => d
  | .sfstxon =>
    match d.state with
    | .idle | .rx | .tx => { d with state := .fstxon }
    | _ => d
  | .sidle =>
    match d.state with
    | .rx | .tx | .fstxon | .calibrate | .settling => { d with state := .idle, tleft := 0 }
    | _ => d
  | .sfrx =>
    match d.state with
    | .idle | .rxFifoErr => { d with rxfifo := [], state := .idle }
    | _ => d
  | .sftx =>
    match d.state with
    | .idle | .txFifoErr => { d with txfifo := [], state := .idle }
    | _ => d
  | .spwd => d
  | .snop => d

/-- CALIBRATE and SETTLING, the states a chip leaves on its own (R46). -/
def isTransient : ChipState → Bool
  | .calibrate => true
  | .settling => true
  | _ => false

/-- What the end of a transaction whose header exchange saw a transient state does (R92). -/
def refTick (d : RefDev) : RefDev :=
  match d.hdrState with
  | none => d
  | some c =>
    if isTransient c then
      if d.tleft - 1 = 0 ∧ isTransient d.state = true then { d with tleft := d.tleft - 1, state := d.tnext }
      else { d with tleft := d.tleft - 1 }
    else d

/-- The strobe of a whole transaction, if it is one: a single header byte that is neither an extended nor a FIFO header
(R87). -/
def refTxnStrobe (p : Params) : List Byte → Option Strobe
  | [h] => if offsetIsPrefix p (hdrA h) || offsetIsFifo p (hdrA h) then none else refStrobeOf p (hdrA h)
  | _ => none

/-- RefDev at the `CS(m, 1)` that ends a transaction: first the transient rule (R92), then the strobe (R91). -/
def refDeselect (p : Params) (d : RefDev) : RefDev :=
  let d' := match refTxnStrobe p d.cur with
    | some k => refStrobe (refTick d) k
    | none => refTick d
  { d' with cur := [], hdrState := none }

/-! ### Any chip -/

/-- `SampleReady(m)` (R66): the answer, and the chip after it. RefDev is always ready (R85). -/
def chipSample (hist : List Event) (m : ModIdx) : Chip → Bool × Chip
  | .oracle => (Config.chipReady hist m, .oracle)
  | .refDev d => (true, .refDev d)
  | .script [] bs => (Config.chipReady hist m, .script [] bs)
  | .script (r :: rs) bs => (r, .script rs bs)

/-- `Xfer(m, out)` as the chip sees it (R66): the MISO byte, and the chip after it. -/
def chipExchange (p : Params) (hist : List Event) (m : ModIdx) (out : Byte) : Chip → Byte × Chip
  | .oracle => (Config.chipByte hist m out, .oracle)
  | .refDev d => ((refExchange p d out).1, .refDev (refExchange p d out).2)
  | .script rs [] => (Config.chipByte hist m out, .script rs [])
  | .script rs (b :: bs) => (b, .script rs bs)

/-- The chip at the end of a transaction with it. -/
def chipDeselect (p : Params) : Chip → Chip
  | .oracle => .oracle
  | .refDev d => .refDev (refDeselect p d)
  | .script rs bs => .script rs bs

end Sys2Proof.Machine
end

