-- ==== Sys2Proof/Machine/Ops.lean ====
section
/-! DEFINITION. The named operations on the state that every rule uses: the data buffer, the module registers, the event
history, the chip selects, the start of a command (R29), its completion (R221, the RSC's only counterpart of an exception,
R220 and R233), and the block reset (R250). -/

namespace Sys2Proof.Machine

open Sys2Proof

/-- `m = csr.MOD.MODULE`, the module a command works on (R35). -/
def moduleOf (s : State) : ModIdx := s.csr.mod.toFin

/-- `dbuf[i]` (R50). -/
def dbufAt (s : State) (i : Nat) : Byte := memRead s.dbuf i

/-- `dbuf[i] <- v` (R50); DBUF has DBUF_CAP bytes, and there is none to write above them. -/
def dbufPut (s : State) (i : Nat) (v : Byte) : State :=
  if i < s.cfg.dbufCap then { s with dbuf := memWrite s.dbuf i v } else s

/-- `dbuf[i] <- b_0, dbuf[i+1] <- b_1, ...`. -/
def dbufStore (s : State) (i : Nat) : List Byte → State
  | [] => s
  | b :: bs => dbufStore (dbufPut s i b) (i + 1) bs

/-- `n` bytes of DBUF from index `i` on. -/
def dbufFrom (s : State) (i : Nat) : Nat → List Byte
  | 0 => []
  | n + 1 => dbufAt s i :: dbufFrom s (i + 1) n

/-- `dbuf[0 .. n-1]`. -/
def dbufTake (s : State) (n : Nat) : List Byte := dbufFrom s 0 n

/-- Append an event to `hist` (R67). -/
def record (s : State) (e : Event) : State := { s with hist := s.hist ++ [e] }

/-- The registers of module `m` (R49), and their update. -/
def modRegs (s : State) (m : ModIdx) : ModRegs := bankGet s.mods m
def setModRegs (s : State) (m : ModIdx) (r : ModRegs) : State := { s with mods := bankSet s.mods m r }

/-- `mod.last_status[m] <- b` (R49). -/
def setLastStatus (s : State) (m : ModIdx) (b : Byte) : State :=
  setModRegs s m { modRegs s m with lastStatus := b }

/-- `mod.errcnt[m] <- c` (R49). -/
def setErrcnt (s : State) (m : ModIdx) (c : Byte) : State :=
  setModRegs s m { modRegs s m with errcnt := c }

/-- `mod.asleep[m] <- b` (R49). -/
def setAsleep (s : State) (m : ModIdx) (b : Bool) : State :=
  setModRegs s m { modRegs s m with asleep := b }

/-- `cs_n[m] <- 0`, recorded (R61). -/
def csLow (s : State) (m : ModIdx) : State :=
  record { s with csN := bankSet s.csN m false } (.cs m false)

/-- `cs_n[m] <- 1`, recorded (R61); the chip sees its transaction end. -/
def csHigh (s : State) (m : ModIdx) : State :=
  record { s with csN := bankSet s.csN m true, chips := bankSet s.chips m (chipDeselect s.cfg (bankGet s.chips m)) }
    (.cs m true)

/-- `if cs_n[m] = 0: cs_n[m] <- 1`, recorded. -/
def releaseCs (s : State) (m : ModIdx) : State :=
  if bankGet s.csN m then s else csHigh s m

/-- Every chip select high, each change recorded (R221, R251). -/
def releaseAll (s : State) : State :=
  releaseCs (releaseCs (releaseCs (releaseCs s 0) 1) 2) 3

/-- Completion (R221): `finish(code)` and `raise Result(code)` both end the running command with it, in one step. -/
def complete (code : Result) (s : State) : State :=
  record
    { releaseAll s with
      csr := { (releaseAll s).csr with result := code, busy := false, done := true }
      seq := Seq.reset }
    (.done code)

/-- A host write of `v` to CMD while the RSC is idle (R29): the command word is `{ARG, v}` (R100). -/
def startCommand (v : Byte) (s : State) : State :=
  record
    { s with
      csr := { s.csr with cmd := v, busy := true, done := false, result := .pending }
      seq := { s.seq with phase := .check } }
    (.cmd (s.csr.arg ++ v))

/-- The host's issue of a command word (R100, R114): ARG first, then CMD. -/
def issue (w : Word16) (s : State) : State :=
  startCommand (cmdLow w) { s with csr := { s.csr with arg := cmdArg w } }

/-- Block reset (R250, R251): a chip select that is low goes high, every piece of RSC state takes its reset value, and `hist`
gains `RESET`. The chips, the parameters, the turns still to come and the host's read data are not RSC state (R252). -/
def blockReset (s : State) : State :=
  record
    { s with
      csr := Csrs.reset s.cfg
      mods := sameForAll ModRegs.reset
      dbuf := []
      csN := sameForAll true
      seq := Seq.reset
      hist := (releaseAll s).hist
      chips := (releaseAll s).chips }
    .reset

end Sys2Proof.Machine
end

