-- ==== Sys2Proof/Machine/Operands.lean ====
section
/-! DEFINITION. The operands of a command (R35, R102, R105), the checks on them (R130, R131, R191, R225), the headers they
make (R107, R109), the frame bytes (R193), and the constraints on the parameters (R12). -/

namespace Sys2Proof.Machine

open Sys2Proof

/-- `addr = {csr.ADDR_HI, csr.ADDR_LO}` (R32, R105). -/
def addrOperand (s : State) : Word16 := s.csr.addrHi ++ s.csr.addrLo

/-- `n = csr.LEN` (R33, R105). -/
def lenOperand (s : State) : Nat := s.csr.len.toNat

/-- The command word in `{ARG, CMD}` (R100). -/
def commandWord (s : State) : Word16 := s.csr.arg ++ s.csr.cmd

/-- `AddrCheck(addr)` (R130), and no more: an offset it accepts, or the extended prefix, may be FIFO_ADDR or a strobe code
under odd parameters, and the command then runs, although R138 says that register commands never touch FIFOs or strobes
(DESIGN CHOICE, log entry 33). -/
def addrCheck (p : Params) (addr : Word16) : Result :=
  if addrExt addr = p.shortSpace ∧ p.fifoRsvLo ≤ addrOff addr ∧ addrOff addr ≤ p.fifoRsvHi then .notReady
  else if addrExt addr = p.shortSpace then
    (if 0x40 ≤ addrOff addr ∨ addrOff addr = p.extPrefix then .badAddr else .ok)
  else if addrExt addr = p.extPrefix then .ok
  else .badAddr

/-- `LenCheck(n)` (R131). -/
def lenCheck (p : Params) (n : Nat) : Result :=
  if 1 ≤ n ∧ n ≤ p.dbufCap then .ok else .badLen

/-- A check's result as a failure: none when it is OK. -/
def failure (r : Result) : Option Result := if r = .ok then none else some r

/-- The first failure of a list of checks: the result CHECK gives (R225). -/
def firstFailure : List (Option Result) → Option Result
  | [] => none
  | some r :: _ => some r
  | none :: rest => firstFailure rest

/-- `m >= N_MODULES` gives BAD_ARG (R31, R225). -/
def moduleCheck (s : State) : Option Result :=
  if s.csr.mod.toNat < s.cfg.nModules then none else some .badArg

/-- CHECK of the three register commands, after the opcode (R131, R225). -/
def checkRegister (s : State) : Option Result :=
  firstFailure [moduleCheck s, failure (addrCheck s.cfg (addrOperand s)), failure (lenCheck s.cfg (lenOperand s))]

/-- CHECK of TX_FRAME, after the opcode (R191, R225). -/
def checkTxFrame (s : State) : Option Result :=
  firstFailure
    [moduleCheck s,
      if s.cfg.maxPayload < lenOperand s then some .badLen else none,
      if (modRegs s (moduleOf s)).asleep then some .asleep else none]

/-- CHECK of STROBE, SET_STATE and RX_FRAME, after the opcode and the argument, which the decoder has checked (R225). -/
def checkModuleOnly (s : State) : Option Result := firstFailure [moduleCheck s]

/-- The result of a command word that is no row of the table (R103, R104, R225): a reserved word is BAD_OPCODE; a strobe index
or target out of range is BAD_ARG, as is the module check before it. -/
def illegalResult : Reject → Result
  | .strobeIndexOutOfRange => .badArg
  | .targetOutOfRange => .badArg
  | .nonzeroHighNibble => .badOpcode
  | .reservedOpcode => .badOpcode
  | .noHeaderByte => .badOpcode
  | .reservedHeader => .badOpcode
  | .notExtended => .badOpcode
  | .headerTooLong => .badOpcode

/-- `Hdr(R, B, addr)` (R107) as the header row it makes. -/
def regHeader (p : Params) (r b : Bool) (addr : Word16) : Instr :=
  match regHeaderForm p addr with
  | (true, off) => wireShort r b (off.extractLsb' 0 6)
  | (false, off) => wireExt r b off

/-- The burst bit of a register access: B = 1 exactly when n > 1 (R107). -/
def burst (n : Nat) : Bool := decide (1 < n)

/-- The bytes TX_FRAME writes to the TX FIFO: wire length, address, payload (R193). -/
def frameBytes (n : Byte) (a : Byte) (payload : List Byte) : List Byte := (n + 1) :: a :: payload

/-- The constraints of R12 on a parameter set: one that meets them all may be used, any other is refused (I15). -/
def paramsOk (p : Params) : Bool :=
  decide (1 ≤ p.nModules) && decide (p.nModules ≤ 4)
  && decide (p.fifoRsvLo ≤ p.fifoRsvHi) && decide (p.fifoRsvHi < 0x40)
  && decide (p.extPrefix < 0x40)
  && decide (p.stateHi = p.stateLo + 2) && decide (p.stateHi ≤ 7)
  && decide ((allStrobes.map p.strobeCode).Nodup)
  && allStrobes.all (fun k => decide (p.strobeCode k < 0x40))
  && decide (p.maxPayload + 3 ≤ p.dbufCap) && decide (p.maxPayload + 2 ≤ p.fifoDepth)
  && decide (p.fifoDepth ≤ p.dbufCap + 2) && decide (p.dbufCap ≤ 128)

end Sys2Proof.Machine
end

