-- ==== Sys2Proof/Machine/Transaction.lean ====
section
/-! DEFINITION. One SPI transaction, primitive by primitive (R61 to R65), and the header row that opens it with its data phase
(R111). -/

namespace Sys2Proof.Machine

open Sys2Proof

/-- Every chip select is 1. -/
def allHigh (s : State) : Bool := decide (s.csN = sameForAll true)

/-- The transaction in progress, replaced. -/
def setTxn (s : State) (t : Option Txn) : State := { s with seq := { s.seq with txn := t } }

/-- `CsAssert(m)` (R61), the first primitive of a transaction. WaitReady is next and has taken no sample (R51). -/
def selectStep (t : Txn) (s : State) : Host.Outcome State Fault Refusal :=
  if allHigh s then
    .next (csLow { s with seq := { s.seq with txn := some { t with pos := .ready }, samples := 0 } } (moduleOf s))
  else .fault .selectOverlap

/-- One sample of the ready line (R63): the count, the answer of the chip (R66), the event. -/
def takeSample (s : State) : State :=
  let m := moduleOf s
  let a := chipSample s.hist m (bankGet s.chips m)
  record
    { s with chips := bankSet s.chips m a.2, seq := { s.seq with samples := s.seq.samples + 1 } }
    (.ready m a.1)

/-- The level `takeSample` reads. -/
def sampleLevel (s : State) : Bool := (chipSample s.hist (moduleOf s) (bankGet s.chips (moduleOf s))).1

/-- `WaitReady(m)` (R63): one sample a step; after READY_MAX_SAMPLES of them the command ends with TIMEOUT. -/
def readyStep (t : Txn) (s : State) : Host.Outcome State Fault Refusal :=
  if s.seq.samples < s.cfg.readyMaxSamples then
    .next (if sampleLevel s then setTxn (takeSample s) (some { t with pos := .hdr }) else takeSample s)
  else .next (complete .timeout s)

/-- The MISO byte of the exchange in which the RSC sends `out` (R64, R66). -/
def misoByte (s : State) (out : Byte) : Byte :=
  (chipExchange s.cfg s.hist (moduleOf s) out (bankGet s.chips (moduleOf s))).1

/-- One byte exchange (R64): the chip answers, and the event is recorded. -/
def exchange (role : Role) (out : Byte) (s : State) : State :=
  let m := moduleOf s
  let a := chipExchange s.cfg s.hist m out (bankGet s.chips m)
  record { s with chips := bankSet s.chips m a.2 } (.xfer m role out a.1)

/-- The module's chip select is low, as every exchange requires (R64). -/
def selected (s : State) : Bool := !bankGet s.csN (moduleOf s)

/-- The header exchange (R65): its MISO byte is the transaction's status byte. -/
def headerStep (hdr : List Byte) (t : Txn) (s : State) : Host.Outcome State Fault Refusal :=
  if selected s then
    .next (setTxn (setLastStatus (exchange .hdr (hdr.headD 0) s) (moduleOf s) (misoByte s (hdr.headD 0)))
      (some { t with pos := if hdr.length = 2 then .addr2 else .data }))
  else .fault .notSelected

/-- The second header byte (R65): its MISO byte is ignored. -/
def addr2Step (hdr : List Byte) (t : Txn) (s : State) : Host.Outcome State Fault Refusal :=
  if selected s then
    .next (setTxn (exchange .addr2 (hdr.tail.headD 0) s) (some { t with pos := .data }))
  else .fault .notSelected

/-- One data exchange, or `CsDeassert(m)` and the return when every data byte was sent (R65). -/
def dataStep (t : Txn) (s : State) : Host.Outcome State Fault Refusal :=
  match t.out with
  | [] => .next (csHigh { s with seq := { s.seq with txn := none, ret := t.got } } (moduleOf s))
  | b :: rest =>
    if selected s then
      .next (setTxn (exchange .data b s)
        (some { t with out := rest, got := if t.keep then t.got ++ [misoByte s b] else t.got }))
    else .fault .notSelected

/-- The next primitive of the transaction `t` whose header bytes are `hdr`. -/
def txnStep (hdr : List Byte) (t : Txn) (s : State) : Host.Outcome State Fault Refusal :=
  match t.pos with
  | .select => selectStep t s
  | .ready => readyStep t s
  | .hdr => headerStep hdr t s
  | .addr2 => addr2Step hdr t s
  | .data => dataStep t s

/-- The data bytes a transaction with this header row sends (R70 to R72, R111): register writes send DBUF bytes, reads send
zeros, a single access moves one byte and a burst LEN of them; the FIFO write sends the frame (R193), the FIFO read RX_COUNT
zeros (R201); a strobe has no data phase. -/
def wireData (i : Instr) (s : State) : List Byte :=
  match i with
  | .wireShortSingleWrite _ => dbufTake s 1
  | .wireShortBurstWrite _ => dbufTake s (lenOperand s)
  | .wireShortSingleRead _ => [0]
  | .wireShortBurstRead _ => List.replicate (lenOperand s) 0
  | .wireExtSingleWrite _ => dbufTake s 1
  | .wireExtBurstWrite _ => dbufTake s (lenOperand s)
  | .wireExtSingleRead _ => [0]
  | .wireExtBurstRead _ => List.replicate (lenOperand s) 0
  | .wireTxFifoBurstWrite => frameBytes s.csr.len s.csr.arg (dbufTake s (lenOperand s))
  | .wireRxFifoBurstRead => List.replicate s.csr.rxCount.toNat 0
  | _ => []

/-- Whether the MISO bytes of the data phase are returned: exactly for reads (R70 to R72). -/
def wireKeep (i : Instr) : Bool :=
  match i with
  | .wireShortSingleRead _ => true
  | .wireShortBurstRead _ => true
  | .wireExtSingleRead _ => true
  | .wireExtBurstRead _ => true
  | .wireRxFifoBurstRead => true
  | _ => false

/-- The transaction of a header row, before its first primitive. -/
def newTxn (i : Instr) (s : State) : Txn :=
  ⟨codeBytes (encode s.cfg i), wireData i s, wireKeep i, [], .select⟩

/-- The meaning all header rows share: the next primitive of the transaction in progress, sent with this row's header bytes;
with none in progress, the row's own transaction begins. -/
def runHeader (i : Instr) (s : State) : Host.Outcome State Fault Refusal :=
  match s.seq.txn with
  | none => selectStep (newTxn i s) s
  | some t => txnStep (codeBytes (encode s.cfg i)) t s

/-- A command begins a transaction: `cont` says which one, and its first primitive runs in this step (R15). -/
def beginTxn (i : Instr) (c : Cont) (s : State) : Host.Outcome State Fault Refusal :=
  selectStep (newTxn i s) { s with seq := { s.seq with cont := c } }

end Sys2Proof.Machine
end

