-- ==== Sys2Proof/Machine/Command.lean ====
section
/-! DEFINITION. What every host command shares: its start, its CHECK step, and its run by primitives (R29, R62, R225). -/

namespace Sys2Proof.Machine

open Sys2Proof

/-- One step of a command. While the RSC is idle, the host's issue of its word (R29, R100); in CHECK, the checks in order, the
first failure completing the command in this step (R225); in RUN, the next primitive of its pseudocode. -/
def runCommand (i : Instr) (check : State → Option Result) (body : State → Host.Outcome State Fault Refusal) (s : State) :
    Host.Outcome State Fault Refusal :=
  match s.seq.phase with
  | .idle => .next (issue (codeWord (encode s.cfg i)) s)
  | .check =>
    match check s with
    | some r => .next (complete r s)
    | none => .next { s with seq := { s.seq with phase := .run } }
  | .run => body s

/-- A word that is no row of the table completes in its CHECK step (R103, R225). -/
def runIllegal (why : Reject) (s : State) : State := complete (illegalResult why) s

end Sys2Proof.Machine
end

