-- ==== Sys2Proof/Machine/Sequence.lean ====
section
/-! DEFINITION. The state sequencer (42_state_sequencer.md): `Poll`, `Act` and the `Sequence` loop. -/

namespace Sys2Proof.Machine

open Sys2Proof

/-- The chip state a target names (R46, R104). -/
def targetState : Target → ChipState
  | .idle => .idle
  | .rx => .rx
  | .tx => .tx
  | .fstxon => .fstxon

/-- `StrobeFor(target)` (R173). -/
def strobeFor : Target → Strobe
  | .idle => .sidle
  | .rx => .srx
  | .tx => .stx
  | .fstxon => .sfstxon

/-- What one iteration does (R172). -/
inductive SeqAction where
  | strobe (k : Strobe)
  | wait
deriving DecidableEq, Repr

/-- `Act(cur, target)` (R173, R174). -/
def act (cur : ChipState) (target : Target) : SeqAction :=
  match cur with
  | .idle => .strobe (strobeFor target)
  | .rx => .strobe (strobeFor target)
  | .tx => .strobe (strobeFor target)
  | .fstxon => .strobe (strobeFor target)
  | .calibrate => .wait
  | .settling => .wait
  | .rxFifoErr => .strobe .sfrx
  | .txFifoErr => .strobe .sftx

/-- `Poll(m)` begins: a SNOP strobe (R170). -/
def beginPoll (c : Cont) (s : State) : Host.Outcome State Fault Refusal :=
  beginTxn (wireStrobe .snop) c s

/-- The poll's status byte, that of its own header exchange (R170), shows this chip state. -/
def polledIs (s : State) (c : ChipState) : Bool := stateIs s.cfg (modRegs s (moduleOf s)).lastStatus c

/-- The chip states the poll shows: exactly one when the eight STATE_CODEs differ, as by default. -/
def polledStates (s : State) : List ChipState := allChipStates.filter (polledIs s)

/-- One of these states, a free value (log entry 3). That it may differ from one poll to the next, and so is given the
history, which R67 says the RSC reads for nothing, is part of that choice. -/
def anyRow (s : State) (cs : List ChipState) : ChipState := cs.getD (Config.freeRow s.hist % cs.length) .idle

/-- The row of R173's table that applies: that of the state the poll shows. For a code of no state the spec names no row, for
a code of several it names them all: which row applies is then a free value (DESIGN CHOICE, log entry 3). -/
def polledRow (s : State) : ChipState :=
  match polledStates s with
  | [] => anyRow s allChipStates
  | [c] => c
  | cs => anyRow s cs

/-- `Sequence` begins: `iter <- 0; csr.LAST_POLLS <- 0`, and the first poll (R172). -/
def beginSequence (r : SeqRun) (s : State) : Host.Outcome State Fault Refusal :=
  beginPoll (.polled r) { s with seq := { s.seq with iter := 0 }, csr := { s.csr with lastPolls := 0 } }

/-- `SettleWait()` (R175): a step with no SPI transaction that records WAIT. -/
def settleWait (c : Cont) (s : State) : Host.Outcome State Fault Refusal :=
  .next (record { s with seq := { s.seq with cont := c } } .wait)

/-- After a poll (R172, R176): at the target the loop returns to `done`; at the deadline the command ends with TIMEOUT; else
the action of one iteration. -/
def afterPoll (r : SeqRun) (target : Target) (done : State → Host.Outcome State Fault Refusal) (s : State) :
    Host.Outcome State Fault Refusal :=
  if polledIs s (targetState target) then done s
  else if s.seq.iter = s.csr.maxPolls then .next (complete .timeout s)
  else
    match act (polledRow s) target with
    | .strobe k => beginTxn (wireStrobe k) (.acted r) s
    | .wait => settleWait (.acted r) s

/-- After an iteration's action (R172): `iter <- iter + 1; csr.LAST_POLLS <- iter`, and the next poll. -/
def afterAction (r : SeqRun) (s : State) : Host.Outcome State Fault Refusal :=
  beginPoll (.polled r)
    { s with seq := { s.seq with iter := s.seq.iter + 1 }, csr := { s.csr with lastPolls := s.seq.iter + 1 } }

end Sys2Proof.Machine
end

