-- ==== Sys2Proof/Machine/Framing.lean ====
section
/-! DEFINITION. The packet framer and deframer (43_packet_framing.md): TX_FRAME and RX_FRAME. -/

namespace Sys2Proof.Machine

open Sys2Proof

/-- The read of one byte count (R192, R197): a single register read. -/
def beginCountRead (addr : Word16) (c : Cont) (s : State) : Host.Outcome State Fault Refusal :=
  beginTxn (regHeader s.cfg true false addr) c s

/-- The byte a count read returned. -/
def countRead (s : State) : Byte := s.seq.ret.headD 0

/-- TX_FRAME after CHECK (R190): occupancy check and flush, FSTXON, the FIFO write, TX. -/
def txFrameBody (s : State) : Host.Outcome State Fault Refusal :=
  match s.seq.cont with
  | .start => beginCountRead s.cfg.addrNumTxBytes .txCounted s
  | .txCounted => if countRead s = 0 then beginSequence .txReady s else beginSequence .txIdle s
  | .polled .txIdle => afterPoll .txIdle .idle (beginTxn (wireStrobe .sftx) .txFlushed) s
  | .acted .txIdle => afterAction .txIdle s
  | .txFlushed => beginSequence .txReady s
  | .polled .txReady => afterPoll .txReady .fstxon (beginTxn .wireTxFifoBurstWrite .txWritten) s
  | .acted .txReady => afterAction .txReady s
  | .txWritten => beginSequence .txSend s
  | .polled .txSend => afterPoll .txSend .tx (fun s => .next (complete .ok s)) s
  | .acted .txSend => afterAction .txSend s
  | _ => .fault .lostPosition

/-- RX_FRAME after its count read (R197): RX_COUNT, and PKT_VALID and TRAILING cleared. -/
def storeCount (s : State) : State :=
  { s with csr := { s.csr with rxCount := countRead s, pktValid := false, trailing := false } }

/-- The bytes of a FIFO read to their places (R201): byte 0 to RX_LEN, byte 1 (if there is one) to RX_ADDR, the others to DBUF
from index 0. -/
def placeFrame (f : List Byte) (s : State) : State :=
  match f with
  | [] => { s with csr := { s.csr with rxLen := 0 } }
  | [l] => { s with csr := { s.csr with rxLen := l } }
  | l :: a :: rest => dbufStore { s with csr := { s.csr with rxLen := l, rxAddr := a } } 0 rest

/-- The frame is well-formed (R202): `L >= 1` and `L + 3 <= count`, compared exactly. -/
def wellFramed (l count : Byte) : Bool := decide (1 ≤ l.toNat) && decide (l.toNat + 3 ≤ count.toNat)

/-- Deframing of a well-formed frame with wire length `l` (R203, R207): the status bytes out of DBUF, RX_LEN less the address
byte, the terminator, the flags. -/
def deframe (l : Byte) (s : State) : State :=
  dbufPut
    { s with
      csr := { s.csr with
        rxRssi := dbufAt s (l.toNat - 1)
        rxStatus2 := dbufAt s l.toNat
        rxLen := l - 1
        pktValid := true
        trailing := decide (l.toNat + 3 < s.csr.rxCount.toNat) } }
    (l.toNat - 1) 0

/-- The end of RX_FRAME after its FIFO read (R196, R201 to R205). -/
def rxEnd (f : List Byte) (s : State) : State :=
  if wellFramed (f.headD 0) s.csr.rxCount then complete .ok (deframe (f.headD 0) (placeFrame f s))
  else complete .rxMalformed (placeFrame f s)

/-- RX_FRAME after CHECK, in the order of R196's pseudocode: the count, the poll with the error path (R199), the oversize case
(R200), the FIFO read. The poll's status byte stands in CHIP_STATUS after RX_OVERSIZE (R39, R65), where a cell of R223 says that of
the count read (log entry 25). -/
def rxFrameBody (s : State) : Host.Outcome State Fault Refusal :=
  match s.seq.cont with
  | .start => beginCountRead s.cfg.addrNumRxBytes .rxCounted s
  | .rxCounted =>
    if countRead s = 0 then .next (complete .rxEmpty (storeCount s)) else beginPoll .rxPolled (storeCount s)
  | .rxPolled =>
    if polledIs s .rxFifoErr then beginTxn (wireStrobe .sfrx) .rxFlushed s
    else if s.cfg.fifoDepth < s.csr.rxCount.toNat then .next (complete .rxOversize s)
    else beginTxn .wireRxFifoBurstRead .rxDrained s
  | .rxFlushed => beginTxn (wireStrobe .srx) .rxRearmed s
  | .rxRearmed => .next (complete .rxFifoErr s)
  | .rxDrained => .next (rxEnd s.seq.ret s)
  | _ => .fault .lostPosition

/-- TX_FRAME (R190). -/
def execTxFrame (pktAddr : Byte) (s : State) : Host.Outcome State Fault Refusal :=
  runCommand (.txFrame pktAddr) checkTxFrame txFrameBody s

/-- RX_FRAME (R196). -/
def execRxFrame (arg : Byte) (s : State) : Host.Outcome State Fault Refusal :=
  runCommand (.rxFrame arg) checkModuleOnly rxFrameBody s

end Sys2Proof.Machine
end

