-- ==== Sys2Proof/Machine/RegisterAccess.lean ====
section
/-! DEFINITION. The register access commands (40_register_access.md): REG_READ, REG_WRITE, REG_WRITE_VERIFY. -/

namespace Sys2Proof.Machine

open Sys2Proof

/-- `MemRead(m, addr, n)` or `MemWrite(m, addr, n, dbuf)` of a register command begins (R70, R71). -/
def beginAccess (read : Bool) (c : Cont) (s : State) : Host.Outcome State Fault Refusal :=
  beginTxn (regHeader s.cfg read (burst (lenOperand s)) (addrOperand s)) c s

/-- REG_READ after CHECK (R132). -/
def regReadBody (s : State) : Host.Outcome State Fault Refusal :=
  match s.seq.cont with
  | .start => beginAccess true .readBack s
  | .readBack => .next (complete .ok (dbufStore s 0 s.seq.ret))
  | _ => .fault .lostPosition

/-- REG_WRITE after CHECK (R133). -/
def regWriteBody (s : State) : Host.Outcome State Fault Refusal :=
  match s.seq.cont with
  | .start => beginAccess false .written s
  | .written => .next (complete .ok s)
  | _ => .fault .lostPosition

/-- The end of REG_WRITE_VERIFY (R134): the bytes read back are compared with DBUF; a mismatch counts once (R135). -/
def verifyEnd (s : State) : State :=
  if s.seq.ret = dbufTake s (lenOperand s) then complete .ok s
  else complete .verifyMismatch
    (setErrcnt s (moduleOf s) (satInc (modRegs s (moduleOf s)).errcnt))

/-- REG_WRITE_VERIFY after CHECK (R134). -/
def regWriteVerifyBody (s : State) : Host.Outcome State Fault Refusal :=
  match s.seq.cont with
  | .start => beginAccess false .verifyWritten s
  | .verifyWritten => beginAccess true .verifyRead s
  | .verifyRead => .next (verifyEnd s)
  | _ => .fault .lostPosition

/-- REG_READ (R132). -/
def execRegRead (arg : Byte) (s : State) : Host.Outcome State Fault Refusal :=
  runCommand (.regRead arg) checkRegister regReadBody s

/-- REG_WRITE (R133). -/
def execRegWrite (arg : Byte) (s : State) : Host.Outcome State Fault Refusal :=
  runCommand (.regWrite arg) checkRegister regWriteBody s

/-- REG_WRITE_VERIFY (R134). -/
def execRegWriteVerify (arg : Byte) (s : State) : Host.Outcome State Fault Refusal :=
  runCommand (.regWriteVerify arg) checkRegister regWriteVerifyBody s

end Sys2Proof.Machine
end

