-- ==== Sys2Proof/Machine/SetState.lean ====
section
/-! DEFINITION. The SET_STATE command's four rows (42_state_sequencer.md R171). -/

namespace Sys2Proof.Machine

open Sys2Proof

/-- SET_STATE's `Sequence` returned (R171, R178): the asleep flag is cleared and the command ends with OK. -/
def setStateDone (s : State) : Host.Outcome State Fault Refusal :=
  .next (complete .ok (setAsleep s (moduleOf s) false))

/-- SET_STATE after CHECK (R171). -/
def setStateBody (t : Target) (s : State) : Host.Outcome State Fault Refusal :=
  match s.seq.cont with
  | .start => beginSequence .setState s
  | .polled .setState => afterPoll .setState t setStateDone s
  | .acted .setState => afterAction .setState s
  | _ => .fault .lostPosition

/-- The SET_STATE row of a target (R104). -/
def setStateInstr : Target → Instr
  | .idle => .setStateIdle
  | .rx => .setStateRx
  | .tx => .setStateTx
  | .fstxon => .setStateFstxon

/-- SET_STATE with target `t` (R171). -/
def runSetState (t : Target) (s : State) : Host.Outcome State Fault Refusal :=
  runCommand (setStateInstr t) checkModuleOnly (setStateBody t) s

/-- SET_STATE IDLE (R171). -/
def execSetStateIdle (s : State) : Host.Outcome State Fault Refusal := runSetState .idle s

/-- SET_STATE RX (R171). -/
def execSetStateRx (s : State) : Host.Outcome State Fault Refusal := runSetState .rx s

/-- SET_STATE TX (R171). -/
def execSetStateTx (s : State) : Host.Outcome State Fault Refusal := runSetState .tx s

/-- SET_STATE FSTXON (R171). -/
def execSetStateFstxon (s : State) : Host.Outcome State Fault Refusal := runSetState .fstxon s

end Sys2Proof.Machine
end

