-- ==== Sys2Proof/Machine/Strobes.lean ====
section
/-! DEFINITION. The STROBE command's ten rows (41_strobes.md). -/

namespace Sys2Proof.Machine

open Sys2Proof

/-- `StrobeEffect(m, k)`, the RSC-side effect of a strobe (R152 to R161): SRES clears the asleep flag, SPWD sets it. -/
def strobeEffect (k : Strobe) (s : State) : State :=
  match k with
  | .sres => setAsleep s (moduleOf s) false
  | .spwd => setAsleep s (moduleOf s) true
  | .scal => s
  | .srx => s
  | .stx => s
  | .sfstxon => s
  | .sidle => s
  | .sfrx => s
  | .sftx => s
  | .snop => s

/-- STROBE after CHECK (R151). -/
def strobeBody (k : Strobe) (s : State) : Host.Outcome State Fault Refusal :=
  match s.seq.cont with
  | .start => beginTxn (wireStrobe k) .strobed s
  | .strobed => .next (complete .ok (strobeEffect k s))
  | _ => .fault .lostPosition

/-- STROBE with strobe `k` (R151). -/
def runStrobe (k : Strobe) (s : State) : Host.Outcome State Fault Refusal :=
  runCommand (strobeInstr k) checkModuleOnly (strobeBody k) s

/-- STROBE SRES (R152). -/
def execStrobeSres (s : State) : Host.Outcome State Fault Refusal := runStrobe .sres s

/-- STROBE SCAL (R153). -/
def execStrobeScal (s : State) : Host.Outcome State Fault Refusal := runStrobe .scal s

/-- STROBE SRX (R154). -/
def execStrobeSrx (s : State) : Host.Outcome State Fault Refusal := runStrobe .srx s

/-- STROBE STX (R155). -/
def execStrobeStx (s : State) : Host.Outcome State Fault Refusal := runStrobe .stx s

/-- STROBE SFSTXON (R156). -/
def execStrobeSfstxon (s : State) : Host.Outcome State Fault Refusal := runStrobe .sfstxon s

/-- STROBE SIDLE (R157). -/
def execStrobeSidle (s : State) : Host.Outcome State Fault Refusal := runStrobe .sidle s

/-- STROBE SFRX (R158). -/
def execStrobeSfrx (s : State) : Host.Outcome State Fault Refusal := runStrobe .sfrx s

/-- STROBE SFTX (R159). -/
def execStrobeSftx (s : State) : Host.Outcome State Fault Refusal := runStrobe .sftx s

/-- STROBE SPWD (R160). -/
def execStrobeSpwd (s : State) : Host.Outcome State Fault Refusal := runStrobe .spwd s

/-- STROBE SNOP (R161). -/
def execStrobeSnop (s : State) : Host.Outcome State Fault Refusal := runStrobe .snop s

end Sys2Proof.Machine
end

