-- ==== Sys2Proof/Machine/Wire.lean ====
section
/-! DEFINITION. The header rows (30_encoding.md R106 to R111): each is one transaction (R65), run primitive by primitive with
the row's own header bytes and data phase. -/

namespace Sys2Proof.Machine

open Sys2Proof

/-- Wire header: short register write of one byte (R107). -/
def execWireShortSingleWrite (a : BitVec 6) (s : State) : Host.Outcome State Fault Refusal := runHeader (.wireShortSingleWrite a) s

/-- Wire header: short register write of LEN bytes (R107). -/
def execWireShortBurstWrite (a : BitVec 6) (s : State) : Host.Outcome State Fault Refusal := runHeader (.wireShortBurstWrite a) s

/-- Wire header: short register read of one byte (R107). -/
def execWireShortSingleRead (a : BitVec 6) (s : State) : Host.Outcome State Fault Refusal := runHeader (.wireShortSingleRead a) s

/-- Wire header: short register read of LEN bytes (R107). -/
def execWireShortBurstRead (a : BitVec 6) (s : State) : Host.Outcome State Fault Refusal := runHeader (.wireShortBurstRead a) s

/-- Wire header: extended register write of one byte (R107). -/
def execWireExtSingleWrite (off : Byte) (s : State) : Host.Outcome State Fault Refusal := runHeader (.wireExtSingleWrite off) s

/-- Wire header: extended register write of LEN bytes (R107). -/
def execWireExtBurstWrite (off : Byte) (s : State) : Host.Outcome State Fault Refusal := runHeader (.wireExtBurstWrite off) s

/-- Wire header: extended register read of one byte (R107). -/
def execWireExtSingleRead (off : Byte) (s : State) : Host.Outcome State Fault Refusal := runHeader (.wireExtSingleRead off) s

/-- Wire header: extended register read of LEN bytes (R107). -/
def execWireExtBurstRead (off : Byte) (s : State) : Host.Outcome State Fault Refusal := runHeader (.wireExtBurstRead off) s

/-- Wire header: TX FIFO burst write of one frame (R72, R109, R193). -/
def execWireTxFifoBurstWrite (s : State) : Host.Outcome State Fault Refusal := runHeader .wireTxFifoBurstWrite s

/-- Wire header: RX FIFO burst read of RX_COUNT bytes (R72, R109, R201). -/
def execWireRxFifoBurstRead (s : State) : Host.Outcome State Fault Refusal := runHeader .wireRxFifoBurstRead s

/-- Wire header: strobe SRES (R108, R150). -/
def execWireStrobeSres (s : State) : Host.Outcome State Fault Refusal := runHeader .wireStrobeSres s

/-- Wire header: strobe SCAL (R108, R150). -/
def execWireStrobeScal (s : State) : Host.Outcome State Fault Refusal := runHeader .wireStrobeScal s

/-- Wire header: strobe SRX (R108, R150). -/
def execWireStrobeSrx (s : State) : Host.Outcome State Fault Refusal := runHeader .wireStrobeSrx s

/-- Wire header: strobe STX (R108, R150). -/
def execWireStrobeStx (s : State) : Host.Outcome State Fault Refusal := runHeader .wireStrobeStx s

/-- Wire header: strobe SFSTXON (R108, R150). -/
def execWireStrobeSfstxon (s : State) : Host.Outcome State Fault Refusal := runHeader .wireStrobeSfstxon s

/-- Wire header: strobe SIDLE (R108, R150). -/
def execWireStrobeSidle (s : State) : Host.Outcome State Fault Refusal := runHeader .wireStrobeSidle s

/-- Wire header: strobe SFRX (R108, R150). -/
def execWireStrobeSfrx (s : State) : Host.Outcome State Fault Refusal := runHeader .wireStrobeSfrx s

/-- Wire header: strobe SFTX (R108, R150). -/
def execWireStrobeSftx (s : State) : Host.Outcome State Fault Refusal := runHeader .wireStrobeSftx s

/-- Wire header: strobe SPWD (R108, R150). -/
def execWireStrobeSpwd (s : State) : Host.Outcome State Fault Refusal := runHeader .wireStrobeSpwd s

/-- Wire header: strobe SNOP (R108, R150). -/
def execWireStrobeSnop (s : State) : Host.Outcome State Fault Refusal := runHeader .wireStrobeSnop s

end Sys2Proof.Machine
end

