-- ==== Sys2Proof/Machine/Dispatch.lean ====
section
/-! DEFINITION. Which meaning each instruction has: one arm per row of the opcode table. -/

namespace Sys2Proof.Machine

open Sys2Proof

def exec (i : Instr) (s : State) : Host.Outcome State Fault Refusal :=
  match i with
  | .regRead arg => Sys2Proof.Machine.execRegRead arg s
  | .regWrite arg => Sys2Proof.Machine.execRegWrite arg s
  | .regWriteVerify arg => Sys2Proof.Machine.execRegWriteVerify arg s
  | .strobeSres => Sys2Proof.Machine.execStrobeSres s
  | .strobeScal => Sys2Proof.Machine.execStrobeScal s
  | .strobeSrx => Sys2Proof.Machine.execStrobeSrx s
  | .strobeStx => Sys2Proof.Machine.execStrobeStx s
  | .strobeSfstxon => Sys2Proof.Machine.execStrobeSfstxon s
  | .strobeSidle => Sys2Proof.Machine.execStrobeSidle s
  | .strobeSfrx => Sys2Proof.Machine.execStrobeSfrx s
  | .strobeSftx => Sys2Proof.Machine.execStrobeSftx s
  | .strobeSpwd => Sys2Proof.Machine.execStrobeSpwd s
  | .strobeSnop => Sys2Proof.Machine.execStrobeSnop s
  | .setStateIdle => Sys2Proof.Machine.execSetStateIdle s
  | .setStateRx => Sys2Proof.Machine.execSetStateRx s
  | .setStateTx => Sys2Proof.Machine.execSetStateTx s
  | .setStateFstxon => Sys2Proof.Machine.execSetStateFstxon s
  | .txFrame pktAddr => Sys2Proof.Machine.execTxFrame pktAddr s
  | .rxFrame arg => Sys2Proof.Machine.execRxFrame arg s
  | .wireShortSingleWrite a => Sys2Proof.Machine.execWireShortSingleWrite a s
  | .wireShortBurstWrite a => Sys2Proof.Machine.execWireShortBurstWrite a s
  | .wireShortSingleRead a => Sys2Proof.Machine.execWireShortSingleRead a s
  | .wireShortBurstRead a => Sys2Proof.Machine.execWireShortBurstRead a s
  | .wireExtSingleWrite off => Sys2Proof.Machine.execWireExtSingleWrite off s
  | .wireExtBurstWrite off => Sys2Proof.Machine.execWireExtBurstWrite off s
  | .wireExtSingleRead off => Sys2Proof.Machine.execWireExtSingleRead off s
  | .wireExtBurstRead off => Sys2Proof.Machine.execWireExtBurstRead off s
  | .wireTxFifoBurstWrite => Sys2Proof.Machine.execWireTxFifoBurstWrite s
  | .wireRxFifoBurstRead => Sys2Proof.Machine.execWireRxFifoBurstRead s
  | .wireStrobeSres => Sys2Proof.Machine.execWireStrobeSres s
  | .wireStrobeScal => Sys2Proof.Machine.execWireStrobeScal s
  | .wireStrobeSrx => Sys2Proof.Machine.execWireStrobeSrx s
  | .wireStrobeStx => Sys2Proof.Machine.execWireStrobeStx s
  | .wireStrobeSfstxon => Sys2Proof.Machine.execWireStrobeSfstxon s
  | .wireStrobeSidle => Sys2Proof.Machine.execWireStrobeSidle s
  | .wireStrobeSfrx => Sys2Proof.Machine.execWireStrobeSfrx s
  | .wireStrobeSftx => Sys2Proof.Machine.execWireStrobeSftx s
  | .wireStrobeSpwd => Sys2Proof.Machine.execWireStrobeSpwd s
  | .wireStrobeSnop => Sys2Proof.Machine.execWireStrobeSnop s

end Sys2Proof.Machine
end

