-- ==== Sys2Proof/Machine/Fetch.lean ====
section
/-! DEFINITION. What the sequencer executes next. The RSC has no program counter and fetches no program (R21, R82): the word
of the running command stands in ARG and CMD (R100), the header of the transaction in progress in the sequencer. -/

namespace Sys2Proof.Machine

open Sys2Proof

/-- What there is to execute. -/
inductive Fetched where
  /-- No command runs. -/
  | nothing
  | instr (i : Instr)
  /-- The command word is no row of the table (R103, R104). -/
  | illegal (why : Reject)
  /-- The header bytes in the sequencer are no row of the table; no run reaches this. -/
  | unknownHeader (why : Reject)
deriving DecidableEq, Repr

/-- The header row of the transaction in progress. -/
def fetchHeader (s : State) (t : Txn) : Fetched :=
  match decode s.cfg (.wire t.hdr) with
  | .ok i => .instr i
  | .error why => .unknownHeader why

/-- The row of the command word in `{ARG, CMD}`. -/
def fetchCommand (s : State) : Fetched :=
  match decode s.cfg (.cmd (commandWord s)) with
  | .ok i => .instr i
  | .error why => .illegal why

/-- A transaction in progress goes on; between two, the command's pseudocode does (R15, R62). -/
def fetch (s : State) : Fetched :=
  match s.seq.phase with
  | .idle => .nothing
  | .check => fetchCommand s
  | .run =>
    match s.seq.txn with
    | some t => fetchHeader s t
    | none => fetchCommand s

/-- The state in which the sequencer is about to run the command word `w`: as after the host's issue of it. -/
def placeCommand (w : Word16) (s : State) : State :=
  issue w { s with agenda := [], csN := sameForAll true, seq := Seq.reset }

/-- The transaction of the header bytes `bs`, before its first primitive. -/
def txnOfBytes (s : State) (bs : List Byte) : Txn :=
  match decode s.cfg (.wire bs) with
  | .ok i => newTxn i s
  | .error _ => ⟨bs, [], false, [], .select⟩

/-- The state in which the sequencer is about to run the transaction whose header bytes are `bs`. -/
def placeHeader (bs : List Byte) (s : State) : State :=
  { s with
    agenda := []
    csN := sameForAll true
    csr := { s.csr with busy := true, done := false, result := .pending }
    seq := { Seq.reset with phase := .run, txn := some (txnOfBytes s bs) } }

/-- The state in which the sequencer is about to run a code. -/
def placeCode (c : Code) (s : State) : State :=
  match c with
  | .cmd w => placeCommand w s
  | .wire bs => placeHeader bs s

end Sys2Proof.Machine
end

