-- ==== Sys2Proof/Machine/HostBus.lean ====
section
/-! DEFINITION. The host bus: the CSR map, CSR reads and CSR writes (R24 to R50). -/

namespace Sys2Proof.Machine

open Sys2Proof

/-- What stands at a host address (R25). -/
inductive Csr where
  | cmd | mod | addrHi | addrLo | len | arg | maxPolls
  | status | result | chipStatus | chipState | errcnt | modFlags | lastPolls
  | rxCount | rxLen | rxAddr | rxRssi | rxStatus2 | rxLqi | rxFlags
  | dbuf (i : Nat)
  | reserved
deriving DecidableEq, Repr

/-- The CSR map (R25); DBUF addresses at or above `0x80 + DBUF_CAP` are reserved (R26). -/
def csrAt (p : Params) (a : Byte) : Csr :=
  match a.toNat with
  | 0x00 => .cmd
  | 0x01 => .mod
  | 0x02 => .addrHi
  | 0x03 => .addrLo
  | 0x04 => .len
  | 0x05 => .arg
  | 0x06 => .maxPolls
  | 0x08 => .status
  | 0x09 => .result
  | 0x0A => .chipStatus
  | 0x0B => .chipState
  | 0x0C => .errcnt
  | 0x0D => .modFlags
  | 0x0E => .lastPolls
  | 0x10 => .rxCount
  | 0x11 => .rxLen
  | 0x12 => .rxAddr
  | 0x13 => .rxRssi
  | 0x14 => .rxStatus2
  | 0x15 => .rxLqi
  | 0x16 => .rxFlags
  | n => if 0x80 ≤ n ∧ n < 0x80 + p.dbufCap then .dbuf (n - 0x80) else .reserved

/-- A per-module CSR's value: that of module MOD.MODULE, and 0 when there is no such module (R31). -/
def perModule (s : State) (f : ModRegs → Byte) : Byte :=
  if s.csr.mod.toNat < s.cfg.nModules then f (modRegs s (moduleOf s)) else 0

/-- The value a host read of a CSR returns (R26 to R45, R50). -/
def csrValue (s : State) : Csr → Byte
  | .cmd => s.csr.cmd
  | .mod => s.csr.mod.setWidth 8
  | .addrHi => s.csr.addrHi
  | .addrLo => s.csr.addrLo
  | .len => s.csr.len
  | .arg => s.csr.arg
  | .maxPolls => s.csr.maxPolls
  | .status => statusByte s.csr
  | .result => resultCode s.csr.result
  | .chipStatus => perModule s fun r => r.lastStatus
  | .chipState => perModule s fun r => (stateField s.cfg r.lastStatus).setWidth 8
  | .errcnt => perModule s fun r => r.errcnt
  | .modFlags => perModule s fun r => flagBit r.asleep 0
  | .lastPolls => s.csr.lastPolls
  | .rxCount => s.csr.rxCount
  | .rxLen => s.csr.rxLen
  | .rxAddr => s.csr.rxAddr
  | .rxRssi => s.csr.rxRssi
  | .rxStatus2 => s.csr.rxStatus2
  | .rxLqi => linkQuality s.csr.rxStatus2
  | .rxFlags => rxFlagsByte s.csr
  | .dbuf i => dbufAt s i
  | .reserved => 0

/-- A host write to ERRCNT clears the count of module MOD.MODULE (R41); there is nothing to clear when there is no such
module. -/
def clearErrcnt (s : State) : State :=
  if s.csr.mod.toNat < s.cfg.nModules then setErrcnt s (moduleOf s) 0 else s

/-- The effect of a host write of `v` to a CSR while BUSY = 0 (R26, R29 to R50); read-only CSRs ignore it (R25). -/
def csrWriteIdle (s : State) (v : Byte) : Csr → State
  | .cmd => startCommand v s
  | .mod => { s with csr := { s.csr with mod := v.setWidth 2 } }
  | .addrHi => { s with csr := { s.csr with addrHi := v } }
  | .addrLo => { s with csr := { s.csr with addrLo := v } }
  | .len => { s with csr := { s.csr with len := v } }
  | .arg => { s with csr := { s.csr with arg := v } }
  | .maxPolls => { s with csr := { s.csr with maxPolls := v } }
  | .status => if v.getLsbD 2 then { s with csr := { s.csr with ovr := false } } else s
  | .errcnt => clearErrcnt s
  | .dbuf i => dbufPut s i v
  | .result => s
  | .chipStatus => s
  | .chipState => s
  | .modFlags => s
  | .lastPolls => s
  | .rxCount => s
  | .rxLen => s
  | .rxAddr => s
  | .rxRssi => s
  | .rxStatus2 => s
  | .rxLqi => s
  | .rxFlags => s
  | .reserved => s

/-- A host read (R27, R28): the value appears on `hb_rdata`, and nothing else changes. -/
def hostRead (a : Byte) (s : State) : State := { s with hbRdata := csrValue s (csrAt s.cfg a) }

/-- A host write (R27, R28): ignored while BUSY = 1, when it sets OVR. -/
def hostWrite (a v : Byte) (s : State) : State :=
  if s.csr.busy then { s with csr := { s.csr with ovr := true } } else csrWriteIdle s v (csrAt s.cfg a)

/-- One host step (R27). -/
def hostAccess (op : HostOp) (s : State) : State :=
  match op with
  | .read a => hostRead a s
  | .write a v => hostWrite a v s

/-- One round of the host's poll of STATUS (R114): the read, and the turns that follow it. -/
def pollStatus (rest : List Turn) (s : State) : State :=
  { hostRead 0x08 s with agenda := if s.csr.done then rest else .rsc :: .poll :: rest }

end Sys2Proof.Machine
end

