-- ==== Sys2Proof/Machine/Step.lean ====
section
/-! DEFINITION. One step of the machine: one agent's turn (R9). -/

namespace Sys2Proof.Machine

open Sys2Proof

/-- A step of the RSC sequencer (R62). While no command runs it has none to take, and nothing changes (R250). -/
def rscStep (s : State) : Host.Outcome State Fault Refusal :=
  match fetch s with
  | .nothing => .next s
  | .instr i => exec i s
  | .illegal why => .next (runIllegal why s)
  | .unknownHeader why => .refused (.unknownHeader why)

/-- The next agent's turn is taken off the agenda. -/
def popTurn (rest : List Turn) (s : State) : State := { s with agenda := rest }

/-- A parameter set that breaks R12 is refused (I15), whoever acts. -/
def checked (p : Params) (o : Host.Outcome State Fault Refusal) : Host.Outcome State Fault Refusal :=
  if paramsOk p then o else .refused .badParameters

/-- One step: the agent whose turn it is acts; with no turn decided, the RSC does. A reset step wins over a host access that
meets it (R232). -/
def step (s : State) : Host.Outcome State Fault Refusal :=
  match s.agenda with
  | [] => checked s.cfg (rscStep s)
  | .rsc :: rest => checked s.cfg (rscStep (popTurn rest s))
  | .host op :: rest => checked s.cfg (.next (hostAccess op (popTurn rest s)))
  | .poll :: rest => checked s.cfg (.next (pollStatus rest s))
  | .reset _ :: rest => checked s.cfg (.next (blockReset (popTurn rest s)))

/-- The state whose very next step runs an opcode-table word (log entry 8): a command word issued as the host's write of CMD
issues it (R29), a header word as the transaction the sequencer is about to send. -/
def State.withFetchWord (s : State) (nbits w : Nat) : State := placeCode (tableCode nbits w) s

end Sys2Proof.Machine
end

