-- ==== Sys2Proof/Machine/HostProgram.lean ====
section
/-! DEFINITION. Host programs: the assembler's lines and the CSR writes they stand for (R113, R114), the pseudo-instructions
(R115), the boot and shutdown sequences (R254, R255). A program is a list of turns for the agenda. -/

namespace Sys2Proof.Machine

open Sys2Proof

/-- One line of a host program: a command or a host directive (R113). -/
inductive Line where
  | regRead (m : ModIdx) (addr : Word16) (n : Byte)
  | regWrite (m : ModIdx) (addr : Word16) (n : Byte)
  | regWriteVerify (m : ModIdx) (addr : Word16) (n : Byte)
  | strobe (m : ModIdx) (k : Strobe)
  | setState (m : ModIdx) (t : Target)
  | txFrame (m : ModIdx) (pktAddr n : Byte)
  | rxFrame (m : ModIdx)
  | dbuf (i : Byte) (bytes : List Byte)
  | maxPolls (v : Byte)
  | clrErrcnt (m : ModIdx)
  | clrOvr
deriving DecidableEq, Repr

/-- A host write, as a turn. -/
def hostWriteTurn (a v : Byte) : Turn := .host (.write a v)

/-- `MOD <- m`. -/
def selectModule (m : ModIdx) : Turn := hostWriteTurn 0x01 (BitVec.ofNat 8 m.val)

/-- The index of a strobe and of a target, as ARG has them (R104). -/
def strobeIndex (k : Strobe) : Byte := cmdArg (codeWord (encode {} (strobeInstr k)))
def targetIndex : Target → Byte
  | .idle => 0
  | .rx => 1
  | .tx => 2
  | .fstxon => 3

/-- The CSR writes of a register command line (R114). -/
def regLine (opcode : Byte) (m : ModIdx) (addr : Word16) (n : Byte) : List Turn :=
  [selectModule m, hostWriteTurn 0x02 (addrExt addr), hostWriteTurn 0x03 (addrOff addr), hostWriteTurn 0x04 n,
    hostWriteTurn 0x00 opcode, .poll]

/-- `DBUF i: b0, b1, ...`: one write per byte. Host addresses have eight bits: past `dbuf[127]` the address goes on from 0x00,
and an index of 128 or more counts from there (DESIGN CHOICE, log entry 24: R113 does not say). -/
def dbufLine (i : Byte) : List Byte → List Turn
  | [] => []
  | b :: bs => hostWriteTurn (0x80 + i) b :: dbufLine (i + 1) bs

/-- The turns of a line (R113, R114): the operand writes, the CMD write, and the poll of STATUS until DONE = 1; a directive
has no poll. -/
def lineTurns : Line → List Turn
  | .regRead m addr n => regLine 0x01 m addr n
  | .regWrite m addr n => regLine 0x02 m addr n
  | .regWriteVerify m addr n => regLine 0x03 m addr n
  | .strobe m k => [selectModule m, hostWriteTurn 0x05 (strobeIndex k), hostWriteTurn 0x00 0x04, .poll]
  | .setState m t => [selectModule m, hostWriteTurn 0x05 (targetIndex t), hostWriteTurn 0x00 0x05, .poll]
  | .txFrame m a n =>
    [selectModule m, hostWriteTurn 0x04 n, hostWriteTurn 0x05 a, hostWriteTurn 0x00 0x06, .poll]
  | .rxFrame m => [selectModule m, hostWriteTurn 0x00 0x07, .poll]
  | .dbuf i bs => dbufLine i bs
  | .maxPolls v => [hostWriteTurn 0x06 v]
  | .clrErrcnt m => [selectModule m, hostWriteTurn 0x0C 0]
  | .clrOvr => [hostWriteTurn 0x08 0x04]

/-- The pseudo-instructions (R115). -/
inductive Pseudo where
  | getStatus (m : ModIdx)
  | resetChip (m : ModIdx)
  | calibrate (m : ModIdx)
  | sleep (m : ModIdx)
  | rearm (m : ModIdx)
  | flushRx (m : ModIdx)
  | flushTx (m : ModIdx)
  | startRx (m : ModIdx)
  | readReg (m : ModIdx) (a : Word16)
  | writeReg (m : ModIdx) (a : Word16) (v : Byte)
  | writeRegV (m : ModIdx) (a : Word16) (v : Byte)
  | config (m : ModIdx) (table : List (Word16 × Byte))
deriving DecidableEq, Repr

/-- `WRITE_REG_V` for every pair of a table, in table order (R115). -/
def configLines (m : ModIdx) : List (Word16 × Byte) → List Line
  | [] => []
  | (a, v) :: rest => .dbuf 0 [v] :: .regWriteVerify m a 1 :: configLines m rest

/-- The expansion of a pseudo-instruction (R115). -/
def expand : Pseudo → List Line
  | .getStatus m => [.strobe m .snop]
  | .resetChip m => [.strobe m .sres]
  | .calibrate m => [.strobe m .scal]
  | .sleep m => [.strobe m .spwd]
  | .rearm m => [.strobe m .srx]
  | .flushRx m => [.strobe m .sfrx]
  | .flushTx m => [.strobe m .sftx]
  | .startRx m => [.setState m .rx]
  | .readReg m a => [.regRead m a 1]
  | .writeReg m a v => [.dbuf 0 [v], .regWrite m a 1]
  | .writeRegV m a v => [.dbuf 0 [v], .regWriteVerify m a 1]
  | .config m table => .clrErrcnt m :: configLines m table

/-- The turns of a list of lines. -/
def programTurns : List Line → List Turn
  | [] => []
  | l :: rest => lineTurns l ++ programTurns rest

/-- The boot sequence of one module (R254): reset strobe, IDLE, the configuration table, the read of ERRCNT, RX. -/
def bootModule (m : ModIdx) (table : List (Word16 × Byte)) : List Turn :=
  programTurns [.strobe m .sres, .setState m .idle]
  ++ programTurns (expand (.config m table))
  ++ [selectModule m, .host (.read 0x0C)]
  ++ programTurns [.setState m .rx]

/-- The shutdown of a list of modules (R255): each is put to sleep. -/
def shutdown : List ModIdx → List Turn
  | [] => []
  | m :: rest => programTurns (expand (.sleep m)) ++ shutdown rest

end Sys2Proof.Machine
end

