-- ==== Sys2Proof/Safety.lean ====
section
/-! DEFINITION. What counts as a sound state and a safe step, in the terms the statements use: the invariants of R54 with the
rest of what every run keeps, the canonical form of memory, the headers the RSC may send (R111). -/

namespace Sys2Proof.Machine

open Sys2Proof

/-- The constraints of R12, one by one. -/
structure R12Holds (p : Params) : Prop where
  modules : 1 ≤ p.nModules ∧ p.nModules ≤ 4
  fifoRange : p.fifoRsvLo.toNat ≤ p.fifoRsvHi.toNat ∧ p.fifoRsvHi.toNat < 0x40
  prefixField : p.extPrefix.toNat < 0x40
  stateBits : (p.stateHi : Int) - p.stateLo = 2 ∧ p.stateHi ≤ 7
  strobesDiffer : ∀ j k : Strobe, p.strobeCode j = p.strobeCode k → j = k
  strobesFit : ∀ k : Strobe, (p.strobeCode k).toNat < 0x40
  payload : p.maxPayload + 3 ≤ p.dbufCap ∧ p.maxPayload + 2 ≤ p.fifoDepth
  fifoFits : (p.fifoDepth : Int) - 2 ≤ p.dbufCap
  window : p.dbufCap ≤ 128

/-- The CHECK of a command row (R225); a header row has none. -/
def checkOf (i : Instr) (s : State) : Option Result :=
  match i with
  | .regRead _ => checkRegister s
  | .regWrite _ => checkRegister s
  | .regWriteVerify _ => checkRegister s
  | .txFrame _ => checkTxFrame s
  | _ => checkModuleOnly s

/-- The rows a host command word can be. -/
def isCommand (i : Instr) : Bool :=
  match encode {} i with
  | .cmd _ => true
  | .wire _ => false

/-- The rows a transaction's header can be. -/
def isWire (i : Instr) : Bool := !isCommand i

/-- The places of a `Sequence` run. -/
def inSequence (r : SeqRun) (c : Cont) : Bool := c = .polled r || c = .acted r

/-- The places in a command's pseudocode (R132 to R134, R151, R171, R190, R196). -/
def contFits (i : Instr) (c : Cont) : Bool :=
  c = .start ||
  match i with
  | .regRead _ => c = .readBack
  | .regWrite _ => c = .written
  | .regWriteVerify _ => c = .verifyWritten || c = .verifyRead
  | .strobeSres | .strobeScal | .strobeSrx | .strobeStx | .strobeSfstxon => c = .strobed
  | .strobeSidle | .strobeSfrx | .strobeSftx | .strobeSpwd | .strobeSnop => c = .strobed
  | .setStateIdle | .setStateRx | .setStateTx | .setStateFstxon => inSequence .setState c
  | .txFrame _ =>
    c = .txCounted || c = .txFlushed || c = .txWritten
    || inSequence .txIdle c || inSequence .txReady c || inSequence .txSend c
  | .rxFrame _ => c = .rxCounted || c = .rxPolled || c = .rxFlushed || c = .rxRearmed || c = .rxDrained
  | _ => false

/-- The chip selects a sound state has: the module's is low exactly from CsAssert to CsDeassert of a transaction (R23,
R61). -/
def selectsDue (s : State) : Bank Bool :=
  match s.seq.txn with
  | none => sameForAll true
  | some t => if t.pos = .select then sameForAll true else bankSet (sameForAll true) (moduleOf s) false

/-- The transaction in progress, if there is one, carries the header of a row. -/
def headerKnown (s : State) : Bool :=
  match s.seq.txn with
  | none => true
  | some t => (decode s.cfg (.wire t.hdr)).isOk

/-- While it runs, the command in CMD is a row, passed its CHECK, and `cont` is a place in its pseudocode. -/
def commandSound (s : State) : Bool :=
  match decode s.cfg (.cmd (commandWord s)) with
  | .ok i => decide (checkOf i s = none) && contFits i s.seq.cont
  | .error _ => false

/-- `iter` within its bound (R172, R176), and LAST_POLLS in step with it (R177). -/
def pollsSound (s : State) : Bool :=
  decide (s.seq.iter ≤ s.csr.maxPolls) &&
  match s.seq.cont with
  | .polled _ => decide (s.csr.lastPolls = s.seq.iter)
  | .acted _ => decide (s.csr.lastPolls = s.seq.iter) && decide (s.seq.iter < s.csr.maxPolls)
  | _ => true

/-- The invariant of the machine: what R54 lists, and what the rest of the state keeps with it. -/
structure Inv (s : State) : Prop where
  /-- The parameters are ones a model may use (R12). -/
  params : paramsOk s.cfg = true
  /-- `phase = IDLE` iff BUSY = 0 (R51, R54). -/
  busy_phase : s.csr.busy = true ↔ s.seq.phase ≠ .idle
  /-- BUSY and DONE are never both 1 (R37, R54). -/
  busy_done : ¬ (s.csr.busy = true ∧ s.csr.done = true)
  /-- RESULT is PENDING exactly while a command runs (R38). -/
  pending_busy : s.csr.result = .pending ↔ s.csr.busy = true
  /-- The chip selects (R23, R54). -/
  selects : s.csN = selectsDue s
  /-- Nothing of the sequencer is left over while it is idle or about to CHECK (R51, R221). -/
  idle_clear : s.seq.phase = .idle → s.seq = Seq.reset
  check_clear : s.seq.phase = .check → s.seq = { Seq.reset with phase := .check }
  /-- The transaction in progress carries a known header. -/
  header : headerKnown s = true
  /-- The running command. -/
  command : s.seq.phase = .run → commandSound s = true
  /-- The counters (R51, R237). -/
  polls : pollsSound s = true
  samples : s.seq.samples ≤ s.cfg.readyMaxSamples
  /-- DBUF is in canonical form and lies below DBUF_CAP (R50). -/
  dbuf_wf : Memory.wf s.dbuf = true
  dbuf_cap : memBelow s.cfg.dbufCap s.dbuf = true

/-- The five invariants that R54 lists (`mod.errcnt[m] <= 255` by its width), in its words. -/
structure R54Holds (s : State) : Prop where
  phase_idle : s.seq.phase = .idle ↔ s.csr.busy = false
  one_low : ∀ m m' : ModIdx, bankGet s.csN m = false → bankGet s.csN m' = false → m = m'
  idle_high : s.csr.busy = false → ∀ m : ModIdx, bankGet s.csN m = true
  busy_done : ¬ (s.csr.busy = true ∧ s.csr.done = true)
  errcnt : ∀ m : ModIdx, (modRegs s m).errcnt.toNat ≤ 255

/-- The registers of a chip that is a RefDev are in canonical form. -/
def chipWf : Chip → Bool
  | .oracle => true
  | .refDev d => Memory.wf d.regs
  | .script _ _ => true

/-- Every byte storage of the state is in canonical form. -/
def memoriesWf (s : State) : Bool :=
  Memory.wf s.dbuf && chipWf s.chips.m0 && chipWf s.chips.m1 && chipWf s.chips.m2 && chipWf s.chips.m3

/-- The step answers a next state: no fault, no refusal. -/
def SafeStep (s : State) : Prop := ∃ t, step s = .next t

/-- A header byte of R111's table, for the default parameters. -/
def headerOfR111 (h : Byte) : Bool :=
  decide ((hdrA h).toNat ≤ 0x2F) || decide (h = 0x7F) || decide (h = 0xFF) || (strobeOfCode {} h).isSome

/-- The agent that acts in this step is the block reset (R250). -/
def resetTurn (s : State) : Bool :=
  match s.agenda with
  | .reset _ :: _ => true
  | _ => false

/-- The agent that acts in this step is the RSC. -/
def rscTurn (s : State) : Bool :=
  match s.agenda with
  | [] => true
  | .rsc :: _ => true
  | _ => false

/-- The command row in CMD and ARG, if it is one. -/
def runningCommand (s : State) : Option Instr :=
  match decode s.cfg (.cmd (commandWord s)) with
  | .ok i => some i
  | .error _ => none

/-- `k` steps of a row, taken one after the other: for a header row, `k` primitives of its transaction. -/
def execSteps (i : Instr) : Nat → State → Host.Outcome State Fault Refusal
  | 0, s => .next s
  | k + 1, s =>
    match exec i s with
    | .next t => execSteps i k t
    | .fault f => .fault f
    | .refused r => .refused r

/-- `k` steps of the machine. -/
def runSteps (k : Nat) (s : State) : Host.Outcome State Fault Refusal := Sys2Proof.core.run k s

/-- Steps that are enough for the running command to complete: at most 6 * MAX_POLLS + 6 transactions of a strobe (three
`Sequence` runs, R190), two of a register or FIFO access, and what is left of the transaction in progress. -/
def completionBound (s : State) : Nat :=
  (6 * s.csr.maxPolls.toNat + 9) * (s.cfg.readyMaxSamples + 4) + 300
    + match s.seq.txn with
      | none => 0
      | some x => x.out.length

/-- The events of CsAssert, of a settle wait and of a ready sample (R67), and their number. -/
def isSelect : Event → Bool
  | .cs _ false => true
  | _ => false
def isWait : Event → Bool
  | .wait => true
  | _ => false
def isSample : Event → Bool
  | .ready _ _ => true
  | _ => false
def countEvents (f : Event → Bool) (es : List Event) : Nat := (es.filter f).length

/-- One whole transaction with RefDev (R86 to R92): the MISO bytes it answers to these MOSI bytes, and RefDev after the chip
select went high. -/
def refBytes (p : Params) : RefDev → List Byte → List Byte × RefDev
  | d, [] => ([], d)
  | d, b :: bs =>
    let r := refBytes p (refExchange p d b).2 bs
    ((refExchange p d b).1 :: r.1, r.2)
def refTxn (p : Params) (d : RefDev) (mosi : List Byte) : List Byte × RefDev :=
  ((refBytes p d mosi).1, refDeselect p (refBytes p d mosi).2)

/-! ### The words the statements use -/

/-- `t` is `s` one completion step later (R221), when every chip select was high: the CSRs are `csr` with the result stored,
the module registers `mods`, the byte of DBUF at each index that of `byte`; everything else is as in `s`. -/
structure Completed (code : Result) (csr : Csrs) (mods : Bank ModRegs) (byte : Nat → Byte) (s t : State) : Prop where
  csr : t.csr = { csr with result := code, busy := false, done := true }
  mods : t.mods = mods
  dbuf : ∀ a, dbufAt t a = byte a
  seq : t.seq = Seq.reset
  selects : t.csN = s.csN
  hist : t.hist = s.hist ++ [.done code]
  chips : t.chips = s.chips
  cfg : t.cfg = s.cfg
  agenda : t.agenda = s.agenda
  hbRdata : t.hbRdata = s.hbRdata

/-- `t` is `s` after the CsAssert that begins a transaction (R61, R65) with these header and data bytes, at place `c` of the
command's pseudocode; everything else, every byte of DBUF included, is as in `s`. -/
structure Began (hdr data : List Byte) (keep : Bool) (c : Cont) (s t : State) : Prop where
  seq : t.seq = { s.seq with cont := c, samples := 0, txn := some ⟨hdr, data, keep, [], .ready⟩ }
  selects : t.csN = bankSet s.csN (moduleOf s) false
  hist : t.hist = s.hist ++ [.cs (moduleOf s) false]
  csr : t.csr = s.csr
  mods : t.mods = s.mods
  dbuf : ∀ a, dbufAt t a = dbufAt s a
  chips : t.chips = s.chips
  cfg : t.cfg = s.cfg
  agenda : t.agenda = s.agenda
  hbRdata : t.hbRdata = s.hbRdata

/-- A command runs and stands between two transactions, at place `c` of its pseudocode. -/
structure AtPlace (c : Cont) (s : State) : Prop where
  phase : s.seq.phase = .run
  cont : s.seq.cont = c
  selects : s.csN = sameForAll true

/-- The target of a `Sequence` run of a command (R171, R190). -/
def seqTarget (i : Instr) (r : SeqRun) : Option Target :=
  match i, r with
  | .setStateIdle, .setState => some .idle
  | .setStateRx, .setState => some .rx
  | .setStateTx, .setState => some .tx
  | .setStateFstxon, .setState => some .fstxon
  | .txFrame _, .txIdle => some .idle
  | .txFrame _, .txReady => some .fstxon
  | .txFrame _, .txSend => some .tx
  | _, _ => none

/-- The byte exchanges of a transaction, as events (R65, R67): `miso` are the chip's answers, in order. -/
def xferEvents (m : ModIdx) (hdr data miso : List Byte) : List Event :=
  (List.zip ([Role.hdr, Role.addr2].take hdr.length ++ List.replicate data.length Role.data)
    (List.zip (hdr ++ data) miso)).map fun x => .xfer m x.1 x.2.1 x.2.2

/-- The events of one whole transaction (R65, R67) whose ready wait saw `k` samples of false before the true one. -/
def txnEvents (m : ModIdx) (k : Nat) (hdr data miso : List Byte) : List Event :=
  .cs m false :: (List.replicate k (.ready m false) ++ .ready m true :: (xferEvents m hdr data miso ++ [.cs m true]))

/-- The module registers after a transaction whose header exchange returned `b` (R65). -/
def modsAfter (s : State) (b : Byte) : Bank ModRegs := (setLastStatus s (moduleOf s) b).mods

/-- The header bytes of a register access, bit by bit (R106, R107); in neither address space, the free header of log entry
3. -/
def headerOfAccess (p : Params) (r b : Bool) (addr : Word16) : List Byte :=
  if addrExt addr = p.shortSpace then [hdrByte r b (addr.extractLsb' 0 6)]
  else if addrExt addr = p.extPrefix then [hdrByte r b (p.extPrefix.extractLsb' 0 6), addrOff addr]
  else if (Config.unstatedHeader addr).1 then [hdrByte r b ((Config.unstatedHeader addr).2.extractLsb' 0 6)]
  else [hdrByte r b (p.extPrefix.extractLsb' 0 6), (Config.unstatedHeader addr).2]

/-- The number of header bytes of a register access. -/
def headerLength (p : Params) (addr : Word16) : Nat := (headerOfAccess p true false addr).length

/-- R107 gives the access a header: the address lies in one of the two spaces. -/
def headerGiven (p : Params) (addr : Word16) : Prop := addrExt addr = p.shortSpace ∨ addrExt addr = p.extPrefix

/-- The chip of the command's module answers these ready samples and these MISO bytes next. -/
def answers (s : State) (readys : List Bool) (miso : List Byte) : Prop :=
  bankGet s.chips (moduleOf s) = .script readys miso

end Sys2Proof.Machine
end

