-- ==== Sys2Proof/Certificates/Slice0/Obligations.lean ====
section
/-! DEFINITION. The statements for the provers, in the order of the spec's files: encodings, steps, the host bus, reset,
completion and CHECK, transactions, the commands, and what every step keeps. -/

section

open Sys2Proof Sys2Proof.Machine

/-! ### Encodings -/

/-- Words of the opcode table, written out from R101, R104, R107 to R109, decode to their rows. -/
def Obligations.TableWordsDecode : Prop :=
  decodeTableWord 16 0x0001 = some (.regRead 0) ∧ decodeTableWord 16 0xA502 = some (.regWrite 0xA5)
  ∧ decodeTableWord 16 0x0804 = some .strobeSpwd ∧ decodeTableWord 16 0x0305 = some .setStateFstxon
  ∧ decodeTableWord 16 0x0506 = some (.txFrame 5) ∧ decodeTableWord 16 0x0007 = some (.rxFrame 0)
  ∧ decodeTableWord 8 0x4A = some (.wireShortBurstWrite 0x0A) ∧ decodeTableWord 16 0xAF8F = some (.wireExtSingleRead 0x8F)
  ∧ decodeTableWord 8 0x7F = some .wireTxFifoBurstWrite ∧ decodeTableWord 8 0x3D = some .wireStrobeSnop

/-- Decoding the encoding of a well-formed instruction gives it back, for every operand and every parameter set. -/
def Obligations.DecodeInvertsEncode : Prop :=
  ∀ (p : Params) (i : Instr), paramsOk p = true → wellFormed p i = true → decode p (encode p i) = .ok i

/-- Only the encoding of a well-formed instruction decodes to it: a code that decodes is that instruction's. -/
def Obligations.EncodeInvertsDecode : Prop :=
  ∀ (p : Params) (c : Code) (i : Instr), paramsOk p = true → decode p c = .ok i → encode p i = c ∧ wellFormed p i = true

/-- R107: the header bytes of a register access at an address the address check accepts, and of the byte counts' single reads
(R70), bit by bit; they decode to a row again, by default parameters to the row of the access. A byte count in neither address
space has the free header of log entry 3. -/
def Obligations.RegisterHeaderBytes : Prop :=
  ∀ (p : Params) (r b : Bool) (addr : Word16), paramsOk p = true →
    addrCheck p addr = .ok ∨ (r = true ∧ b = false ∧ (addr = p.addrNumTxBytes ∨ addr = p.addrNumRxBytes)) →
    encode p (regHeader p r b addr) = .wire (headerOfAccess p r b addr)
    ∧ (addrExt addr = p.shortSpace → headerOfAccess p r b addr = [hdrByte r b (addr.extractLsb' 0 6)])
    ∧ (addrExt addr ≠ p.shortSpace → addrExt addr = p.extPrefix →
        headerOfAccess p r b addr = [hdrByte r b (p.extPrefix.extractLsb' 0 6), addr.extractLsb' 0 8])
    ∧ (∃ i, decode p (.wire (headerOfAccess p r b addr)) = .ok i)
    ∧ (p = {} → decode p (.wire (headerOfAccess p r b addr)) = .ok (regHeader p r b addr))

/-- R111: the header bytes, the data phase and whether MISO is kept, for every header row, by default parameters. -/
def Obligations.HeaderRowBytes : Prop :=
  ∀ (s : State) (a : BitVec 6) (off : Byte), s.cfg = {} →
    (encode {} (.wireShortSingleWrite a) = .wire [(0#2 ++ a : BitVec 8)] ∧ wireData (.wireShortSingleWrite a) s = [dbufAt s 0])
    ∧ (encode {} (.wireShortBurstWrite a) = .wire [(1#2 ++ a : BitVec 8)]
        ∧ wireData (.wireShortBurstWrite a) s = dbufTake s s.csr.len.toNat)
    ∧ (encode {} (.wireShortSingleRead a) = .wire [(2#2 ++ a : BitVec 8)] ∧ wireData (.wireShortSingleRead a) s = [0])
    ∧ (encode {} (.wireShortBurstRead a) = .wire [(3#2 ++ a : BitVec 8)]
        ∧ wireData (.wireShortBurstRead a) s = List.replicate s.csr.len.toNat 0)
    ∧ (encode {} (.wireExtSingleWrite off) = .wire [0x2F, off] ∧ wireData (.wireExtSingleWrite off) s = [dbufAt s 0])
    ∧ (encode {} (.wireExtBurstWrite off) = .wire [0x6F, off]
        ∧ wireData (.wireExtBurstWrite off) s = dbufTake s s.csr.len.toNat)
    ∧ (encode {} (.wireExtSingleRead off) = .wire [0xAF, off] ∧ wireData (.wireExtSingleRead off) s = [0])
    ∧ (encode {} (.wireExtBurstRead off) = .wire [0xEF, off]
        ∧ wireData (.wireExtBurstRead off) s = List.replicate s.csr.len.toNat 0)
    ∧ (encode {} .wireTxFifoBurstWrite = .wire [0x7F]
        ∧ wireData .wireTxFifoBurstWrite s = (s.csr.len + 1) :: s.csr.arg :: dbufTake s s.csr.len.toNat)
    ∧ (encode {} .wireRxFifoBurstRead = .wire [0xFF]
        ∧ wireData .wireRxFifoBurstRead s = List.replicate s.csr.rxCount.toNat 0)
    ∧ (∀ k : Strobe, encode {} (wireStrobe k) = .wire [Params.strobeCode {} k] ∧ wireData (wireStrobe k) s = [])
    ∧ (∀ i : Instr, isWire i = true →
        (wireKeep i = true ↔ ∃ h rest, encode {} i = .wire (h :: rest) ∧ hdrR h = true))

/-- R47: the chip-state field of a status byte is its bits STATE_HI to STATE_LO, and a status byte shows the chip states whose
code is that field (R46); by default exactly one, the codes being 0 to 7 in listing order and the field bits 7 to 5. -/
def Obligations.ChipStateOfStatus : Prop :=
  (∀ (p : Params) (b : Byte), paramsOk p = true →
    (stateField p b).toNat = (b.toNat / 2 ^ p.stateLo) % 2 ^ (p.stateHi - p.stateLo + 1)
    ∧ ∀ c, (stateIs p b c = true ↔ (b.toNat / 2 ^ p.stateLo) % 2 ^ (p.stateHi - p.stateLo + 1) = (p.stateCode c).toNat))
  ∧ (∀ (b : Byte) (c : ChipState), stateIs {} b c = true ↔ allChipStates[b.toNat / 32]? = some c)

/-! ### Steps -/

/-- A step of the RSC runs the instruction that is fetched: in CHECK, and in RUN between transactions, the row of the word in
ARG and CMD; inside a transaction the row of its header bytes. Around it the step takes its own turn off the agenda and
nothing else. With no command running a step of the RSC changes nothing else. A parameter set may be used exactly when it
meets the constraints of R12; every step with another is refused (I15), whoever acts. -/
def Obligations.StepRunsTheFetchedInstruction : Prop :=
  (∀ (s : State) (i : Instr), paramsOk s.cfg = true → rscTurn s = true →
    (s.seq.phase = .check → decode s.cfg (.cmd (s.csr.arg ++ s.csr.cmd)) = .ok i →
      step s = exec i { s with agenda := s.agenda.tail })
    ∧ (s.seq.phase = .run → s.seq.txn = none → decode s.cfg (.cmd (s.csr.arg ++ s.csr.cmd)) = .ok i →
      step s = exec i { s with agenda := s.agenda.tail })
    ∧ (∀ t, s.seq.phase = .run → s.seq.txn = some t → decode s.cfg (.wire t.hdr) = .ok i →
      step s = exec i { s with agenda := s.agenda.tail })
    ∧ (s.seq.phase = .idle → step s = .next { s with agenda := s.agenda.tail }))
  ∧ (∀ p : Params, paramsOk p = true ↔ R12Holds p)
  ∧ (∀ s : State, ¬ R12Holds s.cfg → step s = .refused .badParameters)

/-- The word placed where a step fetches is the instruction the step runs (log entry 8), for every code that decodes. -/
def Obligations.StepRunsThePlacedCode : Prop :=
  ∀ (s : State) (c : Code) (i : Instr), paramsOk s.cfg = true → decode s.cfg c = .ok i →
    step (placeCode c s) = exec i (placeCode c s)

/-! ### The host bus -/

/-- R27: a host read returns the addressed value and changes no state of the RSC. R114, as the poll turn of log entry 6 has
it: the host reads STATUS, and its poll ends exactly when DONE = 1; else the RSC takes a step and the host polls again. -/
def Obligations.HostReadFrame : Prop :=
  ∀ (s : State) (rest : List Turn), paramsOk s.cfg = true →
    (∀ a, s.agenda = .host (.read a) :: rest →
      step s = .next { s with agenda := rest, hbRdata := csrValue s (csrAt s.cfg a) })
    ∧ (s.agenda = .poll :: rest → s.csr.done = true →
      step s = .next { s with agenda := rest, hbRdata := csrValue s (csrAt s.cfg 0x08) })
    ∧ (s.agenda = .poll :: rest → s.csr.done = false →
      step s = .next { s with agenda := .rsc :: .poll :: rest, hbRdata := csrValue s (csrAt s.cfg 0x08) })

/-- R28: a host write while BUSY = 1, whatever its address, is ignored and sets OVR; a host read is allowed then and returns
the current value. -/
def Obligations.HostAccessWhileBusy : Prop :=
  ∀ (s : State) (a v : Byte) (rest : List Turn), paramsOk s.cfg = true → s.csr.busy = true →
    (s.agenda = .host (.write a v) :: rest →
      step s = .next { s with agenda := rest, csr := { s.csr with ovr := true } })
    ∧ (s.agenda = .host (.read a) :: rest →
      step s = .next { s with agenda := rest, hbRdata := csrValue s (csrAt s.cfg a) })

/-- R29, R67: a host write of CMD while BUSY = 0 starts a command, whatever value is written. -/
def Obligations.CmdWriteStartsCommand : Prop :=
  ∀ (s : State) (v : Byte) (rest : List Turn), paramsOk s.cfg = true → s.agenda = .host (.write 0x00 v) :: rest →
    s.csr.busy = false →
    step s = .next { s with
      agenda := rest
      csr := { s.csr with cmd := v, busy := true, done := false, result := .pending }
      seq := { s.seq with phase := .check }
      hist := s.hist ++ [.cmd (s.csr.arg ++ v)] }

/-- R30 to R36: a step of the host that writes an operand CSR while BUSY = 0: the CSR then reads what was written, MOD its two
bits; no other address outside the per-module views reads another value, and but for CMD only CSRs change. -/
def Obligations.OperandWriteReadsBack : Prop :=
  ∀ (s : State) (a v : Byte) (rest : List Turn), paramsOk s.cfg = true → s.csr.busy = false →
    s.agenda = .host (.write a v) :: rest → a ∈ ([0x00, 0x01, 0x02, 0x03, 0x04, 0x05, 0x06] : List Byte) →
    ∃ t, step s = .next t
      ∧ (a ≠ 0x01 → csrValue t (csrAt s.cfg a) = v)
      ∧ (a = 0x01 → csrValue t (csrAt s.cfg a) = v &&& 0x03)
      ∧ (a ≠ 0x00 → t = { s with agenda := rest, csr := t.csr }
          ∧ ∀ b : Byte, b ≠ a → (b < 0x0A ∨ 0x0D < b) → csrValue t (csrAt s.cfg b) = csrValue s (csrAt s.cfg b))

/-- R37, R41: a step of the host that writes while BUSY = 0: 1 in bit 2 of STATUS clears OVR and nothing else; any write of
ERRCNT clears the count of module MOD.MODULE and nothing else, and nothing at all when MOD names no module (log entry 19). -/
def Obligations.StatusAndErrcntWrites : Prop :=
  ∀ (s : State) (v : Byte) (rest : List Turn), paramsOk s.cfg = true → s.csr.busy = false →
    (s.agenda = .host (.write 0x08 v) :: rest →
      step s = .next { s with
        agenda := rest
        csr := { s.csr with ovr := if v &&& 0x04 = 0 then s.csr.ovr else false } })
    ∧ (s.agenda = .host (.write 0x0C v) :: rest → s.csr.mod.toNat < s.cfg.nModules → ∃ t, step s = .next t
        ∧ csrValue t (csrAt s.cfg 0x0C) = 0
        ∧ t = { s with agenda := rest, mods := t.mods }
        ∧ (∀ m, m ≠ moduleOf s → modRegs t m = modRegs s m)
        ∧ modRegs t (moduleOf s) = { modRegs s (moduleOf s) with errcnt := 0 })
    ∧ (s.agenda = .host (.write 0x0C v) :: rest → s.cfg.nModules ≤ s.csr.mod.toNat →
        step s = .next { s with agenda := rest })

/-- R25, R26: a reserved address reads 0 in every state, running a command or not; a step of the host that writes to a
reserved or read-only address while BUSY = 0 changes nothing. -/
def Obligations.ReservedAndReadOnlyAddresses : Prop :=
  ∀ (s : State) (a : Byte), paramsOk s.cfg = true →
    ((a = 0x07 ∨ a = 0x0F ∨ (0x17 ≤ a ∧ a < 0x80) ∨ 0x80 + s.cfg.dbufCap ≤ a.toNat) →
      csrValue s (csrAt s.cfg a) = 0
      ∧ ∀ v rest, s.csr.busy = false → s.agenda = .host (.write a v) :: rest → step s = .next { s with agenda := rest })
    ∧ ((a = 0x09 ∨ a = 0x0A ∨ a = 0x0B ∨ a = 0x0D ∨ a = 0x0E ∨ (0x10 ≤ a ∧ a ≤ 0x16)) →
      ∀ v rest, s.csr.busy = false → s.agenda = .host (.write a v) :: rest → step s = .next { s with agenda := rest })

/-- R30 to R45, R50, R206, R222: what every address that is not reserved reads, in every state: the operand CSRs and DBUF what
they hold, MOD its two bits, STATUS and the flag registers bit by bit, RESULT the byte of its code, the count and RX registers
what they hold, and the per-module ones that of MOD's module, or 0 when MOD names none (R31). -/
def Obligations.StatusAndFlagViews : Prop :=
  ∀ s : State, paramsOk s.cfg = true →
    csrValue s (csrAt s.cfg 0x00) = s.csr.cmd
    ∧ (csrValue s (csrAt s.cfg 0x01)).toNat = s.csr.mod.toNat
    ∧ csrValue s (csrAt s.cfg 0x02) = s.csr.addrHi ∧ csrValue s (csrAt s.cfg 0x03) = s.csr.addrLo
    ∧ csrValue s (csrAt s.cfg 0x04) = s.csr.len ∧ csrValue s (csrAt s.cfg 0x05) = s.csr.arg
    ∧ csrValue s (csrAt s.cfg 0x06) = s.csr.maxPolls
    ∧ (∀ i, i < s.cfg.dbufCap → csrValue s (csrAt s.cfg (BitVec.ofNat 8 (0x80 + i))) = dbufAt s i)
    ∧ (csrValue s (csrAt s.cfg 0x08)).toNat = s.csr.busy.toNat + 2 * s.csr.done.toNat + 4 * s.csr.ovr.toNat
    ∧ (s.csr.result, csrValue s (csrAt s.cfg 0x09)) ∈
        ([(.ok, 0x00), (.notReady, 0x01), (.badAddr, 0x02), (.badLen, 0x03), (.badArg, 0x04), (.badOpcode, 0x05),
          (.timeout, 0x06), (.asleep, 0x07), (.verifyMismatch, 0x08), (.rxEmpty, 0x09), (.rxFifoErr, 0x0A),
          (.rxOversize, 0x0B), (.rxMalformed, 0x0C), (.pending, 0xFF)] : List (Result × Byte))
    ∧ csrValue s (csrAt s.cfg 0x0E) = s.csr.lastPolls
    ∧ csrValue s (csrAt s.cfg 0x10) = s.csr.rxCount ∧ csrValue s (csrAt s.cfg 0x11) = s.csr.rxLen
    ∧ csrValue s (csrAt s.cfg 0x12) = s.csr.rxAddr ∧ csrValue s (csrAt s.cfg 0x13) = s.csr.rxRssi
    ∧ csrValue s (csrAt s.cfg 0x14) = s.csr.rxStatus2
    ∧ (csrValue s (csrAt s.cfg 0x16)).toNat
        = s.csr.pktValid.toNat + 2 * (s.csr.pktValid && s.csr.rxStatus2.getLsbD 7).toNat + 4 * s.csr.trailing.toNat
    ∧ (csrValue s (csrAt s.cfg 0x15)).toNat = s.csr.rxStatus2.toNat % 128
    ∧ (s.csr.mod.toNat < s.cfg.nModules →
        csrValue s (csrAt s.cfg 0x0A) = (modRegs s (moduleOf s)).lastStatus
        ∧ (csrValue s (csrAt s.cfg 0x0B)).toNat = ((modRegs s (moduleOf s)).lastStatus.toNat / 2 ^ s.cfg.stateLo) % 8
        ∧ csrValue s (csrAt s.cfg 0x0C) = (modRegs s (moduleOf s)).errcnt
        ∧ (csrValue s (csrAt s.cfg 0x0D)).toNat = (modRegs s (moduleOf s)).asleep.toNat)
    ∧ (s.cfg.nModules ≤ s.csr.mod.toNat → ∀ a : Byte, 0x0A ≤ a → a ≤ 0x0D → csrValue s (csrAt s.cfg a) = 0)

/-- R50, R53: a step of the host that writes a DBUF byte while BUSY = 0: it then reads what was written, the other bytes of
DBUF are untouched, and so is the rest of the state. -/
def Obligations.DbufReadAfterWrite : Prop :=
  ∀ (s : State) (i : Nat) (v : Byte) (rest : List Turn), Inv s → s.csr.busy = false → i < s.cfg.dbufCap →
    s.agenda = .host (.write (BitVec.ofNat 8 (0x80 + i)) v) :: rest →
    ∃ t, step s = .next t
      ∧ csrValue t (csrAt s.cfg (BitVec.ofNat 8 (0x80 + i))) = v
      ∧ (∀ a, dbufAt t a = if a = i then v else dbufAt s a)
      ∧ t = { s with agenda := rest, dbuf := t.dbuf }

/-! ### Reset -/

/-- After R250 to R252: the block reset, at any step, with or without a host access that meets it (R232): every chip select
that is low goes high and is recorded, every register takes its reset value, RESET is recorded, and no DONE. A chip whose
select was low sees its transaction end there, as RefDev then does in log entry 13; the effects already made on it stand
(R251). The fields that are no RSC state stay (log entries 2, 6, 10). -/
def Obligations.BlockResetLeaves : Prop :=
  ∀ (s : State) (lost : Option HostOp) (rest : List Turn), Inv s → s.agenda = .reset lost :: rest →
    ∃ t es, step s = .next t
      ∧ t.csr = Csrs.reset s.cfg ∧ t.mods = sameForAll ModRegs.reset ∧ (∀ a, dbufAt t a = 0)
      ∧ t.csN = sameForAll true ∧ t.seq = Seq.reset
      ∧ t.hist = s.hist ++ es ++ [.reset]
      ∧ es = (if bankGet s.csN (moduleOf s) = false then [Event.cs (moduleOf s) true] else [])
      ∧ (∀ m, bankGet s.csN m = true → bankGet t.chips m = bankGet s.chips m)
      ∧ (∀ m, bankGet s.csN m = false → bankGet t.chips m = chipDeselect s.cfg (bankGet s.chips m))
      ∧ (∀ m, (∀ d, bankGet s.chips m ≠ .refDev d) → bankGet t.chips m = bankGet s.chips m)
      ∧ (∀ m d, bankGet s.chips m = .refDev d → refTxnStrobe s.cfg d.cur = none → ∃ e, bankGet t.chips m = .refDev e
          ∧ e.regs = d.regs ∧ e.rxfifo = d.rxfifo ∧ e.txfifo = d.txfifo ∧ e.sent = d.sent)
      ∧ t.cfg = s.cfg ∧ t.agenda = rest ∧ t.hbRdata = s.hbRdata

/-- R53: what the host reads at each address after reset; the chip selects, the sequencer; and the history, which holds the
power-on reset alone (log entry 1). -/
def Obligations.ResetStateReads : Prop :=
  (∀ a : Byte, csrValue State.reset (csrAt State.reset.cfg a) = if a = 0x06 then 255 else 0)
  ∧ (∀ m, bankGet State.reset.csN m = true) ∧ State.reset.seq.phase = .idle
  ∧ State.reset.seq.iter = 0 ∧ State.reset.seq.samples = 0 ∧ State.reset.hist = [.reset]

/-- The invariant holds after the power-on reset, whatever the parameters, the chips and the turns to come. -/
def Obligations.InvAtReset : Prop :=
  Inv State.reset
  ∧ ∀ (p : Params) (chips : Bank Chip) (agenda : List Turn), paramsOk p = true →
      Inv { State.powerOn p chips with agenda := agenda }

/-! ### Completion and CHECK -/

/-- R221: completion of any command with any result: the one chip select that may be low goes high and is recorded, RESULT,
BUSY and DONE are written, the sequencer is idle, DONE is recorded, and nothing else changes; the chip whose select was low
sees its transaction end (log entry 13). -/
def Obligations.CompletionEffect : Prop :=
  ∀ (s : State) (code : Result), Inv s →
    ∃ t, complete code s = t
      ∧ t.csr = { s.csr with result := code, busy := false, done := true }
      ∧ t.csN = sameForAll true
      ∧ t.seq.phase = .idle ∧ t.seq.iter = 0 ∧ t.seq.samples = 0 ∧ t.seq.txn = none
      ∧ t.hist = s.hist ++ (if bankGet s.csN (moduleOf s) = false then [Event.cs (moduleOf s) true] else []) ++ [.done code]
      ∧ t.mods = s.mods ∧ (∀ a, dbufAt t a = dbufAt s a)
      ∧ (∀ m, bankGet s.csN m = true → bankGet t.chips m = bankGet s.chips m)
      ∧ (∀ m, bankGet s.csN m = false → bankGet t.chips m = chipDeselect s.cfg (bankGet s.chips m))
      ∧ t.cfg = s.cfg ∧ t.agenda = s.agenda ∧ t.hbRdata = s.hbRdata

/-- R130: the address check, in the order of its rule, with exact bounds. -/
def Obligations.AddressCheckCases : Prop :=
  ∀ (p : Params) (addr : Word16) (ext off : Nat), paramsOk p = true → addr.toNat = 256 * ext + off → off < 256 →
    (addrCheck p addr = .notReady ↔ ext = p.shortSpace.toNat ∧ p.fifoRsvLo.toNat ≤ off ∧ off ≤ p.fifoRsvHi.toNat)
    ∧ (addrCheck p addr = .badAddr ↔
        (ext = p.shortSpace.toNat ∧ ¬ (p.fifoRsvLo.toNat ≤ off ∧ off ≤ p.fifoRsvHi.toNat)
          ∧ (64 ≤ off ∨ off = p.extPrefix.toNat))
        ∨ (ext ≠ p.shortSpace.toNat ∧ ext ≠ p.extPrefix.toNat))
    ∧ (addrCheck p addr = .ok ∨ addrCheck p addr = .notReady ∨ addrCheck p addr = .badAddr)

/-- R131, R225, R226: the CHECK step of the three register commands: module, address, length, in this order; a failed check
completes the command with no SPI event and writes RESULT and STATUS only, a passed one moves to RUN. -/
def Obligations.RegisterCommandCheck : Prop :=
  ∀ (i : Instr) (arg : Byte) (s : State), i = .regRead arg ∨ i = .regWrite arg ∨ i = .regWriteVerify arg →
    s.seq.phase = .check → s.csN = sameForAll true →
    (s.cfg.nModules ≤ s.csr.mod.toNat → ∃ t, exec i s = .next t ∧ Completed .badArg s.csr s.mods (dbufAt s) s t)
    ∧ (s.csr.mod.toNat < s.cfg.nModules → addrCheck s.cfg (s.csr.addrHi ++ s.csr.addrLo) ≠ .ok →
        ∃ t, exec i s = .next t
          ∧ Completed (addrCheck s.cfg (s.csr.addrHi ++ s.csr.addrLo)) s.csr s.mods (dbufAt s) s t)
    ∧ (s.csr.mod.toNat < s.cfg.nModules → addrCheck s.cfg (s.csr.addrHi ++ s.csr.addrLo) = .ok →
        s.csr.len = 0 ∨ s.cfg.dbufCap < s.csr.len.toNat →
        ∃ t, exec i s = .next t ∧ Completed .badLen s.csr s.mods (dbufAt s) s t)
    ∧ (s.csr.mod.toNat < s.cfg.nModules → addrCheck s.cfg (s.csr.addrHi ++ s.csr.addrLo) = .ok →
        1 ≤ s.csr.len.toNat → s.csr.len.toNat ≤ s.cfg.dbufCap →
        exec i s = .next { s with seq := { s.seq with phase := .run } })

/-- R191, R225, R226: the CHECK step of STROBE, SET_STATE and RX_FRAME (the module only) and of TX_FRAME (module, length,
asleep flag, in this order). -/
def Obligations.OtherCommandCheck : Prop :=
  ∀ (i : Instr) (s : State), isCommand i = true → s.seq.phase = .check → s.csN = sameForAll true →
    (s.cfg.nModules ≤ s.csr.mod.toNat → ∃ t, exec i s = .next t ∧ Completed .badArg s.csr s.mods (dbufAt s) s t)
    ∧ (s.csr.mod.toNat < s.cfg.nModules →
        ((∃ k, i = strobeInstr k) ∨ (∃ g, i = setStateInstr g) ∨ (∃ a, i = .rxFrame a)) →
        exec i s = .next { s with seq := { s.seq with phase := .run } })
    ∧ ∀ a, i = .txFrame a → s.csr.mod.toNat < s.cfg.nModules →
        (s.cfg.maxPayload < s.csr.len.toNat →
          ∃ t, exec i s = .next t ∧ Completed .badLen s.csr s.mods (dbufAt s) s t)
        ∧ (s.csr.len.toNat ≤ s.cfg.maxPayload → (modRegs s (moduleOf s)).asleep = true →
          ∃ t, exec i s = .next t ∧ Completed .asleep s.csr s.mods (dbufAt s) s t)
        ∧ (s.csr.len.toNat ≤ s.cfg.maxPayload → (modRegs s (moduleOf s)).asleep = false →
          exec i s = .next { s with seq := { s.seq with phase := .run } })

/-- R103, R104, R225: a word that is no row completes in its CHECK step: BAD_OPCODE when bits 7:4 are not 0 or the opcode is 0
or above 7; BAD_ARG for a strobe index above 9 or a target above 3. -/
def Obligations.IllegalWordCompletes : Prop :=
  ∀ (s : State) (w : Nat), Inv s → s.agenda = [] → s.seq.phase = .check → (s.csr.arg ++ s.csr.cmd).toNat = w →
    (w / 16 % 16 ≠ 0 ∨ w % 16 = 0 ∨ 8 ≤ w % 16 →
      ∃ t, step s = .next t ∧ Completed .badOpcode s.csr s.mods (dbufAt s) s t)
    ∧ ((w % 256 = 4 ∧ 9 < w / 256) ∨ (w % 256 = 5 ∧ 3 < w / 256) →
      ∃ t, step s = .next t ∧ Completed .badArg s.csr s.mods (dbufAt s) s t)

/-! ### Transactions -/

/-- R61, R65: every header row begins its transaction: from all chip selects high, CsAssert of the module of MOD, with the
row's header bytes and data phase. -/
def Obligations.HeaderRowSelects : Prop :=
  ∀ (i : Instr) (s : State), isWire i = true → s.csN = sameForAll true → s.seq.txn = none →
    ∃ t, exec i s = .next t ∧ Began (codeBytes (encode s.cfg i)) (wireData i s) (wireKeep i) s.seq.cont s t

/-- R63: a ready sample of a header row's transaction, whatever the chip: fewer than READY_MAX_SAMPLES taken, one more is
taken, the chip's answer to it is recorded and decides; when all are taken the command ends with TIMEOUT, the chip select goes
high, and no byte is sent. -/
def Obligations.ReadyWaitSamples : Prop :=
  ∀ (i : Instr) (s : State) (x : Txn) (r : Bool) (c : Chip), isWire i = true → Inv s →
    s.seq.txn = some x → x.pos = .ready → chipSample s.hist (moduleOf s) (bankGet s.chips (moduleOf s)) = (r, c) →
    (s.seq.samples < s.cfg.readyMaxSamples →
      exec i s = .next { s with
        seq := { s.seq with samples := s.seq.samples + 1, txn := some { x with pos := if r then .hdr else .ready } }
        chips := bankSet s.chips (moduleOf s) c
        hist := s.hist ++ [.ready (moduleOf s) r] })
    ∧ (s.seq.samples = s.cfg.readyMaxSamples →
      ∃ e, exec i s = .next { s with
        csr := { s.csr with result := .timeout, busy := false, done := true }
        seq := Seq.reset
        csN := sameForAll true
        chips := bankSet s.chips (moduleOf s) e
        hist := s.hist ++ [.cs (moduleOf s) true, .done .timeout] }
      ∧ ((∀ d, bankGet s.chips (moduleOf s) ≠ .refDev d) → e = bankGet s.chips (moduleOf s)))

/-- R64, R65: the byte exchanges of every header row, whatever the chip: the header byte, whose answer is the module's status
byte; the second address byte, whose answer is ignored; a data byte, whose answer is kept exactly when the row reads; each
recorded with the byte sent and the chip's answer to it; then CsDeassert. -/
def Obligations.HeaderRowExchanges : Prop :=
  ∀ (i : Instr) (s : State) (x : Txn) (out b : Byte) (c : Chip), isWire i = true →
    bankGet s.csN (moduleOf s) = false → s.seq.txn = some x →
    chipExchange s.cfg s.hist (moduleOf s) out (bankGet s.chips (moduleOf s)) = (b, c) →
    (∀ rest, codeBytes (encode s.cfg i) = out :: rest → x.pos = .hdr →
      exec i s = .next { s with
        seq := { s.seq with txn := some { x with pos := if rest = [] then .data else .addr2 } }
        mods := modsAfter s b
        chips := bankSet s.chips (moduleOf s) c
        hist := s.hist ++ [.xfer (moduleOf s) .hdr out b] })
    ∧ (∀ h, codeBytes (encode s.cfg i) = [h, out] → x.pos = .addr2 →
      exec i s = .next { s with
        seq := { s.seq with txn := some { x with pos := .data } }
        chips := bankSet s.chips (moduleOf s) c
        hist := s.hist ++ [.xfer (moduleOf s) .addr2 out b] })
    ∧ (∀ os, x.pos = .data → x.out = out :: os →
      exec i s = .next { s with
        seq := { s.seq with txn := some { x with out := os, got := if x.keep then x.got ++ [b] else x.got } }
        chips := bankSet s.chips (moduleOf s) c
        hist := s.hist ++ [.xfer (moduleOf s) .data out b] })
    ∧ (x.pos = .data → x.out = [] →
      exec i s = .next { s with
        seq := { s.seq with txn := none, ret := x.got }
        csN := bankSet s.csN (moduleOf s) true
        chips := bankSet s.chips (moduleOf s) (chipDeselect s.cfg (bankGet s.chips (moduleOf s)))
        hist := s.hist ++ [.cs (moduleOf s) true] })

/-- After R65: every header row, as one whole transaction from CsAssert to CsDeassert, primitive by primitive: for a chip with
given answers (log entry 5), `k` ready samples false and then true and the exchanges `miso`, the events, the status byte, the
bytes returned; every byte of DBUF and every CSR as before. That exec of a header row with none in progress begins its
transaction is the model's choice, log entry 7. -/
def Obligations.WholeTransaction : Prop :=
  ∀ (i : Instr) (s : State) (k : Nat) (hdr miso : List Byte), isWire i = true → s.csN = sameForAll true → s.seq.txn = none →
    codeBytes (encode s.cfg i) = hdr → miso.length = hdr.length + (wireData i s).length →
    k + 1 ≤ s.cfg.readyMaxSamples → answers s (List.replicate k false ++ [true]) miso →
    execSteps i (1 + (k + 1) + hdr.length + (wireData i s).length + 1) s = .next { s with
      seq := { s.seq with samples := k + 1, txn := none, ret := if wireKeep i then miso.drop hdr.length else [] }
      mods := modsAfter s (miso.headD 0)
      chips := bankSet s.chips (moduleOf s) (.script [] [])
      hist := s.hist ++ txnEvents (moduleOf s) k hdr (wireData i s) miso }

/-! ### Register access -/

/-- R70, R71, R107, R134: the transactions the register commands begin: the header of the address with the read bit and,
exactly when LEN > 1, the burst bit; LEN zeros sent and kept for a read, dbuf[0..LEN-1] for a write. -/
def Obligations.RegisterCommandsBegin : Prop :=
  ∀ (s : State) (arg : Byte) (addr : Word16) (n : Nat), paramsOk s.cfg = true → s.seq.phase = .run → s.csN = sameForAll true →
    s.csr.addrHi ++ s.csr.addrLo = addr → addrCheck s.cfg addr = .ok → s.csr.len.toNat = n → 1 ≤ n →
    (s.seq.cont = .start → ∃ t, exec (.regRead arg) s = .next t
      ∧ Began (headerOfAccess s.cfg true (decide (1 < n)) addr) (List.replicate n 0) true .readBack s t)
    ∧ (s.seq.cont = .start → ∃ t, exec (.regWrite arg) s = .next t
      ∧ Began (headerOfAccess s.cfg false (decide (1 < n)) addr) (dbufTake s n) false .written s t)
    ∧ (s.seq.cont = .start → ∃ t, exec (.regWriteVerify arg) s = .next t
      ∧ Began (headerOfAccess s.cfg false (decide (1 < n)) addr) (dbufTake s n) false .verifyWritten s t)
    ∧ (s.seq.cont = .verifyWritten → ∃ t, exec (.regWriteVerify arg) s = .next t
      ∧ Began (headerOfAccess s.cfg true (decide (1 < n)) addr) (List.replicate n 0) true .verifyRead s t)

/-- R132: REG_READ ends with OK and the bytes read in dbuf[0..n-1]; the other bytes of DBUF and everything else are as
before. -/
def Obligations.RegReadCompletes : Prop :=
  ∀ (s : State) (arg : Byte), Memory.wf s.dbuf = true → AtPlace .readBack s → s.seq.ret.length ≤ s.cfg.dbufCap →
    ∃ t, exec (.regRead arg) s = .next t
      ∧ Completed .ok s.csr s.mods (fun a => if a < s.seq.ret.length then s.seq.ret.getD a 0 else dbufAt s a) s t

/-- R133: REG_WRITE ends with OK and changes no byte of DBUF. -/
def Obligations.RegWriteCompletes : Prop :=
  ∀ (s : State) (arg : Byte), AtPlace .written s →
    ∃ t, exec (.regWrite arg) s = .next t ∧ Completed .ok s.csr s.mods (dbufAt s) s t

/-- R134, R135: REG_WRITE_VERIFY ends with OK when every byte read back equals DBUF's, else with VERIFY_MISMATCH and exactly
one more on the module's error count, which stays at 255; DBUF keeps every byte and no other module's registers change. -/
def Obligations.RegWriteVerifyCompletes : Prop :=
  ∀ (s : State) (arg : Byte), AtPlace .verifyRead s → s.seq.ret.length = s.csr.len.toNat →
    ((∀ j, j < s.csr.len.toNat → s.seq.ret.getD j 0 = dbufAt s j) →
      ∃ t, exec (.regWriteVerify arg) s = .next t ∧ Completed .ok s.csr s.mods (dbufAt s) s t)
    ∧ ((∃ j, j < s.csr.len.toNat ∧ s.seq.ret.getD j 0 ≠ dbufAt s j) →
      ∃ t, exec (.regWriteVerify arg) s = .next t
        ∧ Completed .verifyMismatch s.csr t.mods (dbufAt s) s t
        ∧ (modRegs t (moduleOf s)).errcnt.toNat = min 255 ((modRegs s (moduleOf s)).errcnt.toNat + 1)
        ∧ (modRegs t (moduleOf s)).lastStatus = (modRegs s (moduleOf s)).lastStatus
        ∧ (modRegs t (moduleOf s)).asleep = (modRegs s (moduleOf s)).asleep
        ∧ ∀ m, m ≠ moduleOf s → modRegs t m = modRegs s m)

/-- R135: no step but a host write of ERRCNT and a block reset lowers a module's error count, and no step raises it by more
than one or past 255. -/
def Obligations.ErrcntNeverWraps : Prop :=
  ∀ (s t : State) (m : ModIdx), step s = .next t →
    (modRegs t m).errcnt = (modRegs s m).errcnt
    ∨ (modRegs t m).errcnt.toNat = min 255 ((modRegs s m).errcnt.toNat + 1)
    ∨ ((modRegs t m).errcnt = 0
        ∧ ((∃ lost rest, s.agenda = .reset lost :: rest) ∨ (∃ v rest, s.agenda = .host (.write 0x0C v) :: rest)))

/-- After R132: REG_READ run by the machine from the step after the host's issue of its word to DONE: for a chip whose answers
are given (log entry 5), its bytes `miso` (status byte, for the extended space one more, then the data), one transaction with
the right header and `n` zeros; the data in dbuf[0..n-1], every other byte of DBUF as before; RESULT OK. -/
def Obligations.WholeRegRead : Prop :=
  ∀ (s : State) (arg : Byte) (addr : Word16) (n k : Nat) (miso : List Byte), Inv s → s.csr.busy = false → s.agenda = [] →
    s.csr.mod.toNat < s.cfg.nModules → s.csr.addrHi ++ s.csr.addrLo = addr → addrCheck s.cfg addr = .ok →
    s.csr.len.toNat = n → 1 ≤ n → n ≤ s.cfg.dbufCap → k + 1 ≤ s.cfg.readyMaxSamples →
    miso.length = headerLength s.cfg addr + n → answers s (List.replicate k false ++ [true]) miso →
    ∃ t, runSteps (k + headerLength s.cfg addr + n + 5) (issue (cmdWord 1 arg) s) = .next t
      ∧ t.csr = { s.csr with arg := arg, cmd := 1, result := .ok, busy := false, done := true }
      ∧ t.mods = modsAfter s (miso.headD 0)
      ∧ (∀ a, dbufAt t a = if a < n then miso.getD (headerLength s.cfg addr + a) 0 else dbufAt s a)
      ∧ t.seq = Seq.reset ∧ t.csN = sameForAll true
      ∧ t.hist = s.hist ++ [.cmd (cmdWord 1 arg)]
          ++ txnEvents (moduleOf s) k (headerOfAccess s.cfg true (decide (1 < n)) addr) (List.replicate n 0) miso ++ [.done .ok]

/-- After R133: REG_WRITE run by the machine from the step after the host's issue of its word to DONE: for a chip with given
answers (log entry 5), one transaction with the right header that sends dbuf[0..n-1]; DBUF as before; RESULT OK. -/
def Obligations.WholeRegWrite : Prop :=
  ∀ (s : State) (arg : Byte) (addr : Word16) (n k : Nat) (miso : List Byte), Inv s → s.csr.busy = false → s.agenda = [] →
    s.csr.mod.toNat < s.cfg.nModules → s.csr.addrHi ++ s.csr.addrLo = addr → addrCheck s.cfg addr = .ok →
    s.csr.len.toNat = n → 1 ≤ n → n ≤ s.cfg.dbufCap → k + 1 ≤ s.cfg.readyMaxSamples →
    miso.length = headerLength s.cfg addr + n → answers s (List.replicate k false ++ [true]) miso →
    ∃ t, runSteps (k + headerLength s.cfg addr + n + 5) (issue (cmdWord 2 arg) s) = .next t
      ∧ t.csr = { s.csr with arg := arg, cmd := 2, result := .ok, busy := false, done := true }
      ∧ t.mods = modsAfter s (miso.headD 0)
      ∧ (∀ a, dbufAt t a = dbufAt s a)
      ∧ t.seq = Seq.reset ∧ t.csN = sameForAll true
      ∧ t.hist = s.hist ++ [.cmd (cmdWord 2 arg)]
          ++ txnEvents (moduleOf s) k (headerOfAccess s.cfg false (decide (1 < n)) addr) (dbufTake s n) miso ++ [.done .ok]

/-! ### Strobes -/

/-- R151 to R161: each of the ten STROBE rows begins its strobe's transaction, and ends with OK; SRES clears the module's
asleep flag, SPWD sets it, the others change no module register. -/
def Obligations.StrobeBeginsAndCompletes : Prop :=
  ∀ (k : Strobe) (s : State),
    (AtPlace .start s → ∃ t, exec (strobeInstr k) s = .next t ∧ Began [s.cfg.strobeCode k] [] false .strobed s t)
    ∧ (AtPlace .strobed s → ∃ t, exec (strobeInstr k) s = .next t
        ∧ Completed .ok s.csr t.mods (dbufAt s) s t
        ∧ (∀ m, m ≠ moduleOf s → modRegs t m = modRegs s m)
        ∧ modRegs t (moduleOf s) = { modRegs s (moduleOf s) with
            asleep := if k = .sres then false else if k = .spwd then true else (modRegs s (moduleOf s)).asleep })

/-- After R151: a STROBE run by the machine from the step after the host's issue of its word to DONE: for a chip with given
answers (log entry 5), one transaction of the one byte STROBE_CODE[k], whose answer is the module's status byte; RESULT OK. -/
def Obligations.WholeStrobe : Prop :=
  ∀ (q : Strobe) (s : State) (k : Nat) (b : Byte) (w : Word16), Inv s → s.csr.busy = false → s.agenda = [] →
    s.csr.mod.toNat < s.cfg.nModules → encode s.cfg (strobeInstr q) = .cmd w → k + 1 ≤ s.cfg.readyMaxSamples →
    answers s (List.replicate k false ++ [true]) [b] →
    ∃ t, runSteps (k + 6) (issue w s) = .next t
      ∧ t.csr = { s.csr with arg := cmdArg w, cmd := 4, result := .ok, busy := false, done := true }
      ∧ (∀ a, dbufAt t a = dbufAt s a)
      ∧ t.hist = s.hist ++ [.cmd w] ++ txnEvents (moduleOf s) k [s.cfg.strobeCode q] [] [b] ++ [.done .ok]
      ∧ (∀ m, m ≠ moduleOf s → modRegs t m = modRegs s m)
      ∧ modRegs t (moduleOf s) = { modRegs s (moduleOf s) with
          lastStatus := b
          asleep := if q = .sres then false else if q = .spwd then true else (modRegs s (moduleOf s)).asleep }

/-! ### The state sequencer -/

/-- R172, R177: how a `Sequence` run polls. SET_STATE's starts with LAST_POLLS and the iteration count at 0 and a SNOP strobe;
after an action the count and LAST_POLLS go up by one and the chip is polled again. Whatever the polled code, an iteration
takes the action of a row of R173's table: that of a state the poll shows, or of any row where it shows none (log entry 3). -/
def Obligations.SequencePolls : Prop :=
  ∀ (i : Instr) (r : SeqRun) (g : Target) (s : State), seqTarget i r = some g →
    (r = .setState → AtPlace .start s → ∃ t, exec i s = .next t
      ∧ Began [s.cfg.strobeCode .snop] [] false (.polled r)
          { s with csr := { s.csr with lastPolls := 0 }, seq := { s.seq with iter := 0 } } t)
    ∧ (AtPlace (.acted r) s → s.seq.iter < s.csr.maxPolls → ∃ t n, exec i s = .next t
      ∧ n.toNat = s.seq.iter.toNat + 1
      ∧ Began [s.cfg.strobeCode .snop] [] false (.polled r)
          { s with csr := { s.csr with lastPolls := n }, seq := { s.seq with iter := n } } t)
    ∧ (AtPlace (.polled r) s → polledIs s (targetState g) = false → s.seq.iter ≠ s.csr.maxPolls → ∃ t c, exec i s = .next t
      ∧ (c ∈ polledStates s ∨ polledStates s = [])
      ∧ ((∃ k, act c g = .strobe k ∧ Began [s.cfg.strobeCode k] [] false (.acted r) s t)
        ∨ (act c g = .wait ∧ t = { s with seq := { s.seq with cont := .acted r }, hist := s.hist ++ [.wait] })))

/-- R172 to R175: what one iteration of a `Sequence` run of SET_STATE or TX_FRAME does when the polled state is not the target
and the deadline is not reached: the strobe of the target from a stable state, the flush from an error state, one settle wait
from a transient state. Where several states share the polled code, they are of one such kind here. -/
def Obligations.SequenceActs : Prop :=
  ∀ (i : Instr) (r : SeqRun) (g : Target) (s : State), seqTarget i r = some g → AtPlace (.polled r) s →
    polledIs s (targetState g) = false → s.seq.iter ≠ s.csr.maxPolls → polledStates s ≠ [] →
    ((∀ c, polledIs s c = true → c = .idle ∨ c = .rx ∨ c = .tx ∨ c = .fstxon) →
      ∃ t k, exec i s = .next t ∧ Began [s.cfg.strobeCode k] [] false (.acted r) s t
        ∧ (g = .idle → k = .sidle) ∧ (g = .rx → k = .srx) ∧ (g = .tx → k = .stx) ∧ (g = .fstxon → k = .sfstxon))
    ∧ ((∀ c, polledIs s c = true → c = .calibrate ∨ c = .settling) →
      exec i s = .next { s with seq := { s.seq with cont := .acted r }, hist := s.hist ++ [.wait] })
    ∧ ((∀ c, polledIs s c = true → c = .rxFifoErr) →
      ∃ t, exec i s = .next t ∧ Began [s.cfg.strobeCode .sfrx] [] false (.acted r) s t)
    ∧ ((∀ c, polledIs s c = true → c = .txFifoErr) →
      ∃ t, exec i s = .next t ∧ Began [s.cfg.strobeCode .sftx] [] false (.acted r) s t)

/-- R176, R178: a `Sequence` run whose polled state is not the target when MAX_POLLS iterations were made ends its command
with TIMEOUT; the module registers, LAST_POLLS and the asleep flag stay. -/
def Obligations.SequenceTimesOut : Prop :=
  ∀ (i : Instr) (r : SeqRun) (g : Target) (s : State), seqTarget i r = some g → AtPlace (.polled r) s →
    polledIs s (targetState g) = false → s.seq.iter = s.csr.maxPolls →
    ∃ t, exec i s = .next t ∧ Completed .timeout s.csr s.mods (dbufAt s) s t

/-- R171, R178: SET_STATE, all four rows, ends with OK when the chip is polled in the target state, and clears the module's
asleep flag; nothing else of the module registers changes. -/
def Obligations.SetStateCompletes : Prop :=
  ∀ (g : Target) (s : State), AtPlace (.polled .setState) s → polledIs s (targetState g) = true →
    ∃ t, exec (setStateInstr g) s = .next t
      ∧ Completed .ok s.csr t.mods (dbufAt s) s t
      ∧ (∀ m, m ≠ moduleOf s → modRegs t m = modRegs s m)
      ∧ modRegs t (moduleOf s) = { modRegs s (moduleOf s) with asleep := false }

/-! ### TX_FRAME -/

/-- R190, R192: TX_FRAME reads the TX byte count with one single read (with the header of R107 where it gives one); a zero
count goes on to `Sequence(m, FSTXON)`, any other to `Sequence(m, IDLE)`, in which the polled state IDLE is followed by SFTX,
and that, with no poll between, by `Sequence(m, FSTXON)`. -/
def Obligations.TxFrameOccupancy : Prop :=
  ∀ (a : Byte) (s s0 : State), paramsOk s.cfg = true →
    s0 = { s with csr := { s.csr with lastPolls := 0 }, seq := { s.seq with iter := 0 } } →
    (AtPlace .start s → ∃ t hdr, exec (.txFrame a) s = .next t
      ∧ Began hdr [0] true .txCounted s t
      ∧ (headerGiven s.cfg s.cfg.addrNumTxBytes → hdr = headerOfAccess s.cfg true false s.cfg.addrNumTxBytes))
    ∧ (∀ c, AtPlace .txCounted s → s.seq.ret = [c] → ∃ t, exec (.txFrame a) s = .next t
      ∧ Began [s.cfg.strobeCode .snop] [] false (.polled (if c = 0 then .txReady else .txIdle)) s0 t)
    ∧ (AtPlace (.polled .txIdle) s → polledIs s .idle = true → ∃ t, exec (.txFrame a) s = .next t
      ∧ Began [s.cfg.strobeCode .sftx] [] false .txFlushed s t)
    ∧ (AtPlace .txFlushed s → ∃ t, exec (.txFrame a) s = .next t
      ∧ Began [s.cfg.strobeCode .snop] [] false (.polled .txReady) s0 t)

/-- R193, R194: TX_FRAME writes the frame when the chip was polled in FSTXON in its second `Sequence` run, and only then, as
one burst write to the TX FIFO: the wire length n + 1 (no wrap), the address, the n payload bytes of DBUF, n + 2 bytes in all;
then it starts `Sequence(m, TX)`, and ends with OK when the chip is polled in TX, changing no other state. -/
def Obligations.TxFrameSendsAndCompletes : Prop :=
  ∀ (a : Byte) (s : State), paramsOk s.cfg = true → s.csr.len.toNat ≤ s.cfg.maxPayload →
    (AtPlace (.polled .txReady) s → polledIs s .fstxon = true → ∃ t l f, exec (.txFrame a) s = .next t
      ∧ Began [hdrByte false true s.cfg.fifoAddr] f false .txWritten s t
      ∧ f = l :: s.csr.arg :: dbufTake s s.csr.len.toNat
      ∧ l.toNat = s.csr.len.toNat + 1 ∧ f.length = s.csr.len.toNat + 2 ∧ f.length ≤ s.cfg.fifoDepth)
    ∧ (∀ t x, s.seq.phase = .run → s.seq.txn = none → exec (.txFrame a) s = .next t → t.seq.txn = some x →
        x.hdr = [hdrByte false true s.cfg.fifoAddr] → s.seq.cont = .polled .txReady ∧ polledIs s .fstxon = true)
    ∧ (AtPlace .txWritten s → ∃ t, exec (.txFrame a) s = .next t
      ∧ Began [s.cfg.strobeCode .snop] [] false (.polled .txSend)
          { s with csr := { s.csr with lastPolls := 0 }, seq := { s.seq with iter := 0 } } t)
    ∧ (AtPlace (.polled .txSend) s → polledIs s .tx = true → ∃ t, exec (.txFrame a) s = .next t
      ∧ Completed .ok s.csr s.mods (dbufAt s) s t)

/-! ### RX_FRAME -/

/-- R197, R198: RX_FRAME reads the RX byte count with one single read (its header R107's where it gives one), stores it and
clears PKT_VALID and TRAILING; a zero count completes with RX_EMPTY, any other is followed by one poll. -/
def Obligations.RxFrameCount : Prop :=
  ∀ (arg c : Byte) (s : State), paramsOk s.cfg = true →
    (AtPlace .start s → ∃ t hdr, exec (.rxFrame arg) s = .next t
      ∧ Began hdr [0] true .rxCounted s t
      ∧ (headerGiven s.cfg s.cfg.addrNumRxBytes → hdr = headerOfAccess s.cfg true false s.cfg.addrNumRxBytes))
    ∧ (AtPlace .rxCounted s → s.seq.ret = [c] → c = 0 → ∃ t, exec (.rxFrame arg) s = .next t
      ∧ Completed .rxEmpty { s.csr with rxCount := 0, pktValid := false, trailing := false } s.mods (dbufAt s) s t)
    ∧ (AtPlace .rxCounted s → s.seq.ret = [c] → c ≠ 0 → ∃ t, exec (.rxFrame arg) s = .next t
      ∧ Began [s.cfg.strobeCode .snop] [] false .rxPolled
          { s with csr := { s.csr with rxCount := c, pktValid := false, trailing := false } } t)

/-- After R196, R199 to R201: after its poll, RX_FRAME in RX_FIFO_ERR sends SFRX and then SRX and completes with RX_FIFO_ERR;
else a count above FIFO_DEPTH completes with RX_OVERSIZE; else the whole count is read in one burst read of the RX FIFO. That
the oversize test comes after the poll, whose status byte stays, is log entry 25 (against a cell of R223). -/
def Obligations.RxFrameAfterPoll : Prop :=
  ∀ (arg : Byte) (s : State),
    (AtPlace .rxPolled s → polledIs s .rxFifoErr = true → ∃ t, exec (.rxFrame arg) s = .next t
      ∧ Began [s.cfg.strobeCode .sfrx] [] false .rxFlushed s t)
    ∧ (AtPlace .rxFlushed s → ∃ t, exec (.rxFrame arg) s = .next t
      ∧ Began [s.cfg.strobeCode .srx] [] false .rxRearmed s t)
    ∧ (AtPlace .rxRearmed s → ∃ t, exec (.rxFrame arg) s = .next t
      ∧ Completed .rxFifoErr s.csr s.mods (dbufAt s) s t)
    ∧ (AtPlace .rxPolled s → polledIs s .rxFifoErr = false → s.cfg.fifoDepth < s.csr.rxCount.toNat →
      ∃ t, exec (.rxFrame arg) s = .next t ∧ Completed .rxOversize s.csr s.mods (dbufAt s) s t)
    ∧ (AtPlace .rxPolled s → polledIs s .rxFifoErr = false → s.csr.rxCount.toNat ≤ s.cfg.fifoDepth →
      ∃ t, exec (.rxFrame arg) s = .next t
        ∧ Began [hdrByte true true s.cfg.fifoAddr] (List.replicate s.csr.rxCount.toNat 0) true .rxDrained s t)

/-- R201, R202, R205: a frame whose length byte is 0 or does not fit the count completes with RX_MALFORMED: the raw length in
RX_LEN, the second byte (if there is one) in RX_ADDR, the others in DBUF from 0 on; every other byte of DBUF and every other
register as before. -/
def Obligations.RxFrameMalformed : Prop :=
  ∀ (arg : Byte) (s : State) (l : Byte) (rest : List Byte), paramsOk s.cfg = true → Memory.wf s.dbuf = true →
    AtPlace .rxDrained s → s.seq.ret = l :: rest → (l :: rest).length = s.csr.rxCount.toNat →
    s.csr.rxCount.toNat ≤ s.cfg.fifoDepth → ¬ (1 ≤ l.toNat ∧ l.toNat + 3 ≤ s.csr.rxCount.toNat) →
    ∃ t, exec (.rxFrame arg) s = .next t
      ∧ Completed .rxMalformed { s.csr with rxLen := l, rxAddr := rest.headD s.csr.rxAddr } s.mods
          (fun a => if a + 2 < s.csr.rxCount.toNat then rest.getD (a + 1) 0 else dbufAt s a) s t

/-- R201 to R203, R207, R208: a well-formed frame, whatever its CRC bit, completes with OK: RX_LEN is the wire length less
one, the two bytes after the payload are the status bytes, the payload is in DBUF from 0 on with a zero byte after it,
TRAILING says whether bytes follow the frame. -/
def Obligations.RxFrameDeframes : Prop :=
  ∀ (arg : Byte) (s : State) (l a : Byte) (rest : List Byte), paramsOk s.cfg = true → Memory.wf s.dbuf = true →
    AtPlace .rxDrained s → s.seq.ret = l :: a :: rest → rest.length + 2 = s.csr.rxCount.toNat →
    s.csr.rxCount.toNat ≤ s.cfg.fifoDepth → 1 ≤ l.toNat → l.toNat + 3 ≤ s.csr.rxCount.toNat →
    ∃ t, exec (.rxFrame arg) s = .next t
      ∧ Completed .ok
          { s.csr with
            rxLen := l - 1, rxAddr := a, rxRssi := rest.getD (l.toNat - 1) 0, rxStatus2 := rest.getD l.toNat 0
            pktValid := true, trailing := decide (l.toNat + 3 < s.csr.rxCount.toNat) }
          s.mods
          (fun j => if j + 1 = l.toNat then 0
            else if j + 2 < s.csr.rxCount.toNat then rest.getD j 0 else dbufAt s j) s t
      ∧ (l - 1).toNat = l.toNat - 1

/-- After R210, R211: RX_FRAME run by the machine from the step after the host's issue of its word to DONE, against a chip
with given answers (log entry 5), whose RX FIFO holds exactly the bytes TX_FRAME writes for a payload, followed by two status
bytes: the payload, its length, the address and the status bytes come out again, for every payload length up to MAX_PAYLOAD
that FIFO_DEPTH allows, whatever the chip's header answers `pre`, `b2` (no RX FIFO error) and `b3`, and its ready samples. -/
def Obligations.WholeRxFrame : Prop :=
  ∀ (s : State) (arg a s1 s2 b2 b3 : Byte) (pre payload f : List Byte) (n : Byte) (k1 k2 k3 : Nat), Inv s →
    s.csr.busy = false → s.agenda = [] → s.csr.mod.toNat < s.cfg.nModules →
    pre.length = headerLength s.cfg s.cfg.addrNumRxBytes →
    k1 + 1 ≤ s.cfg.readyMaxSamples → k2 + 1 ≤ s.cfg.readyMaxSamples → k3 + 1 ≤ s.cfg.readyMaxSamples →
    payload.length = n.toNat → n.toNat ≤ s.cfg.maxPayload → n.toNat + 4 ≤ s.cfg.fifoDepth →
    f = frameBytes n a payload ++ [s1, s2] → stateIs s.cfg b2 .rxFifoErr = false →
    answers s (List.replicate k1 false ++ true :: (List.replicate k2 false ++ true :: (List.replicate k3 false ++ [true])))
      (pre ++ [n + 4] ++ [b2] ++ b3 :: f) →
    ∃ t, runSteps (f.length + pre.length + k1 + k2 + k3 + 14) (issue (cmdWord 7 arg) s) = .next t
      ∧ t.csr = { s.csr with
          arg := arg, cmd := 7, result := .ok, busy := false, done := true
          rxCount := n + 4, rxLen := n, rxAddr := a, rxRssi := s1, rxStatus2 := s2, pktValid := true, trailing := false }
      ∧ (∀ j, j < n.toNat → dbufAt t j = payload.getD j 0) ∧ dbufAt t n.toNat = 0 ∧ dbufAt t (n.toNat + 1) = s2
      ∧ (∀ j, n.toNat + 1 < j → dbufAt t j = dbufAt s j)
      ∧ t.mods = modsAfter s b3

/-! ### What every step keeps -/

/-- Every step that answers a next state keeps the invariant: the one of R54, the counters' bounds, the place of the running
command, the canonical form of DBUF. -/
def Obligations.StepKeepsInv : Prop :=
  ∀ s t : State, Inv s → step s = .next t → Inv t

/-- No step stops: from every state with the invariant the step answers a next state, so no ordinary data ends a run with a
fault or a refusal. -/
def Obligations.InvMeansNoStop : Prop :=
  ∀ s : State, Inv s → SafeStep s

/-- R54: the five invariants of the rule hold before and after every step, from every state with the model's invariant (which
holds at reset and which every step keeps). -/
def Obligations.EveryStepKeepsR54 : Prop :=
  ∀ s : State, Inv s → R54Holds s ∧ ∀ t, step s = .next t → R54Holds t

/-- Every byte storage of the state (DBUF, and the registers of a RefDev) stays in canonical form. -/
def Obligations.MemoriesStayCanonical : Prop :=
  ∀ s t : State, memoriesWf s = true → step s = .next t → memoriesWf t = true

/-- R67: the history is only appended to, by every step of every agent. -/
def Obligations.HistoryOnlyGrows : Prop :=
  ∀ s t : State, step s = .next t → ∃ es, t.hist = s.hist ++ es

/-- R35, R82: while a command runs, no step but a block reset changes its operands: MOD, ADDR_HI, ADDR_LO, LEN, ARG,
MAX_POLLS, CMD; and no host access changes DBUF. -/
def Obligations.OperandsHeldWhileBusy : Prop :=
  ∀ s t : State, Inv s → s.csr.busy = true → resetTurn s = false → step s = .next t →
    (t.csr.mod = s.csr.mod ∧ t.csr.addrHi = s.csr.addrHi ∧ t.csr.addrLo = s.csr.addrLo ∧ t.csr.len = s.csr.len
      ∧ t.csr.arg = s.csr.arg ∧ t.csr.maxPolls = s.csr.maxPolls ∧ t.csr.cmd = s.csr.cmd)
    ∧ (rscTurn s = false → ∀ a, dbufAt t a = dbufAt s a)

/-- The frame of every instruction on the CSRs, from a state in which a command runs: the operands and OVR stay; the RX_* CSRs
and the RX flags change only in RX_FRAME (R44); LAST_POLLS only in SET_STATE and TX_FRAME (R43). -/
def Obligations.ExecFrameCsrs : Prop :=
  ∀ (i : Instr) (s t : State), s.seq.phase ≠ .idle → exec i s = .next t →
    t.csr = { s.csr with
      busy := t.csr.busy, done := t.csr.done, result := t.csr.result, lastPolls := t.csr.lastPolls
      rxCount := t.csr.rxCount, rxLen := t.csr.rxLen, rxAddr := t.csr.rxAddr, rxRssi := t.csr.rxRssi
      rxStatus2 := t.csr.rxStatus2, pktValid := t.csr.pktValid, trailing := t.csr.trailing }
    ∧ ((∀ a, i ≠ .rxFrame a) →
        t.csr.rxCount = s.csr.rxCount ∧ t.csr.rxLen = s.csr.rxLen ∧ t.csr.rxAddr = s.csr.rxAddr
        ∧ t.csr.rxRssi = s.csr.rxRssi ∧ t.csr.rxStatus2 = s.csr.rxStatus2
        ∧ t.csr.pktValid = s.csr.pktValid ∧ t.csr.trailing = s.csr.trailing)
    ∧ ((∀ g, i ≠ setStateInstr g) → (∀ a, i ≠ .txFrame a) → t.csr.lastPolls = s.csr.lastPolls)
    ∧ t.cfg = s.cfg ∧ t.agenda = s.agenda ∧ t.hbRdata = s.hbRdata

/-- The frame of every instruction on the module registers and on DBUF: another module's registers never change; the error
count changes only in REG_WRITE_VERIFY, the asleep flag only in SRES, SPWD and SET_STATE (R49, R52); no byte of DBUF changes
but in REG_READ and RX_FRAME (R102); the status byte changes only in a header exchange, to the byte received (R65). -/
def Obligations.ExecFrameModulesAndDbuf : Prop :=
  ∀ (i : Instr) (s t : State), exec i s = .next t →
    (∀ m, m ≠ moduleOf s → modRegs t m = modRegs s m)
    ∧ ((∀ a, i ≠ .regWriteVerify a) → (modRegs t (moduleOf s)).errcnt = (modRegs s (moduleOf s)).errcnt)
    ∧ (i ≠ .strobeSres → i ≠ .strobeSpwd → (∀ g, i ≠ setStateInstr g) →
        (modRegs t (moduleOf s)).asleep = (modRegs s (moduleOf s)).asleep)
    ∧ ((∀ a, i ≠ .regRead a) → (∀ a, i ≠ .rxFrame a) → ∀ a, dbufAt t a = dbufAt s a)
    ∧ ((modRegs t (moduleOf s)).lastStatus ≠ (modRegs s (moduleOf s)).lastStatus →
        ∃ h, t.hist = s.hist ++ [.xfer (moduleOf s) .hdr h (modRegs t (moduleOf s)).lastStatus])

/-- R111: every header byte a step sends, by default parameters, is one of the rule's table. -/
def Obligations.SentHeadersAreInTheTable : Prop :=
  ∀ (s t : State) (m : ModIdx) (h b : Byte), Inv s → s.cfg = {} → step s = .next t →
    Event.xfer m .hdr h b ∈ t.hist.drop s.hist.length → headerOfR111 h = true

/-- R179: every command completes, whatever the chips answer: from every state with the invariant the RSC's own steps reach,
within a bound given by MAX_POLLS, READY_MAX_SAMPLES and the bytes still to be sent, a state with BUSY = 0; a running command
has then set DONE, recorded DONE and stored that code in RESULT. For SET_STATE, from its CHECK step on, the rule's own bounds:
at most 1 + 2 * MAX_POLLS transactions, MAX_POLLS settle waits, and READY_MAX_SAMPLES samples for each transaction. -/
def Obligations.EveryCommandCompletes : Prop :=
  ∀ s : State, Inv s → s.agenda = [] → ∃ k t es, runSteps k s = .next t ∧ k ≤ completionBound s
    ∧ t.csr.busy = false ∧ t.hist = s.hist ++ es
    ∧ (s.csr.busy = true → t.csr.done = true ∧ t.csr.result ≠ .pending
        ∧ ∃ before, es = before ++ [.done t.csr.result] ∧ ∀ c, .done c ∉ before)
    ∧ (∀ g, s.seq.phase = .check → runningCommand s = some (setStateInstr g) →
        countEvents isSelect es ≤ 1 + 2 * s.csr.maxPolls.toNat
        ∧ countEvents isWait es ≤ s.csr.maxPolls.toNat
        ∧ countEvents isSample es ≤ (1 + 2 * s.csr.maxPolls.toNat) * s.cfg.readyMaxSamples)

/-! ### The reference device -/

/-- R88, R89, R95: RefDev in the extended space echoes: `n` bytes written at an offset and read back from it are the bytes
written, when the range lies in the space and holds no count register. -/
def Obligations.RefDevEchoes : Prop :=
  ∀ (p : Params) (d : RefDev) (off : Byte) (bytes : List Byte) (bw br : Bool), paramsOk p = true →
    Memory.wf d.regs = true → d.cur = [] → off.toNat + bytes.length ≤ 256 →
    (∀ j, j < bytes.length →
      p.extPrefix ++ (off + BitVec.ofNat 8 j) ≠ p.addrNumTxBytes
      ∧ p.extPrefix ++ (off + BitVec.ofNat 8 j) ≠ p.addrNumRxBytes) →
    (refTxn p (refTxn p d (extHeader p false bw off ++ bytes)).2
      (extHeader p true br off ++ List.replicate bytes.length 0)).1.drop 2 = bytes

/-- After R96, R180: against RefDev (log entry 5) with the default parameters, SET_STATE reaches every target from every start
state with OK, when MAX_POLLS is at least max(2, tleft + 1); here a transient state leads to IDLE, as R91 sets it. -/
def Obligations.SetStateReachesTarget : Prop :=
  ∀ (g : Target) (s : State) (d : RefDev) (w : Word16), Inv s → s.cfg = {} → s.csr.busy = false → s.agenda = [] →
    encode s.cfg (setStateInstr g) = .cmd w →
    bankGet s.chips (moduleOf s) = .refDev d → d.cur = [] → d.tnext = .idle → s.csr.maxPolls.toNat ≥ max 2 (d.tleft + 1) →
    ∃ k t, runSteps k (issue w s) = .next t ∧ t.csr.busy = false ∧ t.csr.done = true ∧ t.csr.result = .ok
      ∧ t.csr.lastPolls.toNat ≤ max 2 (d.tleft + 1) ∧ polledIs t (targetState g) = true

end
end

