-- ==== Sys2Proof/Laws/Encoding.lean ====
section
/-! SUPPORT. The laws of the bit fields of command words (R100) and header bytes (R106), and of the strobe codes (R108). -/

namespace Sys2Proof.Laws

open Sys2Proof Sys2Proof.Machine

/-- A command word is its two bytes. -/
theorem cmdArg_append_cmdLow (w : Word16) : cmdArg w ++ cmdLow w = w := by
  apply BitVec.eq_of_toNat_eq
  simp only [cmdArg, cmdLow, BitVec.toNat_append, BitVec.extractLsb'_toNat]
  rw [Nat.shiftLeft_eq, Nat.shiftRight_eq_div_pow, ← Nat.shiftLeft_eq, ← Nat.shiftLeft_add_eq_or_of_lt (by omega),
    Nat.shiftLeft_eq]
  have := w.isLt
  omega

@[simp] theorem cmdArg_cmdWord (o : BitVec 4) (a : Byte) : cmdArg (cmdWord o a) = a := by
  apply BitVec.eq_of_getLsbD_eq
  intro i hi
  simp only [cmdArg, cmdWord, BitVec.getLsbD_extractLsb', BitVec.getLsbD_append]
  simp [hi, show ¬ 8 + i < 4 by omega, show ¬ 8 + i - 4 < 4 by omega, show 8 + i - 4 - 4 = i by omega]

@[simp] theorem cmdLow_cmdWord (o : BitVec 4) (a : Byte) : cmdLow (cmdWord o a) = o.setWidth 8 := by
  apply BitVec.eq_of_getLsbD_eq
  intro i hi
  simp only [cmdLow, cmdWord, BitVec.getLsbD_extractLsb', BitVec.getLsbD_append, BitVec.getLsbD_setWidth]
  by_cases h : i < 4
  · simp [h, hi]
  · simp [h, hi, show i - 4 < 4 by omega, BitVec.getLsbD_of_ge o i (by omega)]

@[simp] theorem cmdOpcode_cmdWord (o : BitVec 4) (a : Byte) : cmdOpcode (cmdWord o a) = o := by
  apply BitVec.eq_of_getLsbD_eq
  intro i hi
  simp only [cmdOpcode, cmdWord, BitVec.getLsbD_extractLsb', BitVec.getLsbD_append]
  simp [hi]

@[simp] theorem cmdZero_cmdWord (o : BitVec 4) (a : Byte) : cmdZero (cmdWord o a) = 0 := by
  apply BitVec.eq_of_getLsbD_eq
  intro i hi
  simp only [cmdZero, cmdWord, BitVec.getLsbD_extractLsb', BitVec.getLsbD_append]
  simp [show ¬ 4 + i < 4 by omega]
  omega

/-- A word whose bits 7:4 are 0 is the command word of its opcode and ARG. -/
theorem cmdWord_of_zero {w : Word16} (h : cmdZero w = 0) : cmdWord (cmdOpcode w) (cmdArg w) = w := by
  apply BitVec.eq_of_getLsbD_eq
  intro i hi
  have hz : ∀ j, j < 4 → w.getLsbD (4 + j) = false := by
    intro j hj
    have := congrArg (fun v => v.getLsbD j) h
    simpa [cmdZero, hj] using this
  simp only [cmdWord, cmdOpcode, cmdArg, BitVec.getLsbD_append, BitVec.getLsbD_extractLsb']
  by_cases h4 : i < 4
  · simp [h4]
  · by_cases h8 : i < 8
    · simp only [h4, if_false, show i - 4 < 4 by omega, if_true]
      have := hz (i - 4) (by omega)
      rw [show 4 + (i - 4) = i by omega] at this
      simp [this]
    · simp [h4, show ¬ i - 4 < 4 by omega, show i - 4 - 4 < 8 by omega, show 8 + (i - 4 - 4) = i by omega]

/-- A header byte is its three fields. -/
theorem hdrByte_fields : ∀ h : Byte, hdrByte (hdrR h) (hdrB h) (hdrA h) = h := by decide

@[simp] theorem hdrR_hdrByte : ∀ (r b : Bool) (a : BitVec 6), hdrR (hdrByte r b a) = r := by decide

@[simp] theorem hdrB_hdrByte : ∀ (r b : Bool) (a : BitVec 6), hdrB (hdrByte r b a) = b := by decide

@[simp] theorem hdrA_hdrByte : ∀ (r b : Bool) (a : BitVec 6), hdrA (hdrByte r b a) = a := by decide

theorem mem_allStrobes (k : Strobe) : k ∈ allStrobes := by cases k <;> simp [allStrobes]

theorem mem_allChipStates (c : ChipState) : c ∈ allChipStates := by cases c <;> simp [allChipStates]

/-- The strobe codes of a legal parameter set tell the strobes apart (R12). -/
theorem strobeCode_inj {p : Params} (hp : paramsOk p = true) {a b : Strobe} (h : p.strobeCode a = p.strobeCode b) : a = b := by
  have hn : (allStrobes.map p.strobeCode).Nodup := by
    simp only [paramsOk, Bool.and_eq_true, decide_eq_true_eq] at hp
    tauto
  exact List.inj_on_of_nodup_map hn (mem_allStrobes a) (mem_allStrobes b) h

theorem strobeCode_lt {p : Params} (hp : paramsOk p = true) (k : Strobe) : (p.strobeCode k).toNat < 0x40 := by
  have hn : allStrobes.all (fun k => decide (p.strobeCode k < 0x40)) = true := by
    simp only [paramsOk, Bool.and_eq_true] at hp
    tauto
  rw [List.all_eq_true] at hn
  have := hn k (mem_allStrobes k)
  simpa [BitVec.lt_def] using this

theorem strobeOfCode_eq_some {p : Params} (hp : paramsOk p = true) {h : Byte} {k : Strobe} :
    strobeOfCode p h = some k ↔ p.strobeCode k = h := by
  constructor
  · intro hk
    simpa using List.find?_some hk
  · intro hk
    cases hf : strobeOfCode p h with
    | none =>
      have := List.find?_eq_none.mp hf k (mem_allStrobes k)
      exact absurd hk (by simpa using this)
    | some j =>
      have hj : p.strobeCode j = h := by simpa using List.find?_some hf
      rw [strobeCode_inj hp (hj.trans hk.symm)]

theorem strobeOfCode_eq_none {p : Params} {h : Byte} (hn : strobeOfCode p h = none) (k : Strobe) : p.strobeCode k ≠ h := by
  have := List.find?_eq_none.mp hn k (mem_allStrobes k)
  simpa using this

end Sys2Proof.Laws
end

