-- ==== Sys2Proof/Laws/State.lean ====
section
/-! SUPPORT. One lemma for each field of the state under each named update, so that no later proof unfolds a record update. -/

namespace Sys2Proof.Laws

open Sys2Proof Sys2Proof.Machine

/-! `record` -/

@[simp] theorem record_cfg (s : State) (e : Event) : (record s e).cfg = s.cfg := rfl
@[simp] theorem record_csr (s : State) (e : Event) : (record s e).csr = s.csr := rfl
@[simp] theorem record_mods (s : State) (e : Event) : (record s e).mods = s.mods := rfl
@[simp] theorem record_dbuf (s : State) (e : Event) : (record s e).dbuf = s.dbuf := rfl
@[simp] theorem record_csN (s : State) (e : Event) : (record s e).csN = s.csN := rfl
@[simp] theorem record_seq (s : State) (e : Event) : (record s e).seq = s.seq := rfl
@[simp] theorem record_hist (s : State) (e : Event) : (record s e).hist = s.hist ++ [e] := rfl
@[simp] theorem record_chips (s : State) (e : Event) : (record s e).chips = s.chips := rfl
@[simp] theorem record_agenda (s : State) (e : Event) : (record s e).agenda = s.agenda := rfl
@[simp] theorem record_hbRdata (s : State) (e : Event) : (record s e).hbRdata = s.hbRdata := rfl

/-! `setModRegs` -/

@[simp] theorem setModRegs_cfg (s : State) (m : ModIdx) (r : ModRegs) : (setModRegs s m r).cfg = s.cfg := rfl
@[simp] theorem setModRegs_csr (s : State) (m : ModIdx) (r : ModRegs) : (setModRegs s m r).csr = s.csr := rfl
@[simp] theorem setModRegs_mods (s : State) (m : ModIdx) (r : ModRegs) : (setModRegs s m r).mods = bankSet s.mods m r := rfl
@[simp] theorem setModRegs_dbuf (s : State) (m : ModIdx) (r : ModRegs) : (setModRegs s m r).dbuf = s.dbuf := rfl
@[simp] theorem setModRegs_csN (s : State) (m : ModIdx) (r : ModRegs) : (setModRegs s m r).csN = s.csN := rfl
@[simp] theorem setModRegs_seq (s : State) (m : ModIdx) (r : ModRegs) : (setModRegs s m r).seq = s.seq := rfl
@[simp] theorem setModRegs_hist (s : State) (m : ModIdx) (r : ModRegs) : (setModRegs s m r).hist = s.hist := rfl
@[simp] theorem setModRegs_chips (s : State) (m : ModIdx) (r : ModRegs) : (setModRegs s m r).chips = s.chips := rfl
@[simp] theorem setModRegs_agenda (s : State) (m : ModIdx) (r : ModRegs) : (setModRegs s m r).agenda = s.agenda := rfl
@[simp] theorem setModRegs_hbRdata (s : State) (m : ModIdx) (r : ModRegs) : (setModRegs s m r).hbRdata = s.hbRdata := rfl

/-! `setLastStatus` -/

@[simp] theorem setLastStatus_cfg (s : State) (m : ModIdx) (b : Byte) : (setLastStatus s m b).cfg = s.cfg := rfl
@[simp] theorem setLastStatus_csr (s : State) (m : ModIdx) (b : Byte) : (setLastStatus s m b).csr = s.csr := rfl
@[simp] theorem setLastStatus_mods (s : State) (m : ModIdx) (b : Byte) :
    (setLastStatus s m b).mods = bankSet s.mods m { bankGet s.mods m with lastStatus := b } := rfl
@[simp] theorem setLastStatus_dbuf (s : State) (m : ModIdx) (b : Byte) : (setLastStatus s m b).dbuf = s.dbuf := rfl
@[simp] theorem setLastStatus_csN (s : State) (m : ModIdx) (b : Byte) : (setLastStatus s m b).csN = s.csN := rfl
@[simp] theorem setLastStatus_seq (s : State) (m : ModIdx) (b : Byte) : (setLastStatus s m b).seq = s.seq := rfl
@[simp] theorem setLastStatus_hist (s : State) (m : ModIdx) (b : Byte) : (setLastStatus s m b).hist = s.hist := rfl
@[simp] theorem setLastStatus_chips (s : State) (m : ModIdx) (b : Byte) : (setLastStatus s m b).chips = s.chips := rfl
@[simp] theorem setLastStatus_agenda (s : State) (m : ModIdx) (b : Byte) : (setLastStatus s m b).agenda = s.agenda := rfl
@[simp] theorem setLastStatus_hbRdata (s : State) (m : ModIdx) (b : Byte) : (setLastStatus s m b).hbRdata = s.hbRdata := rfl

/-! `setErrcnt` -/

@[simp] theorem setErrcnt_cfg (s : State) (m : ModIdx) (c : Byte) : (setErrcnt s m c).cfg = s.cfg := rfl
@[simp] theorem setErrcnt_csr (s : State) (m : ModIdx) (c : Byte) : (setErrcnt s m c).csr = s.csr := rfl
@[simp] theorem setErrcnt_mods (s : State) (m : ModIdx) (c : Byte) :
    (setErrcnt s m c).mods = bankSet s.mods m { bankGet s.mods m with errcnt := c } := rfl
@[simp] theorem setErrcnt_dbuf (s : State) (m : ModIdx) (c : Byte) : (setErrcnt s m c).dbuf = s.dbuf := rfl
@[simp] theorem setErrcnt_csN (s : State) (m : ModIdx) (c : Byte) : (setErrcnt s m c).csN = s.csN := rfl
@[simp] theorem setErrcnt_seq (s : State) (m : ModIdx) (c : Byte) : (setErrcnt s m c).seq = s.seq := rfl
@[simp] theorem setErrcnt_hist (s : State) (m : ModIdx) (c : Byte) : (setErrcnt s m c).hist = s.hist := rfl
@[simp] theorem setErrcnt_chips (s : State) (m : ModIdx) (c : Byte) : (setErrcnt s m c).chips = s.chips := rfl
@[simp] theorem setErrcnt_agenda (s : State) (m : ModIdx) (c : Byte) : (setErrcnt s m c).agenda = s.agenda := rfl
@[simp] theorem setErrcnt_hbRdata (s : State) (m : ModIdx) (c : Byte) : (setErrcnt s m c).hbRdata = s.hbRdata := rfl

/-! `setAsleep` -/

@[simp] theorem setAsleep_cfg (s : State) (m : ModIdx) (b : Bool) : (setAsleep s m b).cfg = s.cfg := rfl
@[simp] theorem setAsleep_csr (s : State) (m : ModIdx) (b : Bool) : (setAsleep s m b).csr = s.csr := rfl
@[simp] theorem setAsleep_mods (s : State) (m : ModIdx) (b : Bool) :
    (setAsleep s m b).mods = bankSet s.mods m { bankGet s.mods m with asleep := b } := rfl
@[simp] theorem setAsleep_dbuf (s : State) (m : ModIdx) (b : Bool) : (setAsleep s m b).dbuf = s.dbuf := rfl
@[simp] theorem setAsleep_csN (s : State) (m : ModIdx) (b : Bool) : (setAsleep s m b).csN = s.csN := rfl
@[simp] theorem setAsleep_seq (s : State) (m : ModIdx) (b : Bool) : (setAsleep s m b).seq = s.seq := rfl
@[simp] theorem setAsleep_hist (s : State) (m : ModIdx) (b : Bool) : (setAsleep s m b).hist = s.hist := rfl
@[simp] theorem setAsleep_chips (s : State) (m : ModIdx) (b : Bool) : (setAsleep s m b).chips = s.chips := rfl
@[simp] theorem setAsleep_agenda (s : State) (m : ModIdx) (b : Bool) : (setAsleep s m b).agenda = s.agenda := rfl
@[simp] theorem setAsleep_hbRdata (s : State) (m : ModIdx) (b : Bool) : (setAsleep s m b).hbRdata = s.hbRdata := rfl

/-! `csLow` -/

@[simp] theorem csLow_cfg (s : State) (m : ModIdx) : (csLow s m).cfg = s.cfg := rfl
@[simp] theorem csLow_csr (s : State) (m : ModIdx) : (csLow s m).csr = s.csr := rfl
@[simp] theorem csLow_mods (s : State) (m : ModIdx) : (csLow s m).mods = s.mods := rfl
@[simp] theorem csLow_dbuf (s : State) (m : ModIdx) : (csLow s m).dbuf = s.dbuf := rfl
@[simp] theorem csLow_csN (s : State) (m : ModIdx) : (csLow s m).csN = bankSet s.csN m false := rfl
@[simp] theorem csLow_seq (s : State) (m : ModIdx) : (csLow s m).seq = s.seq := rfl
@[simp] theorem csLow_hist (s : State) (m : ModIdx) : (csLow s m).hist = s.hist ++ [.cs m false] := rfl
@[simp] theorem csLow_chips (s : State) (m : ModIdx) : (csLow s m).chips = s.chips := rfl
@[simp] theorem csLow_agenda (s : State) (m : ModIdx) : (csLow s m).agenda = s.agenda := rfl
@[simp] theorem csLow_hbRdata (s : State) (m : ModIdx) : (csLow s m).hbRdata = s.hbRdata := rfl

/-! `csHigh` -/

@[simp] theorem csHigh_cfg (s : State) (m : ModIdx) : (csHigh s m).cfg = s.cfg := rfl
@[simp] theorem csHigh_csr (s : State) (m : ModIdx) : (csHigh s m).csr = s.csr := rfl
@[simp] theorem csHigh_mods (s : State) (m : ModIdx) : (csHigh s m).mods = s.mods := rfl
@[simp] theorem csHigh_dbuf (s : State) (m : ModIdx) : (csHigh s m).dbuf = s.dbuf := rfl
@[simp] theorem csHigh_csN (s : State) (m : ModIdx) : (csHigh s m).csN = bankSet s.csN m true := rfl
@[simp] theorem csHigh_seq (s : State) (m : ModIdx) : (csHigh s m).seq = s.seq := rfl
@[simp] theorem csHigh_hist (s : State) (m : ModIdx) : (csHigh s m).hist = s.hist ++ [.cs m true] := rfl
@[simp] theorem csHigh_chips (s : State) (m : ModIdx) :
    (csHigh s m).chips = bankSet s.chips m (chipDeselect s.cfg (bankGet s.chips m)) := rfl
@[simp] theorem csHigh_agenda (s : State) (m : ModIdx) : (csHigh s m).agenda = s.agenda := rfl
@[simp] theorem csHigh_hbRdata (s : State) (m : ModIdx) : (csHigh s m).hbRdata = s.hbRdata := rfl

/-! `setTxn` -/

@[simp] theorem setTxn_cfg (s : State) (t : Option Txn) : (setTxn s t).cfg = s.cfg := rfl
@[simp] theorem setTxn_csr (s : State) (t : Option Txn) : (setTxn s t).csr = s.csr := rfl
@[simp] theorem setTxn_mods (s : State) (t : Option Txn) : (setTxn s t).mods = s.mods := rfl
@[simp] theorem setTxn_dbuf (s : State) (t : Option Txn) : (setTxn s t).dbuf = s.dbuf := rfl
@[simp] theorem setTxn_csN (s : State) (t : Option Txn) : (setTxn s t).csN = s.csN := rfl
@[simp] theorem setTxn_seq (s : State) (t : Option Txn) : (setTxn s t).seq = { s.seq with txn := t } := rfl
@[simp] theorem setTxn_hist (s : State) (t : Option Txn) : (setTxn s t).hist = s.hist := rfl
@[simp] theorem setTxn_chips (s : State) (t : Option Txn) : (setTxn s t).chips = s.chips := rfl
@[simp] theorem setTxn_agenda (s : State) (t : Option Txn) : (setTxn s t).agenda = s.agenda := rfl
@[simp] theorem setTxn_hbRdata (s : State) (t : Option Txn) : (setTxn s t).hbRdata = s.hbRdata := rfl

/-! `takeSample` -/

@[simp] theorem takeSample_cfg (s : State) : (takeSample s).cfg = s.cfg := rfl
@[simp] theorem takeSample_csr (s : State) : (takeSample s).csr = s.csr := rfl
@[simp] theorem takeSample_mods (s : State) : (takeSample s).mods = s.mods := rfl
@[simp] theorem takeSample_dbuf (s : State) : (takeSample s).dbuf = s.dbuf := rfl
@[simp] theorem takeSample_csN (s : State) : (takeSample s).csN = s.csN := rfl
@[simp] theorem takeSample_seq (s : State) : (takeSample s).seq = { s.seq with samples := s.seq.samples + 1 } := rfl
@[simp] theorem takeSample_hist (s : State) : (takeSample s).hist = s.hist ++ [.ready (moduleOf s) (sampleLevel s)] := rfl
@[simp] theorem takeSample_chips (s : State) :
    (takeSample s).chips = bankSet s.chips (moduleOf s) (chipSample s.hist (moduleOf s) (bankGet s.chips (moduleOf s))).2 := rfl
@[simp] theorem takeSample_agenda (s : State) : (takeSample s).agenda = s.agenda := rfl
@[simp] theorem takeSample_hbRdata (s : State) : (takeSample s).hbRdata = s.hbRdata := rfl

/-! `exchange` -/

@[simp] theorem exchange_cfg (r : Role) (o : Byte) (s : State) : (exchange r o s).cfg = s.cfg := rfl
@[simp] theorem exchange_csr (r : Role) (o : Byte) (s : State) : (exchange r o s).csr = s.csr := rfl
@[simp] theorem exchange_mods (r : Role) (o : Byte) (s : State) : (exchange r o s).mods = s.mods := rfl
@[simp] theorem exchange_dbuf (r : Role) (o : Byte) (s : State) : (exchange r o s).dbuf = s.dbuf := rfl
@[simp] theorem exchange_csN (r : Role) (o : Byte) (s : State) : (exchange r o s).csN = s.csN := rfl
@[simp] theorem exchange_seq (r : Role) (o : Byte) (s : State) : (exchange r o s).seq = s.seq := rfl
@[simp] theorem exchange_hist (r : Role) (o : Byte) (s : State) :
    (exchange r o s).hist = s.hist ++ [.xfer (moduleOf s) r o (misoByte s o)] := rfl
@[simp] theorem exchange_chips (r : Role) (o : Byte) (s : State) :
    (exchange r o s).chips = bankSet s.chips (moduleOf s) (chipExchange s.cfg s.hist (moduleOf s) o (bankGet s.chips (moduleOf s))).2 := rfl
@[simp] theorem exchange_agenda (r : Role) (o : Byte) (s : State) : (exchange r o s).agenda = s.agenda := rfl
@[simp] theorem exchange_hbRdata (r : Role) (o : Byte) (s : State) : (exchange r o s).hbRdata = s.hbRdata := rfl

/-! `startCommand` -/

@[simp] theorem startCommand_cfg (v : Byte) (s : State) : (startCommand v s).cfg = s.cfg := rfl
@[simp] theorem startCommand_csr (v : Byte) (s : State) :
    (startCommand v s).csr = { s.csr with cmd := v, busy := true, done := false, result := .pending } := rfl
@[simp] theorem startCommand_mods (v : Byte) (s : State) : (startCommand v s).mods = s.mods := rfl
@[simp] theorem startCommand_dbuf (v : Byte) (s : State) : (startCommand v s).dbuf = s.dbuf := rfl
@[simp] theorem startCommand_csN (v : Byte) (s : State) : (startCommand v s).csN = s.csN := rfl
@[simp] theorem startCommand_seq (v : Byte) (s : State) : (startCommand v s).seq = { s.seq with phase := .check } := rfl
@[simp] theorem startCommand_hist (v : Byte) (s : State) : (startCommand v s).hist = s.hist ++ [.cmd (s.csr.arg ++ v)] := rfl
@[simp] theorem startCommand_chips (v : Byte) (s : State) : (startCommand v s).chips = s.chips := rfl
@[simp] theorem startCommand_agenda (v : Byte) (s : State) : (startCommand v s).agenda = s.agenda := rfl
@[simp] theorem startCommand_hbRdata (v : Byte) (s : State) : (startCommand v s).hbRdata = s.hbRdata := rfl

/-! `issue` -/

@[simp] theorem issue_cfg (w : Word16) (s : State) : (issue w s).cfg = s.cfg := rfl
@[simp] theorem issue_csr (w : Word16) (s : State) :
    (issue w s).csr = { s.csr with arg := cmdArg w, cmd := cmdLow w, busy := true, done := false, result := .pending } := rfl
@[simp] theorem issue_mods (w : Word16) (s : State) : (issue w s).mods = s.mods := rfl
@[simp] theorem issue_dbuf (w : Word16) (s : State) : (issue w s).dbuf = s.dbuf := rfl
@[simp] theorem issue_csN (w : Word16) (s : State) : (issue w s).csN = s.csN := rfl
@[simp] theorem issue_seq (w : Word16) (s : State) : (issue w s).seq = { s.seq with phase := .check } := rfl
@[simp] theorem issue_hist (w : Word16) (s : State) : (issue w s).hist = s.hist ++ [.cmd (cmdArg w ++ cmdLow w)] := rfl
@[simp] theorem issue_chips (w : Word16) (s : State) : (issue w s).chips = s.chips := rfl
@[simp] theorem issue_agenda (w : Word16) (s : State) : (issue w s).agenda = s.agenda := rfl
@[simp] theorem issue_hbRdata (w : Word16) (s : State) : (issue w s).hbRdata = s.hbRdata := rfl

/-! `blockReset` -/

@[simp] theorem blockReset_cfg (s : State) : (blockReset s).cfg = s.cfg := rfl
@[simp] theorem blockReset_csr (s : State) : (blockReset s).csr = Csrs.reset s.cfg := rfl
@[simp] theorem blockReset_mods (s : State) : (blockReset s).mods = sameForAll ModRegs.reset := rfl
@[simp] theorem blockReset_dbuf (s : State) : (blockReset s).dbuf = [] := rfl
@[simp] theorem blockReset_csN (s : State) : (blockReset s).csN = sameForAll true := rfl
@[simp] theorem blockReset_seq (s : State) : (blockReset s).seq = Seq.reset := rfl
@[simp] theorem blockReset_hist (s : State) : (blockReset s).hist = (releaseAll s).hist ++ [.reset] := rfl
@[simp] theorem blockReset_chips (s : State) : (blockReset s).chips = (releaseAll s).chips := rfl
@[simp] theorem blockReset_agenda (s : State) : (blockReset s).agenda = s.agenda := rfl
@[simp] theorem blockReset_hbRdata (s : State) : (blockReset s).hbRdata = s.hbRdata := rfl

/-! `popTurn` -/

@[simp] theorem popTurn_cfg (rest : List Turn) (s : State) : (popTurn rest s).cfg = s.cfg := rfl
@[simp] theorem popTurn_csr (rest : List Turn) (s : State) : (popTurn rest s).csr = s.csr := rfl
@[simp] theorem popTurn_mods (rest : List Turn) (s : State) : (popTurn rest s).mods = s.mods := rfl
@[simp] theorem popTurn_dbuf (rest : List Turn) (s : State) : (popTurn rest s).dbuf = s.dbuf := rfl
@[simp] theorem popTurn_csN (rest : List Turn) (s : State) : (popTurn rest s).csN = s.csN := rfl
@[simp] theorem popTurn_seq (rest : List Turn) (s : State) : (popTurn rest s).seq = s.seq := rfl
@[simp] theorem popTurn_hist (rest : List Turn) (s : State) : (popTurn rest s).hist = s.hist := rfl
@[simp] theorem popTurn_chips (rest : List Turn) (s : State) : (popTurn rest s).chips = s.chips := rfl
@[simp] theorem popTurn_agenda (rest : List Turn) (s : State) : (popTurn rest s).agenda = rest := rfl
@[simp] theorem popTurn_hbRdata (rest : List Turn) (s : State) : (popTurn rest s).hbRdata = s.hbRdata := rfl

/-! `hostRead` -/

@[simp] theorem hostRead_cfg (a : Byte) (s : State) : (hostRead a s).cfg = s.cfg := rfl
@[simp] theorem hostRead_csr (a : Byte) (s : State) : (hostRead a s).csr = s.csr := rfl
@[simp] theorem hostRead_mods (a : Byte) (s : State) : (hostRead a s).mods = s.mods := rfl
@[simp] theorem hostRead_dbuf (a : Byte) (s : State) : (hostRead a s).dbuf = s.dbuf := rfl
@[simp] theorem hostRead_csN (a : Byte) (s : State) : (hostRead a s).csN = s.csN := rfl
@[simp] theorem hostRead_seq (a : Byte) (s : State) : (hostRead a s).seq = s.seq := rfl
@[simp] theorem hostRead_hist (a : Byte) (s : State) : (hostRead a s).hist = s.hist := rfl
@[simp] theorem hostRead_chips (a : Byte) (s : State) : (hostRead a s).chips = s.chips := rfl
@[simp] theorem hostRead_agenda (a : Byte) (s : State) : (hostRead a s).agenda = s.agenda := rfl
@[simp] theorem hostRead_hbRdata (a : Byte) (s : State) : (hostRead a s).hbRdata = csrValue s (csrAt s.cfg a) := rfl

/-! `pollStatus` -/

@[simp] theorem pollStatus_cfg (rest : List Turn) (s : State) : (pollStatus rest s).cfg = s.cfg := rfl
@[simp] theorem pollStatus_csr (rest : List Turn) (s : State) : (pollStatus rest s).csr = s.csr := rfl
@[simp] theorem pollStatus_mods (rest : List Turn) (s : State) : (pollStatus rest s).mods = s.mods := rfl
@[simp] theorem pollStatus_dbuf (rest : List Turn) (s : State) : (pollStatus rest s).dbuf = s.dbuf := rfl
@[simp] theorem pollStatus_csN (rest : List Turn) (s : State) : (pollStatus rest s).csN = s.csN := rfl
@[simp] theorem pollStatus_seq (rest : List Turn) (s : State) : (pollStatus rest s).seq = s.seq := rfl
@[simp] theorem pollStatus_hist (rest : List Turn) (s : State) : (pollStatus rest s).hist = s.hist := rfl
@[simp] theorem pollStatus_chips (rest : List Turn) (s : State) : (pollStatus rest s).chips = s.chips := rfl
@[simp] theorem pollStatus_agenda (rest : List Turn) (s : State) :
    (pollStatus rest s).agenda = if s.csr.done then rest else .rsc :: .poll :: rest := rfl
@[simp] theorem pollStatus_hbRdata (rest : List Turn) (s : State) :
    (pollStatus rest s).hbRdata = csrValue s (csrAt s.cfg 0x08) := rfl

/-! `storeCount` -/

@[simp] theorem storeCount_cfg (s : State) : (storeCount s).cfg = s.cfg := rfl
@[simp] theorem storeCount_csr (s : State) :
    (storeCount s).csr = { s.csr with rxCount := countRead s, pktValid := false, trailing := false } := rfl
@[simp] theorem storeCount_mods (s : State) : (storeCount s).mods = s.mods := rfl
@[simp] theorem storeCount_dbuf (s : State) : (storeCount s).dbuf = s.dbuf := rfl
@[simp] theorem storeCount_csN (s : State) : (storeCount s).csN = s.csN := rfl
@[simp] theorem storeCount_seq (s : State) : (storeCount s).seq = s.seq := rfl
@[simp] theorem storeCount_hist (s : State) : (storeCount s).hist = s.hist := rfl
@[simp] theorem storeCount_chips (s : State) : (storeCount s).chips = s.chips := rfl
@[simp] theorem storeCount_agenda (s : State) : (storeCount s).agenda = s.agenda := rfl
@[simp] theorem storeCount_hbRdata (s : State) : (storeCount s).hbRdata = s.hbRdata := rfl

/-! `dbufPut` -/

@[simp] theorem dbufPut_cfg (s : State) (i : Nat) (v : Byte) :
    (dbufPut s i v).cfg = s.cfg := by
  unfold dbufPut; split <;> rfl
@[simp] theorem dbufPut_csr (s : State) (i : Nat) (v : Byte) :
    (dbufPut s i v).csr = s.csr := by
  unfold dbufPut; split <;> rfl
@[simp] theorem dbufPut_mods (s : State) (i : Nat) (v : Byte) :
    (dbufPut s i v).mods = s.mods := by
  unfold dbufPut; split <;> rfl
@[simp] theorem dbufPut_csN (s : State) (i : Nat) (v : Byte) :
    (dbufPut s i v).csN = s.csN := by
  unfold dbufPut; split <;> rfl
@[simp] theorem dbufPut_seq (s : State) (i : Nat) (v : Byte) :
    (dbufPut s i v).seq = s.seq := by
  unfold dbufPut; split <;> rfl
@[simp] theorem dbufPut_hist (s : State) (i : Nat) (v : Byte) :
    (dbufPut s i v).hist = s.hist := by
  unfold dbufPut; split <;> rfl
@[simp] theorem dbufPut_chips (s : State) (i : Nat) (v : Byte) :
    (dbufPut s i v).chips = s.chips := by
  unfold dbufPut; split <;> rfl
@[simp] theorem dbufPut_agenda (s : State) (i : Nat) (v : Byte) :
    (dbufPut s i v).agenda = s.agenda := by
  unfold dbufPut; split <;> rfl
@[simp] theorem dbufPut_hbRdata (s : State) (i : Nat) (v : Byte) :
    (dbufPut s i v).hbRdata = s.hbRdata := by
  unfold dbufPut; split <;> rfl

/-! `dbufStore` -/

@[simp] theorem dbufStore_cfg (s : State) (i : Nat) (bs : List Byte) :
    (dbufStore s i bs).cfg = s.cfg := by
  induction bs generalizing s i with
  | nil => rfl
  | cons b bs ih => simp [dbufStore, ih]
@[simp] theorem dbufStore_csr (s : State) (i : Nat) (bs : List Byte) :
    (dbufStore s i bs).csr = s.csr := by
  induction bs generalizing s i with
  | nil => rfl
  | cons b bs ih => simp [dbufStore, ih]
@[simp] theorem dbufStore_mods (s : State) (i : Nat) (bs : List Byte) :
    (dbufStore s i bs).mods = s.mods := by
  induction bs generalizing s i with
  | nil => rfl
  | cons b bs ih => simp [dbufStore, ih]
@[simp] theorem dbufStore_csN (s : State) (i : Nat) (bs : List Byte) :
    (dbufStore s i bs).csN = s.csN := by
  induction bs generalizing s i with
  | nil => rfl
  | cons b bs ih => simp [dbufStore, ih]
@[simp] theorem dbufStore_seq (s : State) (i : Nat) (bs : List Byte) :
    (dbufStore s i bs).seq = s.seq := by
  induction bs generalizing s i with
  | nil => rfl
  | cons b bs ih => simp [dbufStore, ih]
@[simp] theorem dbufStore_hist (s : State) (i : Nat) (bs : List Byte) :
    (dbufStore s i bs).hist = s.hist := by
  induction bs generalizing s i with
  | nil => rfl
  | cons b bs ih => simp [dbufStore, ih]
@[simp] theorem dbufStore_chips (s : State) (i : Nat) (bs : List Byte) :
    (dbufStore s i bs).chips = s.chips := by
  induction bs generalizing s i with
  | nil => rfl
  | cons b bs ih => simp [dbufStore, ih]
@[simp] theorem dbufStore_agenda (s : State) (i : Nat) (bs : List Byte) :
    (dbufStore s i bs).agenda = s.agenda := by
  induction bs generalizing s i with
  | nil => rfl
  | cons b bs ih => simp [dbufStore, ih]
@[simp] theorem dbufStore_hbRdata (s : State) (i : Nat) (bs : List Byte) :
    (dbufStore s i bs).hbRdata = s.hbRdata := by
  induction bs generalizing s i with
  | nil => rfl
  | cons b bs ih => simp [dbufStore, ih]

/-! `releaseCs` -/

@[simp] theorem releaseCs_cfg (s : State) (m : ModIdx) : (releaseCs s m).cfg = s.cfg := by
  unfold releaseCs; split <;> rfl
@[simp] theorem releaseCs_csr (s : State) (m : ModIdx) : (releaseCs s m).csr = s.csr := by
  unfold releaseCs; split <;> rfl
@[simp] theorem releaseCs_mods (s : State) (m : ModIdx) :
    (releaseCs s m).mods = s.mods := by
  unfold releaseCs; split <;> rfl
@[simp] theorem releaseCs_dbuf (s : State) (m : ModIdx) :
    (releaseCs s m).dbuf = s.dbuf := by
  unfold releaseCs; split <;> rfl
@[simp] theorem releaseCs_seq (s : State) (m : ModIdx) : (releaseCs s m).seq = s.seq := by
  unfold releaseCs; split <;> rfl
@[simp] theorem releaseCs_agenda (s : State) (m : ModIdx) :
    (releaseCs s m).agenda = s.agenda := by
  unfold releaseCs; split <;> rfl
@[simp] theorem releaseCs_hbRdata (s : State) (m : ModIdx) :
    (releaseCs s m).hbRdata = s.hbRdata := by
  unfold releaseCs; split <;> rfl

/-! `releaseAll` -/

@[simp] theorem releaseAll_cfg (s : State) : (releaseAll s).cfg = s.cfg := by
  simp [releaseAll]
@[simp] theorem releaseAll_csr (s : State) : (releaseAll s).csr = s.csr := by
  simp [releaseAll]
@[simp] theorem releaseAll_mods (s : State) : (releaseAll s).mods = s.mods := by
  simp [releaseAll]
@[simp] theorem releaseAll_dbuf (s : State) : (releaseAll s).dbuf = s.dbuf := by
  simp [releaseAll]
@[simp] theorem releaseAll_seq (s : State) : (releaseAll s).seq = s.seq := by
  simp [releaseAll]
@[simp] theorem releaseAll_agenda (s : State) : (releaseAll s).agenda = s.agenda := by
  simp [releaseAll]
@[simp] theorem releaseAll_hbRdata (s : State) : (releaseAll s).hbRdata = s.hbRdata := by
  simp [releaseAll]

/-! `complete` -/

@[simp] theorem complete_cfg (c : Result) (s : State) : (complete c s).cfg = s.cfg := by
  simp [complete]
@[simp] theorem complete_mods (c : Result) (s : State) : (complete c s).mods = s.mods := by
  simp [complete]
@[simp] theorem complete_dbuf (c : Result) (s : State) : (complete c s).dbuf = s.dbuf := by
  simp [complete]
@[simp] theorem complete_seq (c : Result) (s : State) : (complete c s).seq = Seq.reset := rfl
@[simp] theorem complete_hist (c : Result) (s : State) : (complete c s).hist = (releaseAll s).hist ++ [.done c] := rfl
@[simp] theorem complete_chips (c : Result) (s : State) : (complete c s).chips = (releaseAll s).chips := rfl
@[simp] theorem complete_agenda (c : Result) (s : State) : (complete c s).agenda = s.agenda := by
  simp [complete]
@[simp] theorem complete_hbRdata (c : Result) (s : State) : (complete c s).hbRdata = s.hbRdata := by
  simp [complete]

@[simp] theorem complete_csr (c : Result) (s : State) :
    (complete c s).csr = { s.csr with result := c, busy := false, done := true } := by
  simp [complete]

/-! `deframe` -/

@[simp] theorem deframe_cfg (l : Byte) (s : State) : (deframe l s).cfg = s.cfg := by
  simp [deframe]
@[simp] theorem deframe_mods (l : Byte) (s : State) : (deframe l s).mods = s.mods := by
  simp [deframe]
@[simp] theorem deframe_csN (l : Byte) (s : State) : (deframe l s).csN = s.csN := by
  simp [deframe]
@[simp] theorem deframe_seq (l : Byte) (s : State) : (deframe l s).seq = s.seq := by
  simp [deframe]
@[simp] theorem deframe_hist (l : Byte) (s : State) : (deframe l s).hist = s.hist := by
  simp [deframe]
@[simp] theorem deframe_chips (l : Byte) (s : State) : (deframe l s).chips = s.chips := by
  simp [deframe]
@[simp] theorem deframe_agenda (l : Byte) (s : State) : (deframe l s).agenda = s.agenda := by
  simp [deframe]
@[simp] theorem deframe_hbRdata (l : Byte) (s : State) : (deframe l s).hbRdata = s.hbRdata := by
  simp [deframe]

/-! `placeFrame` -/

@[simp] theorem placeFrame_cfg (bs : List Byte) (s : State) : (placeFrame bs s).cfg = s.cfg := by
  unfold placeFrame; split <;> simp
@[simp] theorem placeFrame_mods (bs : List Byte) (s : State) : (placeFrame bs s).mods = s.mods := by
  unfold placeFrame; split <;> simp
@[simp] theorem placeFrame_csN (bs : List Byte) (s : State) : (placeFrame bs s).csN = s.csN := by
  unfold placeFrame; split <;> simp
@[simp] theorem placeFrame_seq (bs : List Byte) (s : State) : (placeFrame bs s).seq = s.seq := by
  unfold placeFrame; split <;> simp
@[simp] theorem placeFrame_hist (bs : List Byte) (s : State) : (placeFrame bs s).hist = s.hist := by
  unfold placeFrame; split <;> simp
@[simp] theorem placeFrame_chips (bs : List Byte) (s : State) : (placeFrame bs s).chips = s.chips := by
  unfold placeFrame; split <;> simp
@[simp] theorem placeFrame_agenda (bs : List Byte) (s : State) : (placeFrame bs s).agenda = s.agenda := by
  unfold placeFrame; split <;> simp
@[simp] theorem placeFrame_hbRdata (bs : List Byte) (s : State) : (placeFrame bs s).hbRdata = s.hbRdata := by
  unfold placeFrame; split <;> simp

/-! The module a command works on depends on MOD alone. -/

@[simp] theorem moduleOf_record (s : State) (e : Event) : moduleOf (record s e) = moduleOf s := rfl
@[simp] theorem moduleOf_setModRegs (s : State) (m : ModIdx) (r : ModRegs) : moduleOf (setModRegs s m r) = moduleOf s := rfl
@[simp] theorem moduleOf_setLastStatus (s : State) (m : ModIdx) (b : Byte) : moduleOf (setLastStatus s m b) = moduleOf s := rfl
@[simp] theorem moduleOf_setErrcnt (s : State) (m : ModIdx) (c : Byte) : moduleOf (setErrcnt s m c) = moduleOf s := rfl
@[simp] theorem moduleOf_setAsleep (s : State) (m : ModIdx) (b : Bool) : moduleOf (setAsleep s m b) = moduleOf s := rfl
@[simp] theorem moduleOf_csLow (s : State) (m : ModIdx) : moduleOf (csLow s m) = moduleOf s := rfl
@[simp] theorem moduleOf_csHigh (s : State) (m : ModIdx) : moduleOf (csHigh s m) = moduleOf s := rfl
@[simp] theorem moduleOf_setTxn (s : State) (t : Option Txn) : moduleOf (setTxn s t) = moduleOf s := rfl
@[simp] theorem moduleOf_takeSample (s : State) : moduleOf (takeSample s) = moduleOf s := rfl
@[simp] theorem moduleOf_exchange (r : Role) (o : Byte) (s : State) : moduleOf (exchange r o s) = moduleOf s := rfl
@[simp] theorem moduleOf_startCommand (v : Byte) (s : State) : moduleOf (startCommand v s) = moduleOf s := rfl
@[simp] theorem moduleOf_issue (w : Word16) (s : State) : moduleOf (issue w s) = moduleOf s := rfl
@[simp] theorem moduleOf_storeCount (s : State) : moduleOf (storeCount s) = moduleOf s := rfl
@[simp] theorem moduleOf_popTurn (rest : List Turn) (s : State) : moduleOf (popTurn rest s) = moduleOf s := rfl
@[simp] theorem moduleOf_hostRead (a : Byte) (s : State) : moduleOf (hostRead a s) = moduleOf s := rfl
@[simp] theorem moduleOf_pollStatus (rest : List Turn) (s : State) : moduleOf (pollStatus rest s) = moduleOf s := rfl
@[simp] theorem moduleOf_complete (c : Result) (s : State) : moduleOf (complete c s) = moduleOf s := by
  simp [moduleOf]
@[simp] theorem moduleOf_dbufStore (s : State) (i : Nat) (bs : List Byte) : moduleOf (dbufStore s i bs) = moduleOf s := by
  simp [moduleOf]
@[simp] theorem moduleOf_dbufPut (s : State) (i : Nat) (v : Byte) : moduleOf (dbufPut s i v) = moduleOf s := by
  simp [moduleOf]

end Sys2Proof.Laws
end

