-- ==== Sys2Proof/Laws/Storage.lean ====
section
/-! SUPPORT. The laws of banks and of byte storage: read after write, and the canonical form every write keeps. -/

namespace Sys2Proof.Laws

open Sys2Proof Sys2Proof.Machine

@[simp] theorem bankGet_bankSet_same {α : Type} (b : Bank α) (m : ModIdx) (a : α) : bankGet (bankSet b m a) m = a := by
  fin_cases m <;> rfl

theorem bankGet_bankSet_other {α : Type} (b : Bank α) {m k : ModIdx} (a : α) (h : k ≠ m) :
    bankGet (bankSet b m a) k = bankGet b k := by
  fin_cases m <;> fin_cases k <;> first | rfl | exact absurd rfl h

theorem bankGet_bankSet {α : Type} (b : Bank α) (m k : ModIdx) (a : α) :
    bankGet (bankSet b m a) k = if k = m then a else bankGet b k := by
  split
  · next h => subst h; simp
  · next h => exact bankGet_bankSet_other b a h

@[simp] theorem bankGet_sameForAll {α : Type} (a : α) (m : ModIdx) : bankGet (sameForAll a) m = a := by
  fin_cases m <;> rfl

/-- Two banks are equal when every module's value is. -/
theorem bank_ext {α : Type} {b c : Bank α} (h : ∀ m, bankGet b m = bankGet c m) : b = c := by
  obtain ⟨b0, b1, b2, b3⟩ := b
  obtain ⟨c0, c1, c2, c3⟩ := c
  have h0 : b0 = c0 := h 0
  have h1 : b1 = c1 := h 1
  have h2 : b2 = c2 := h 2
  have h3 : b3 = c3 := h 3
  subst h0 h1 h2 h3
  rfl

@[simp] theorem bankSet_bankSet_same {α : Type} (b : Bank α) (m : ModIdx) (x y : α) :
    bankSet (bankSet b m x) m y = bankSet b m y := by
  fin_cases m <;> rfl

@[simp] theorem bankSet_self {α : Type} (b : Bank α) (m : ModIdx) : bankSet b m (bankGet b m) = b := by
  fin_cases m <;> rfl

@[simp] theorem memRead_nil (a : Nat) : memRead [] a = 0 := rfl

/-- An address below every listed one reads as an unlisted one. -/
theorem memRead_of_above {m : Memory} {a k : Nat} (h : memAbove k m = true) (ha : a ≤ k) : memRead m a = 0 := by
  induction m with
  | nil => rfl
  | cons c rest ih =>
    obtain ⟨j, v⟩ := c
    simp only [memAbove, Bool.and_eq_true, decide_eq_true_eq] at h
    simp only [memRead]
    rw [if_neg (by omega)]
    exact ih h.2

/-- Read after write (R50): in a storage in canonical form, the address written reads the byte written, every other one what
it read before. -/
theorem memRead_memWrite {m : Memory} (h : Memory.wf m = true) (a : Nat) (v : Byte) (b : Nat) :
    memRead (memWrite m a v) b = if b = a then v else memRead m b := by
  induction m with
  | nil =>
    simp only [memWrite]
    split
    · next hv => subst hv; simp
    · by_cases hb : b = a
      · subst hb; simp [memRead]
      · simp [memRead, hb, Ne.symm hb]
  | cons c rest ih =>
    obtain ⟨k, w⟩ := c
    simp only [Memory.wf, Bool.and_eq_true, decide_eq_true_eq] at h
    obtain ⟨⟨hw, habove⟩, hrest⟩ := h
    simp only [memWrite]
    by_cases hak : a < k
    · rw [if_pos hak]
      split
      · next hv =>
        subst hv
        by_cases hb : b = a
        · subst hb
          rw [if_pos rfl]
          simp only [memRead]
          rw [if_neg (by omega)]
          exact memRead_of_above habove (by omega)
        · rw [if_neg hb]
      · by_cases hb : b = a
        · subst hb; simp [memRead]
        · rw [if_neg hb]; simp only [memRead]; rw [if_neg (Ne.symm hb)]
    · rw [if_neg hak]
      by_cases hka : a = k
      · subst hka
        rw [if_pos rfl]
        split
        · next hv =>
          subst hv
          by_cases hb : b = a
          · subst hb
            rw [if_pos rfl]
            exact memRead_of_above habove (le_refl _)
          · rw [if_neg hb]; simp only [memRead]; rw [if_neg (Ne.symm hb)]
        · by_cases hb : b = a
          · subst hb; simp [memRead]
          · rw [if_neg hb]; simp only [memRead]; rw [if_neg (Ne.symm hb)]; simp [Ne.symm hb]
      · rw [if_neg hka]
        simp only [memRead]
        by_cases hb : k = b
        · subst hb
          rw [if_pos rfl, if_neg (by omega), if_pos rfl]
        · rw [if_neg hb, ih hrest, if_neg hb]

theorem memAbove_mono {m : Memory} {a b : Nat} (hab : a ≤ b) (h : memAbove b m = true) : memAbove a m = true := by
  induction m with
  | nil => rfl
  | cons c rest ih =>
    obtain ⟨k, v⟩ := c
    simp only [memAbove, Bool.and_eq_true, decide_eq_true_eq] at h ⊢
    exact ⟨by omega, ih h.2⟩

theorem memAbove_memWrite {m : Memory} {a k : Nat} (v : Byte) (h : memAbove k m = true) (ha : k < a) :
    memAbove k (memWrite m a v) = true := by
  induction m with
  | nil => simp only [memWrite]; split <;> simp [memAbove, ha]
  | cons c rest ih =>
    obtain ⟨j, w⟩ := c
    simp only [memAbove, Bool.and_eq_true, decide_eq_true_eq] at h
    simp only [memWrite]
    split
    · split <;> simp [memAbove, h.1, h.2, ha]
    · split
      · split <;> simp [memAbove, h.2, ha]
      · simp [memAbove, h.1, ih h.2]

/-- Every write keeps the canonical form. -/
theorem wf_memWrite {m : Memory} (h : Memory.wf m = true) (a : Nat) (v : Byte) : Memory.wf (memWrite m a v) = true := by
  induction m with
  | nil =>
    simp only [memWrite]
    split
    · rfl
    · next hv => simpa [Memory.wf, memAbove] using hv
  | cons c rest ih =>
    obtain ⟨k, w⟩ := c
    have h0 := h
    simp only [Memory.wf, Bool.and_eq_true, decide_eq_true_eq] at h
    obtain ⟨⟨hw, habove⟩, hrest⟩ := h
    simp only [memWrite]
    split
    · next hak =>
      split
      · exact h0
      · next hv =>
        simp only [Memory.wf, memAbove, Bool.and_eq_true, decide_eq_true_eq]
        exact ⟨⟨hv, hak, memAbove_mono (by omega) habove⟩, ⟨hw, habove⟩, hrest⟩
    · split
      · next hka =>
        subst hka
        split
        · exact hrest
        · next hv =>
          simp only [Memory.wf, Bool.and_eq_true, decide_eq_true_eq]
          exact ⟨⟨hv, habove⟩, hrest⟩
      · simp only [Memory.wf, Bool.and_eq_true, decide_eq_true_eq]
        exact ⟨⟨hw, memAbove_memWrite v habove (by omega)⟩, ih hrest⟩

/-- A write below a bound keeps every listed address below it. -/
theorem memBelow_memWrite {m : Memory} {n a : Nat} (h : memBelow n m = true) (ha : a < n) (v : Byte) :
    memBelow n (memWrite m a v) = true := by
  induction m with
  | nil => simp only [memWrite]; split <;> simp [memBelow, ha]
  | cons c rest ih =>
    obtain ⟨k, w⟩ := c
    have h0 := h
    simp only [memBelow, Bool.and_eq_true, decide_eq_true_eq] at h
    simp only [memWrite]
    split
    · split
      · exact h0
      · simp [memBelow, ha, h.1, h.2]
    · split
      · split
        · exact h.2
        · simp [memBelow, ha, h.2]
      · simp [memBelow, h.1, ih h.2]

/-- An address at or above every listed one's bound reads 0x00. -/
theorem memRead_of_below {m : Memory} {n a : Nat} (h : memBelow n m = true) (ha : n ≤ a) : memRead m a = 0 := by
  induction m with
  | nil => rfl
  | cons c rest ih =>
    obtain ⟨k, w⟩ := c
    simp only [memBelow, Bool.and_eq_true, decide_eq_true_eq] at h
    simp only [memRead]
    rw [if_neg (by omega)]
    exact ih h.2

/-- Storages in canonical form that read the same everywhere are equal. -/
theorem memory_ext {m n : Memory} (hm : Memory.wf m = true) (hn : Memory.wf n = true)
    (h : ∀ a, memRead m a = memRead n a) : m = n := by
  induction m generalizing n with
  | nil =>
    cases n with
    | nil => rfl
    | cons c rest =>
      obtain ⟨k, v⟩ := c
      simp only [Memory.wf, Bool.and_eq_true, decide_eq_true_eq] at hn
      have := h k
      simp [memRead] at this
      exact absurd this.symm hn.1.1
  | cons c rest ih =>
    obtain ⟨k, v⟩ := c
    cases n with
    | nil =>
      simp only [Memory.wf, Bool.and_eq_true, decide_eq_true_eq] at hm
      have := h k
      simp [memRead] at this
      exact absurd this hm.1.1
    | cons d tail =>
      obtain ⟨j, w⟩ := d
      simp only [Memory.wf, Bool.and_eq_true, decide_eq_true_eq] at hm hn
      have hkj : k = j := by
        rcases Nat.lt_trichotomy k j with hlt | heq | hgt
        · have := h k
          simp only [memRead, if_pos] at this
          rw [if_neg (by omega), memRead_of_above hn.1.2 (by omega)] at this
          exact absurd this hm.1.1
        · exact heq
        · have := h j
          simp only [memRead, if_pos] at this
          rw [if_neg (by omega), memRead_of_above hm.1.2 (by omega)] at this
          exact absurd this.symm hn.1.1
      subst hkj
      have hv : v = w := by have := h k; simpa [memRead] using this
      subst hv
      have : rest = tail := by
        apply ih hm.2 hn.2
        intro a
        by_cases ha : a ≤ k
        · rw [memRead_of_above hm.1.2 ha, memRead_of_above hn.1.2 ha]
        · have := h a
          simp only [memRead] at this
          rwa [if_neg (by omega), if_neg (by omega)] at this
      rw [this]

end Sys2Proof.Laws
end

