-- ==== Sys2Proof/Laws/Ops.lean ====
section
/-! SUPPORT. What the shared operations on the state do, said once each: the data buffer (R50), the chip selects and
completion (R221), the chips at the end of a transaction. -/

namespace Sys2Proof.Laws

open Sys2Proof Sys2Proof.Machine

/-! ### The data buffer -/

/-- Read after write in DBUF (R50). -/
theorem dbufAt_dbufPut {s : State} (h : Memory.wf s.dbuf = true) (i : Nat) (v : Byte) (a : Nat) :
    dbufAt (dbufPut s i v) a = if a = i ∧ i < s.cfg.dbufCap then v else dbufAt s a := by
  unfold dbufPut dbufAt
  split
  · next hi => simp [memRead_memWrite h, hi]
  · next hi => simp [hi]

theorem wf_dbufPut {s : State} (h : Memory.wf s.dbuf = true) (i : Nat) (v : Byte) :
    Memory.wf (dbufPut s i v).dbuf = true := by
  unfold dbufPut
  split
  · exact wf_memWrite h i v
  · exact h

theorem memBelow_dbufPut {s : State} (h : memBelow s.cfg.dbufCap s.dbuf = true) (i : Nat) (v : Byte) :
    memBelow s.cfg.dbufCap (dbufPut s i v).dbuf = true := by
  unfold dbufPut
  split
  · next hi => exact memBelow_memWrite h hi v
  · exact h

theorem wf_dbufStore {s : State} (h : Memory.wf s.dbuf = true) (i : Nat) (bs : List Byte) :
    Memory.wf (dbufStore s i bs).dbuf = true := by
  induction bs generalizing s i with
  | nil => exact h
  | cons b bs ih => exact ih (wf_dbufPut h i b) (i + 1)

theorem memBelow_dbufStore {s : State} (h : memBelow s.cfg.dbufCap s.dbuf = true) (i : Nat) (bs : List Byte) :
    memBelow s.cfg.dbufCap (dbufStore s i bs).dbuf = true := by
  induction bs generalizing s i with
  | nil => exact h
  | cons b bs ih => simpa [dbufStore] using ih (s := dbufPut s i b) (by simpa using memBelow_dbufPut h i b) (i + 1)

/-- What DBUF reads after bytes were stored from an index on. -/
theorem dbufAt_dbufStore {s : State} (h : Memory.wf s.dbuf = true) (i : Nat) (bs : List Byte) (a : Nat) :
    dbufAt (dbufStore s i bs) a =
      if i ≤ a ∧ a < i + bs.length ∧ a < s.cfg.dbufCap then bs.getD (a - i) 0 else dbufAt s a := by
  induction bs generalizing s i with
  | nil =>
    rw [if_neg (by simp only [List.length_nil]; omega)]
    rfl
  | cons b bs ih =>
    rw [dbufStore, ih (wf_dbufPut h i b), dbufAt_dbufPut h]
    simp only [dbufPut_cfg, List.length_cons]
    by_cases h1 : i + 1 ≤ a ∧ a < i + 1 + bs.length ∧ a < s.cfg.dbufCap
    · rw [if_pos h1, if_pos (by omega)]
      have : a - i = (a - (i + 1)) + 1 := by omega
      rw [this, List.getD_cons_succ]
    · rw [if_neg h1]
      by_cases h2 : a = i ∧ i < s.cfg.dbufCap
      · rw [if_pos h2, if_pos (by omega), h2.1, Nat.sub_self, List.getD_cons_zero]
      · rw [if_neg h2, if_neg (by omega)]

@[simp] theorem length_dbufFrom (s : State) (i n : Nat) : (dbufFrom s i n).length = n := by
  induction n generalizing i with
  | zero => rfl
  | succ n ih => simp [dbufFrom, ih]

@[simp] theorem length_dbufTake (s : State) (n : Nat) : (dbufTake s n).length = n := length_dbufFrom s 0 n

theorem getD_dbufFrom (s : State) (i n k : Nat) :
    (dbufFrom s i n).getD k 0 = if k < n then dbufAt s (i + k) else 0 := by
  induction n generalizing i k with
  | zero => simp [dbufFrom]
  | succ n ih =>
    cases k with
    | zero => simp [dbufFrom]
    | succ k =>
      rw [dbufFrom, List.getD_cons_succ, ih]
      have : i + 1 + k = i + (k + 1) := by omega
      simp [this]

/-- The bytes of DBUF depend on DBUF alone. -/
theorem dbufFrom_congr {s t : State} (h : t.dbuf = s.dbuf) (i n : Nat) : dbufFrom t i n = dbufFrom s i n := by
  induction n generalizing i with
  | zero => rfl
  | succ n ih => simp [dbufFrom, ih, dbufAt, h]

theorem dbufTake_congr {s t : State} (h : t.dbuf = s.dbuf) (n : Nat) : dbufTake t n = dbufTake s n := dbufFrom_congr h 0 n

/-! ### Chip selects and completion -/

theorem releaseCs_of_high {s : State} {m : ModIdx} (h : bankGet s.csN m = true) : releaseCs s m = s := by
  simp [releaseCs, h]

/-- With every chip select high there is nothing to release. -/
theorem releaseAll_of_high {s : State} (h : s.csN = sameForAll true) : releaseAll s = s := by
  have hm : ∀ m, bankGet s.csN m = true := fun m => by rw [h]; simp
  simp [releaseAll, releaseCs_of_high, hm]

/-- Completion with every chip select high (R221). -/
theorem complete_of_high {s : State} (h : s.csN = sameForAll true) (c : Result) :
    complete c s =
      { s with
        csr := { s.csr with result := c, busy := false, done := true }
        seq := Seq.reset
        hist := s.hist ++ [.done c] } := by
  simp [complete, releaseAll_of_high h, record]

theorem csN_releaseCs (s : State) (m k : ModIdx) :
    bankGet (releaseCs s m).csN k = if k = m then true else bankGet s.csN k := by
  unfold releaseCs
  split
  · next h =>
    split
    · next hk => subst hk; exact h
    · rfl
  · simp [bankGet_bankSet]

/-- Releasing leaves every chip select high. -/
theorem csN_releaseAll (s : State) : (releaseAll s).csN = sameForAll true := by
  apply bank_ext
  intro k
  simp only [releaseAll, csN_releaseCs, bankGet_sameForAll]
  fin_cases k <;> rfl

@[simp] theorem complete_csN (c : Result) (s : State) : (complete c s).csN = sameForAll true := csN_releaseAll s

theorem hist_releaseCs (s : State) (m : ModIdx) :
    (releaseCs s m).hist = s.hist ∨ (releaseCs s m).hist = s.hist ++ [.cs m true] := by
  unfold releaseCs
  split
  · exact .inl rfl
  · exact .inr (by simp)

/-- Releasing only appends to the history, and only chip-select events. -/
theorem hist_releaseAll (s : State) :
    ∃ es, (releaseAll s).hist = s.hist ++ es ∧ ∀ e ∈ es, ∃ m, e = .cs m true := by
  have step : ∀ (t : State) (m : ModIdx), (∃ es, t.hist = s.hist ++ es ∧ ∀ e ∈ es, ∃ m, e = Event.cs m true) →
      ∃ es, (releaseCs t m).hist = s.hist ++ es ∧ ∀ e ∈ es, ∃ m, e = Event.cs m true := by
    rintro t m ⟨es, h, he⟩
    rcases hist_releaseCs t m with h' | h'
    · exact ⟨es, by rw [h', h], he⟩
    · refine ⟨es ++ [.cs m true], by rw [h', h, List.append_assoc], ?_⟩
      intro e hmem
      rcases List.mem_append.mp hmem with hmem | hmem
      · exact he e hmem
      · exact ⟨m, by simpa using hmem⟩
  exact step _ _ (step _ _ (step _ _ (step s 0 ⟨[], by simp, by simp⟩)))

/-- One chip select low: releasing raises it, and the chip behind it sees its transaction end. -/
theorem releaseAll_of_one_low {s : State} {m : ModIdx} (h : s.csN = bankSet (sameForAll true) m false) :
    releaseAll s = csHigh s m := by
  have hg : ∀ k, bankGet s.csN k = if k = m then false else true := by
    intro k; rw [h, bankGet_bankSet]; split <;> simp
  have hlow : releaseCs s m = csHigh s m := by simp [releaseCs, hg]
  have hhigh : ∀ k, bankGet (csHigh s m).csN k = true := by
    intro k
    simp only [csHigh_csN, bankGet_bankSet, hg]
    split <;> rfl
  have hother : ∀ k, k ≠ m → releaseCs s k = s := fun k hk => releaseCs_of_high (by simp [hg, hk])
  have hdone : ∀ k, releaseCs (csHigh s m) k = csHigh s m := fun k => releaseCs_of_high (hhigh k)
  unfold releaseAll
  fin_cases m
  · simp_all
  · simp_all
  · simp_all
  · simp_all


/-! ### The chips' answers (R66, R85) -/

@[simp] theorem chipSample_oracle (h : List Event) (m : ModIdx) : chipSample h m .oracle = (Config.chipReady h m, .oracle) := rfl

@[simp] theorem chipSample_refDev (h : List Event) (m : ModIdx) (d : RefDev) : chipSample h m (.refDev d) = (true, .refDev d) := rfl

@[simp] theorem chipSample_script (h : List Event) (m : ModIdx) (r : Bool) (rs : List Bool) (bs : List Byte) :
    chipSample h m (.script (r :: rs) bs) = (r, .script rs bs) := rfl

@[simp] theorem chipExchange_oracle (p : Params) (h : List Event) (m : ModIdx) (o : Byte) :
    chipExchange p h m o .oracle = (Config.chipByte h m o, .oracle) := rfl

@[simp] theorem chipExchange_refDev (p : Params) (h : List Event) (m : ModIdx) (o : Byte) (d : RefDev) :
    chipExchange p h m o (.refDev d) = ((refExchange p d o).1, .refDev (refExchange p d o).2) := rfl

@[simp] theorem chipExchange_script (p : Params) (h : List Event) (m : ModIdx) (o : Byte) (rs : List Bool) (b : Byte)
    (bs : List Byte) : chipExchange p h m o (.script rs (b :: bs)) = (b, .script rs bs) := rfl

@[simp] theorem chipDeselect_oracle (p : Params) : chipDeselect p .oracle = .oracle := rfl

@[simp] theorem chipDeselect_script (p : Params) (rs : List Bool) (bs : List Byte) :
    chipDeselect p (.script rs bs) = .script rs bs := rfl

end Sys2Proof.Laws
end

