-- ==== Sys2Proof/Laws/Transaction.lean ====
section
/-! SUPPORT. What the primitives of a transaction (R61 to R65) and the shared parts of a command (R172, R225) can do, said
once each: a primitive answers a next state in these cases and with these states only. -/

namespace Sys2Proof.Laws

open Sys2Proof Sys2Proof.Machine

/-! ### The arms of `exec` by kind of row -/

theorem exec_wire {i : Instr} (h : isWire i = true) (s : State) : exec i s = runHeader i s := by
  cases i <;> first | rfl | exact absurd h (by simp [isWire, isCommand, encode])

theorem exec_strobe (k : Strobe) (s : State) : exec (strobeInstr k) s = runStrobe k s := by
  cases k <;> rfl

theorem exec_setState (g : Target) (s : State) : exec (setStateInstr g) s = runSetState g s := by
  cases g <;> rfl

/-- The rows are the header rows, the register commands, STROBE, SET_STATE and the frame commands. -/
theorem instr_cases (i : Instr) :
    isWire i = true ∨ (∃ a, i = .regRead a) ∨ (∃ a, i = .regWrite a) ∨ (∃ a, i = .regWriteVerify a)
    ∨ (∃ k, i = strobeInstr k) ∨ (∃ g, i = setStateInstr g) ∨ (∃ a, i = .txFrame a) ∨ (∃ a, i = .rxFrame a) := by
  cases i
  case regRead a => exact .inr (.inl ⟨a, rfl⟩)
  case regWrite a => exact .inr (.inr (.inl ⟨a, rfl⟩))
  case regWriteVerify a => exact .inr (.inr (.inr (.inl ⟨a, rfl⟩)))
  case strobeSres => exact .inr (.inr (.inr (.inr (.inl ⟨.sres, rfl⟩))))
  case strobeScal => exact .inr (.inr (.inr (.inr (.inl ⟨.scal, rfl⟩))))
  case strobeSrx => exact .inr (.inr (.inr (.inr (.inl ⟨.srx, rfl⟩))))
  case strobeStx => exact .inr (.inr (.inr (.inr (.inl ⟨.stx, rfl⟩))))
  case strobeSfstxon => exact .inr (.inr (.inr (.inr (.inl ⟨.sfstxon, rfl⟩))))
  case strobeSidle => exact .inr (.inr (.inr (.inr (.inl ⟨.sidle, rfl⟩))))
  case strobeSfrx => exact .inr (.inr (.inr (.inr (.inl ⟨.sfrx, rfl⟩))))
  case strobeSftx => exact .inr (.inr (.inr (.inr (.inl ⟨.sftx, rfl⟩))))
  case strobeSpwd => exact .inr (.inr (.inr (.inr (.inl ⟨.spwd, rfl⟩))))
  case strobeSnop => exact .inr (.inr (.inr (.inr (.inl ⟨.snop, rfl⟩))))
  case setStateIdle => exact .inr (.inr (.inr (.inr (.inr (.inl ⟨.idle, rfl⟩)))))
  case setStateRx => exact .inr (.inr (.inr (.inr (.inr (.inl ⟨.rx, rfl⟩)))))
  case setStateTx => exact .inr (.inr (.inr (.inr (.inr (.inl ⟨.tx, rfl⟩)))))
  case setStateFstxon => exact .inr (.inr (.inr (.inr (.inr (.inl ⟨.fstxon, rfl⟩)))))
  case txFrame a => exact .inr (.inr (.inr (.inr (.inr (.inr (.inl ⟨a, rfl⟩))))))
  case rxFrame a => exact .inr (.inr (.inr (.inr (.inr (.inr (.inr ⟨a, rfl⟩))))))
  all_goals exact .inl rfl

theorem isWire_wireStrobe (k : Strobe) : isWire (wireStrobe k) = true := by cases k <;> rfl

theorem codeBytes_wireStrobe (p : Params) (k : Strobe) : codeBytes (encode p (wireStrobe k)) = [p.strobeCode k] := by
  cases k <;> rfl

theorem wireData_wireStrobe (k : Strobe) (s : State) : wireData (wireStrobe k) s = [] := by cases k <;> rfl

theorem wireKeep_wireStrobe (k : Strobe) : wireKeep (wireStrobe k) = false := by cases k <;> rfl

/-- The header of a register access is a short or an extended header row. -/
theorem regHeader_cases (p : Params) (r b : Bool) (addr : Word16) :
    (∃ off : Byte, regHeaderForm p addr = (true, off) ∧ regHeader p r b addr = wireShort r b (off.extractLsb' 0 6))
    ∨ (∃ off, regHeaderForm p addr = (false, off) ∧ regHeader p r b addr = wireExt r b off) := by
  unfold regHeader
  cases regHeaderForm p addr with
  | mk f off => cases f with
    | true => exact .inl ⟨off, rfl, rfl⟩
    | false => exact .inr ⟨off, rfl, rfl⟩

/-- The address check accepts only addresses that R107 gives a header. -/
theorem headerGiven_of_addrCheck {p : Params} {addr : Word16} (h : addrCheck p addr = .ok) : headerGiven p addr := by
  unfold addrCheck at h
  split_ifs at h with h1 h2 h3 h4
  · exact .inl h2
  · exact .inr h4

/-- The header of a register access, bit by bit (R107). -/
theorem encode_regHeader (p : Params) (r b : Bool) (addr : Word16) :
    encode p (regHeader p r b addr) = .wire (headerOfAccess p r b addr) := by
  have hshort : ∀ a, encode p (wireShort r b a) = .wire [hdrByte r b a] := fun a => by cases r <;> cases b <;> rfl
  have hext : ∀ o, encode p (wireExt r b o) = .wire (extHeader p r b o) := fun o => by cases r <;> cases b <;> rfl
  unfold regHeader regHeaderForm headerOfAccess
  split_ifs with h1 h2 h3
  · simp only [hshort]
    congr 3
    exact BitVec.eq_of_getLsbD_eq fun i hi => by simp [addrOff, hi]
  · simp only [hext, extHeader]
  · rw [show Config.unstatedHeader addr = (true, (Config.unstatedHeader addr).2) from Prod.ext h3 rfl]
    exact hshort _
  · rw [show Config.unstatedHeader addr = (false, (Config.unstatedHeader addr).2) from Prod.ext (by simpa using h3) rfl]
    exact hext _

theorem codeBytes_regHeader (p : Params) (r b : Bool) (addr : Word16) :
    codeBytes (encode p (regHeader p r b addr)) = headerOfAccess p r b addr := by
  rw [encode_regHeader]; rfl

theorem isWire_regHeader (p : Params) (r b : Bool) (addr : Word16) : isWire (regHeader p r b addr) = true := by
  rcases regHeader_cases p r b addr with ⟨_, -, h⟩ | ⟨_, -, h⟩ <;> rw [h] <;> cases r <;> cases b <;> rfl

/-- The data phase of a register access (R70, R71). -/
theorem wireData_regHeader (p : Params) (r b : Bool) (addr : Word16) (s : State) :
    wireData (regHeader p r b addr) s =
      if r then List.replicate (if b then lenOperand s else 1) 0 else dbufTake s (if b then lenOperand s else 1) := by
  rcases regHeader_cases p r b addr with ⟨_, -, h⟩ | ⟨_, -, h⟩ <;> rw [h] <;> cases r <;> cases b <;> rfl

theorem wireKeep_regHeader (p : Params) (r b : Bool) (addr : Word16) : wireKeep (regHeader p r b addr) = r := by
  rcases regHeader_cases p r b addr with ⟨_, -, h⟩ | ⟨_, -, h⟩ <;> rw [h] <;> cases r <;> cases b <;> rfl

/-- A header row has one or two header bytes. -/
theorem length_header {i : Instr} (p : Params) (h : isWire i = true) :
    (codeBytes (encode p i)).length = 1 ∨ (codeBytes (encode p i)).length = 2 := by
  cases i <;> first | exact .inl rfl | exact .inr rfl | exact absurd h (by simp [isWire, isCommand, encode])

/-! ### The primitives -/

/-- CsAssert answers exactly when every chip select is high. -/
theorem selectStep_next {t : Txn} {s u : State} (h : selectStep t s = .next u) :
    s.csN = sameForAll true ∧
      u = csLow { s with seq := { s.seq with txn := some { t with pos := .ready }, samples := 0 } } (moduleOf s) := by
  unfold selectStep at h
  split at h
  · next hh => exact ⟨by simpa [allHigh] using hh, by injection h with h; exact h.symm⟩
  · cases h

theorem selectStep_of_high {t : Txn} {s : State} (h : s.csN = sameForAll true) :
    selectStep t s = .next
      (csLow { s with seq := { s.seq with txn := some { t with pos := .ready }, samples := 0 } } (moduleOf s)) := by
  simp [selectStep, allHigh, h]

/-- A step of WaitReady: one more sample, or TIMEOUT. -/
theorem readyStep_next {t : Txn} {s u : State} (h : readyStep t s = .next u) :
    (s.seq.samples < s.cfg.readyMaxSamples ∧
      ((sampleLevel s = true ∧ u = setTxn (takeSample s) (some { t with pos := .hdr }))
        ∨ (sampleLevel s = false ∧ u = takeSample s)))
    ∨ (s.cfg.readyMaxSamples ≤ s.seq.samples ∧ u = complete .timeout s) := by
  unfold readyStep at h
  split at h
  · next hs =>
    injection h with h
    refine .inl ⟨hs, ?_⟩
    split at h
    · next hl => exact .inl ⟨hl, h.symm⟩
    · next hl => exact .inr ⟨by simpa using hl, h.symm⟩
  · next hs =>
    injection h with h
    exact .inr ⟨by omega, h.symm⟩

/-- The header exchange. -/
theorem headerStep_next {hdr : List Byte} {t : Txn} {s u : State} (h : headerStep hdr t s = .next u) :
    bankGet s.csN (moduleOf s) = false ∧
      u = setTxn (setLastStatus (exchange .hdr (hdr.headD 0) s) (moduleOf s) (misoByte s (hdr.headD 0)))
        (some { t with pos := if hdr.length = 2 then .addr2 else .data }) := by
  unfold headerStep at h
  split at h
  · next hh =>
    injection h with h
    exact ⟨by simpa [selected] using hh, h.symm⟩
  · cases h

/-- The exchange of the second header byte. -/
theorem addr2Step_next {hdr : List Byte} {t : Txn} {s u : State} (h : addr2Step hdr t s = .next u) :
    bankGet s.csN (moduleOf s) = false ∧
      u = setTxn (exchange .addr2 (hdr.tail.headD 0) s) (some { t with pos := .data }) := by
  unfold addr2Step at h
  split at h
  · next hh =>
    injection h with h
    exact ⟨by simpa [selected] using hh, h.symm⟩
  · cases h

/-- A data exchange, or CsDeassert. -/
theorem dataStep_next {t : Txn} {s u : State} (h : dataStep t s = .next u) :
    (t.out = [] ∧ u = csHigh { s with seq := { s.seq with txn := none, ret := t.got } } (moduleOf s))
    ∨ (∃ b rest, t.out = b :: rest ∧ bankGet s.csN (moduleOf s) = false ∧
        u = setTxn (exchange .data b s)
          (some { t with out := rest, got := if t.keep then t.got ++ [misoByte s b] else t.got })) := by
  unfold dataStep at h
  split at h
  · next ho =>
    injection h with h
    exact .inl ⟨ho, h.symm⟩
  · next b rest ho =>
    split at h
    · next hh =>
      injection h with h
      exact .inr ⟨b, rest, ho, by simpa [selected] using hh, h.symm⟩
    · cases h

/-- A step of a header row begins its transaction or takes the next primitive of the one in progress. -/
theorem runHeader_next {i : Instr} {s u : State} (h : runHeader i s = .next u) :
    (s.seq.txn = none ∧ selectStep (newTxn i s) s = .next u)
    ∨ (∃ t, s.seq.txn = some t ∧ txnStep (codeBytes (encode s.cfg i)) t s = .next u) := by
  unfold runHeader at h
  split at h
  · next hn => exact .inl ⟨hn, h⟩
  · next t hn => exact .inr ⟨t, hn, h⟩

/-! ### The shared parts of a command -/

/-- A command's step: the host's issue, a failed check, a passed check, or the next primitive of its pseudocode. -/
theorem runCommand_next {i : Instr} {check : State → Option Result} {body : State → Host.Outcome State Fault Refusal}
    {s u : State} (h : runCommand i check body s = .next u) :
    (s.seq.phase = .idle ∧ u = issue (codeWord (encode s.cfg i)) s)
    ∨ (s.seq.phase = .check ∧ ∃ r, check s = some r ∧ u = complete r s)
    ∨ (s.seq.phase = .check ∧ check s = none ∧ u = { s with seq := { s.seq with phase := .run } })
    ∨ (s.seq.phase = .run ∧ body s = .next u) := by
  unfold runCommand at h
  split at h
  · next hp =>
    injection h with h
    exact .inl ⟨hp, h.symm⟩
  · next hp =>
    split at h
    · next r hr =>
      injection h with h
      exact .inr (.inl ⟨hp, r, hr, h.symm⟩)
    · next hr =>
      injection h with h
      exact .inr (.inr (.inl ⟨hp, hr, h.symm⟩))
  · next hp => exact .inr (.inr (.inr ⟨hp, h⟩))

theorem runCommand_run {i : Instr} {check : State → Option Result} {body : State → Host.Outcome State Fault Refusal}
    {s : State} (h : s.seq.phase = .run) : runCommand i check body s = body s := by
  simp [runCommand, h]

theorem runCommand_check {i : Instr} {check : State → Option Result} {body : State → Host.Outcome State Fault Refusal}
    {s : State} (h : s.seq.phase = .check) :
    runCommand i check body s =
      match check s with
      | some r => .next (complete r s)
      | none => .next { s with seq := { s.seq with phase := .run } } := by
  cases hc : check s <;> simp [runCommand, h, hc]

/-- The state after a transaction was begun. -/
def begunState (i : Instr) (c : Cont) (s : State) : State :=
  csLow
    { s with seq := { s.seq with
        cont := c
        samples := 0
        txn := some ⟨codeBytes (encode s.cfg i), wireData i s, wireKeep i, [], .ready⟩ } }
    (moduleOf s)

/-- What a row's data phase sends depends on the operands and DBUF alone. -/
theorem wireData_congr {s t : State} (hd : t.dbuf = s.dbuf) (hc : t.csr = s.csr) (i : Instr) : wireData i t = wireData i s := by
  cases i <;> simp [wireData, lenOperand, hc, dbufTake_congr hd]

theorem beginTxn_of_high {i : Instr} {c : Cont} {s : State} (h : s.csN = sameForAll true) :
    beginTxn i c s = .next (begunState i c s) := by
  unfold beginTxn
  rw [selectStep_of_high (by exact h)]
  congr 1

/-- A command begins a transaction exactly when every chip select is high. -/
theorem beginTxn_next {i : Instr} {c : Cont} {s u : State} (h : beginTxn i c s = .next u) :
    s.csN = sameForAll true ∧ u = begunState i c s := by
  have hh : s.csN = sameForAll true := (selectStep_next h).1
  refine ⟨hh, ?_⟩
  rw [beginTxn_of_high hh] at h
  injection h with h
  exact h.symm

theorem began_begunState (i : Instr) (c : Cont) (s : State) :
    Began (codeBytes (encode s.cfg i)) (wireData i s) (wireKeep i) c s (begunState i c s) where
  seq := rfl
  selects := rfl
  hist := rfl
  csr := rfl
  mods := rfl
  dbuf := fun _ => rfl
  chips := rfl
  cfg := rfl
  agenda := rfl
  hbRdata := rfl

/-- With every chip select high, a command's transaction begins. -/
theorem beginTxn_began {i : Instr} {c : Cont} {s : State} (h : s.csN = sameForAll true) :
    ∃ t, beginTxn i c s = .next t ∧ Began (codeBytes (encode s.cfg i)) (wireData i s) (wireKeep i) c s t :=
  ⟨_, beginTxn_of_high h, began_begunState i c s⟩

/-- With every chip select high, completion is as `Completed` says. -/
theorem completed_complete {s : State} (h : s.csN = sameForAll true) (code : Result) :
    Completed code s.csr s.mods (dbufAt s) s (complete code s) := by
  rw [complete_of_high h]
  exact ⟨rfl, rfl, fun _ => rfl, rfl, rfl, rfl, rfl, rfl, rfl, rfl⟩

/-- The row of R173 is that of a state the poll shows, if it shows one. -/
theorem polledRow_mem {s : State} (h : polledStates s ≠ []) : polledRow s ∈ polledStates s := by
  unfold polledRow
  split
  · next hs => exact absurd hs h
  · next c hs => simp [hs]
  · next cs hs _ =>
    have hl : Config.freeRow s.hist % (polledStates s).length < (polledStates s).length :=
      Nat.mod_lt _ (List.length_pos_iff.mpr h)
    rw [anyRow, List.getD_eq_getElem _ _ hl]
    exact List.getElem_mem hl

/-- A state the poll shows is one whose code the status byte has. -/
theorem mem_polledStates {s : State} {c : ChipState} : c ∈ polledStates s ↔ polledIs s c = true := by
  simp [polledStates, mem_allChipStates]

/-- What a `Sequence` run does after a poll. -/
theorem afterPoll_next {r : SeqRun} {g : Target} {done : State → Host.Outcome State Fault Refusal} {s u : State}
    (h : afterPoll r g done s = .next u) :
    (polledIs s (targetState g) = true ∧ done s = .next u)
    ∨ (polledIs s (targetState g) = false ∧ s.seq.iter = s.csr.maxPolls ∧ u = complete .timeout s)
    ∨ (polledIs s (targetState g) = false ∧ s.seq.iter ≠ s.csr.maxPolls ∧
        ((∃ k, act (polledRow s) g = .strobe k ∧ s.csN = sameForAll true ∧ u = begunState (wireStrobe k) (.acted r) s)
          ∨ (act (polledRow s) g = .wait ∧ u = record { s with seq := { s.seq with cont := .acted r } } .wait))) := by
  unfold afterPoll at h
  split at h
  · next hp => exact .inl ⟨hp, h⟩
  · next hp =>
    replace hp : polledIs s (targetState g) = false := by simpa using hp
    split at h
    · next hi =>
      injection h with h
      exact .inr (.inl ⟨hp, hi, h.symm⟩)
    · next hi =>
      refine .inr (.inr ⟨hp, hi, ?_⟩)
      split at h
      · next k hk => exact .inl ⟨k, hk, beginTxn_next h⟩
      · next hk =>
        refine .inr ⟨hk, ?_⟩
        unfold settleWait at h
        injection h with h
        exact h.symm

theorem beginSequence_next {r : SeqRun} {s u : State} (h : beginSequence r s = .next u) :
    s.csN = sameForAll true ∧
      u = begunState (wireStrobe .snop) (.polled r)
        { s with seq := { s.seq with iter := 0 }, csr := { s.csr with lastPolls := 0 } } :=
  beginTxn_next h

theorem afterAction_next {r : SeqRun} {s u : State} (h : afterAction r s = .next u) :
    s.csN = sameForAll true ∧
      u = begunState (wireStrobe .snop) (.polled r)
        { s with seq := { s.seq with iter := s.seq.iter + 1 }, csr := { s.csr with lastPolls := s.seq.iter + 1 } } :=
  beginTxn_next h

end Sys2Proof.Laws
end

