-- ==== Sys2Proof/Laws/Commands.lean ====
section
/-! SUPPORT. What a step of each command can do after CHECK, said once for each: if its body answers a next state, the place
in the pseudocode was one of these and the next state is this one. -/

namespace Sys2Proof.Laws

open Sys2Proof Sys2Proof.Machine

/-- The body of a command row: what it does after CHECK. A header row has none. -/
def bodyOf (i : Instr) : State → Host.Outcome State Fault Refusal :=
  match i with
  | .regRead _ => regReadBody
  | .regWrite _ => regWriteBody
  | .regWriteVerify _ => regWriteVerifyBody
  | .strobeSres => strobeBody .sres
  | .strobeScal => strobeBody .scal
  | .strobeSrx => strobeBody .srx
  | .strobeStx => strobeBody .stx
  | .strobeSfstxon => strobeBody .sfstxon
  | .strobeSidle => strobeBody .sidle
  | .strobeSfrx => strobeBody .sfrx
  | .strobeSftx => strobeBody .sftx
  | .strobeSpwd => strobeBody .spwd
  | .strobeSnop => strobeBody .snop
  | .setStateIdle => setStateBody .idle
  | .setStateRx => setStateBody .rx
  | .setStateTx => setStateBody .tx
  | .setStateFstxon => setStateBody .fstxon
  | .txFrame _ => txFrameBody
  | .rxFrame _ => rxFrameBody
  | _ => fun s => .next s

/-- Every command row runs CHECK and its body. -/
theorem exec_command {i : Instr} (h : isCommand i = true) (s : State) :
    exec i s = runCommand i (checkOf i) (bodyOf i) s := by
  cases i <;> first | rfl | exact absurd h (by simp [isCommand, encode])

theorem isCommand_or_isWire (i : Instr) : isCommand i = true ∨ isWire i = true := by
  unfold isWire
  cases isCommand i <;> simp

/-- REG_READ. -/
theorem regReadBody_next {s u : State} (h : regReadBody s = .next u) :
    (s.seq.cont = .start ∧ s.csN = sameForAll true ∧
      u = begunState (regHeader s.cfg true (burst (lenOperand s)) (addrOperand s)) .readBack s)
    ∨ (s.seq.cont = .readBack ∧ u = complete .ok (dbufStore s 0 s.seq.ret)) := by
  unfold regReadBody at h
  split at h
  · next hc => exact .inl ⟨hc, beginTxn_next h⟩
  · next hc => injection h with h; exact .inr ⟨hc, h.symm⟩
  · cases h

/-- REG_WRITE. -/
theorem regWriteBody_next {s u : State} (h : regWriteBody s = .next u) :
    (s.seq.cont = .start ∧ s.csN = sameForAll true ∧
      u = begunState (regHeader s.cfg false (burst (lenOperand s)) (addrOperand s)) .written s)
    ∨ (s.seq.cont = .written ∧ u = complete .ok s) := by
  unfold regWriteBody at h
  split at h
  · next hc => exact .inl ⟨hc, beginTxn_next h⟩
  · next hc => injection h with h; exact .inr ⟨hc, h.symm⟩
  · cases h

/-- REG_WRITE_VERIFY. -/
theorem regWriteVerifyBody_next {s u : State} (h : regWriteVerifyBody s = .next u) :
    (s.seq.cont = .start ∧ s.csN = sameForAll true ∧
      u = begunState (regHeader s.cfg false (burst (lenOperand s)) (addrOperand s)) .verifyWritten s)
    ∨ (s.seq.cont = .verifyWritten ∧ s.csN = sameForAll true ∧
      u = begunState (regHeader s.cfg true (burst (lenOperand s)) (addrOperand s)) .verifyRead s)
    ∨ (s.seq.cont = .verifyRead ∧ s.seq.ret = dbufTake s (lenOperand s) ∧ u = complete .ok s)
    ∨ (s.seq.cont = .verifyRead ∧ s.seq.ret ≠ dbufTake s (lenOperand s) ∧
      u = complete .verifyMismatch (setErrcnt s (moduleOf s) (satInc (modRegs s (moduleOf s)).errcnt))) := by
  unfold regWriteVerifyBody at h
  split at h
  · next hc => exact .inl ⟨hc, beginTxn_next h⟩
  · next hc => exact .inr (.inl ⟨hc, beginTxn_next h⟩)
  · next hc =>
    injection h with h
    unfold verifyEnd at h
    split at h
    · next hr => exact .inr (.inr (.inl ⟨hc, hr, h.symm⟩))
    · next hr => exact .inr (.inr (.inr ⟨hc, hr, h.symm⟩))
  · cases h

/-- STROBE. -/
theorem strobeBody_next {k : Strobe} {s u : State} (h : strobeBody k s = .next u) :
    (s.seq.cont = .start ∧ s.csN = sameForAll true ∧ u = begunState (wireStrobe k) .strobed s)
    ∨ (s.seq.cont = .strobed ∧ u = complete .ok (strobeEffect k s)) := by
  unfold strobeBody at h
  split at h
  · next hc => exact .inl ⟨hc, beginTxn_next h⟩
  · next hc => injection h with h; exact .inr ⟨hc, h.symm⟩
  · cases h

/-- The state in which a `Sequence` run polls first (R172). -/
def sequenceStart (s : State) : State :=
  { s with seq := { s.seq with iter := 0 }, csr := { s.csr with lastPolls := 0 } }

/-- The state in which a `Sequence` run polls again (R172). -/
def sequenceAgain (s : State) : State :=
  { s with seq := { s.seq with iter := s.seq.iter + 1 }, csr := { s.csr with lastPolls := s.seq.iter + 1 } }

/-- What a step of a `Sequence` run, between its start and its end, can do. -/
def SequenceStep (r : SeqRun) (g : Target) (s u : State) : Prop :=
  (s.seq.cont = .polled r ∧ polledIs s (targetState g) = false ∧ s.seq.iter = s.csr.maxPolls ∧ u = complete .timeout s)
  ∨ (s.seq.cont = .polled r ∧ polledIs s (targetState g) = false ∧ s.seq.iter ≠ s.csr.maxPolls ∧
      ((∃ k, act (polledRow s) g = .strobe k ∧ s.csN = sameForAll true ∧ u = begunState (wireStrobe k) (.acted r) s)
        ∨ (act (polledRow s) g = .wait ∧ u = record { s with seq := { s.seq with cont := .acted r } } .wait)))
  ∨ (s.seq.cont = .acted r ∧ s.csN = sameForAll true ∧ u = begunState (wireStrobe .snop) (.polled r) (sequenceAgain s))

theorem sequenceStep_of_afterPoll {r : SeqRun} {g : Target} {done : State → Host.Outcome State Fault Refusal} {s u : State}
    (hc : s.seq.cont = .polled r) (h : afterPoll r g done s = .next u) :
    (polledIs s (targetState g) = true ∧ done s = .next u) ∨ SequenceStep r g s u := by
  rcases afterPoll_next h with h | ⟨h1, h2, h3⟩ | ⟨h1, h2, h3⟩
  · exact .inl h
  · exact .inr (.inl ⟨hc, h1, h2, h3⟩)
  · exact .inr (.inr (.inl ⟨hc, h1, h2, h3⟩))

theorem sequenceStep_of_afterAction {r : SeqRun} {g : Target} {s u : State}
    (hc : s.seq.cont = .acted r) (h : afterAction r s = .next u) : SequenceStep r g s u :=
  .inr (.inr ⟨hc, afterAction_next h⟩)

/-- SET_STATE. -/
theorem setStateBody_next {g : Target} {s u : State} (h : setStateBody g s = .next u) :
    (s.seq.cont = .start ∧ s.csN = sameForAll true ∧
      u = begunState (wireStrobe .snop) (.polled .setState) (sequenceStart s))
    ∨ (s.seq.cont = .polled .setState ∧ polledIs s (targetState g) = true ∧
      u = complete .ok (setAsleep s (moduleOf s) false))
    ∨ SequenceStep .setState g s u := by
  unfold setStateBody at h
  split at h
  · next hc => exact .inl ⟨hc, beginSequence_next h⟩
  · next hc =>
    rcases sequenceStep_of_afterPoll hc h with ⟨h1, h2⟩ | h'
    · unfold setStateDone at h2
      injection h2 with h2
      exact .inr (.inl ⟨hc, h1, h2.symm⟩)
    · exact .inr (.inr h')
  · next hc => exact .inr (.inr (sequenceStep_of_afterAction hc h))
  · cases h

/-- TX_FRAME. -/
theorem txFrameBody_next {s u : State} (h : txFrameBody s = .next u) :
    (s.seq.cont = .start ∧ s.csN = sameForAll true ∧
      u = begunState (regHeader s.cfg true false s.cfg.addrNumTxBytes) .txCounted s)
    ∨ (s.seq.cont = .txCounted ∧ countRead s = 0 ∧ s.csN = sameForAll true ∧
      u = begunState (wireStrobe .snop) (.polled .txReady) (sequenceStart s))
    ∨ (s.seq.cont = .txCounted ∧ countRead s ≠ 0 ∧ s.csN = sameForAll true ∧
      u = begunState (wireStrobe .snop) (.polled .txIdle) (sequenceStart s))
    ∨ (s.seq.cont = .polled .txIdle ∧ polledIs s .idle = true ∧ s.csN = sameForAll true ∧
      u = begunState (wireStrobe .sftx) .txFlushed s)
    ∨ (s.seq.cont = .txFlushed ∧ s.csN = sameForAll true ∧
      u = begunState (wireStrobe .snop) (.polled .txReady) (sequenceStart s))
    ∨ (s.seq.cont = .polled .txReady ∧ polledIs s .fstxon = true ∧ s.csN = sameForAll true ∧
      u = begunState .wireTxFifoBurstWrite .txWritten s)
    ∨ (s.seq.cont = .txWritten ∧ s.csN = sameForAll true ∧
      u = begunState (wireStrobe .snop) (.polled .txSend) (sequenceStart s))
    ∨ (s.seq.cont = .polled .txSend ∧ polledIs s .tx = true ∧ u = complete .ok s)
    ∨ SequenceStep .txIdle .idle s u ∨ SequenceStep .txReady .fstxon s u ∨ SequenceStep .txSend .tx s u := by
  unfold txFrameBody at h
  split at h
  · next hc => exact .inl ⟨hc, beginTxn_next h⟩
  · next hc =>
    split at h
    · next h0 => exact .inr (.inl ⟨hc, h0, beginSequence_next h⟩)
    · next h0 => exact .inr (.inr (.inl ⟨hc, h0, beginSequence_next h⟩))
  · next hc =>
    rcases sequenceStep_of_afterPoll hc h with ⟨h1, h2⟩ | h'
    · exact .inr (.inr (.inr (.inl ⟨hc, h1, beginTxn_next h2⟩)))
    · exact .inr (.inr (.inr (.inr (.inr (.inr (.inr (.inr (.inl h'))))))))
  · next hc => exact .inr (.inr (.inr (.inr (.inr (.inr (.inr (.inr (.inl (sequenceStep_of_afterAction hc h)))))))))
  · next hc => exact .inr (.inr (.inr (.inr (.inl ⟨hc, beginSequence_next h⟩))))
  · next hc =>
    rcases sequenceStep_of_afterPoll hc h with ⟨h1, h2⟩ | h'
    · exact .inr (.inr (.inr (.inr (.inr (.inl ⟨hc, h1, beginTxn_next h2⟩)))))
    · exact .inr (.inr (.inr (.inr (.inr (.inr (.inr (.inr (.inr (.inl h')))))))))
  · next hc => exact .inr (.inr (.inr (.inr (.inr (.inr (.inr (.inr (.inr (.inl (sequenceStep_of_afterAction hc h))))))))))
  · next hc => exact .inr (.inr (.inr (.inr (.inr (.inr (.inl ⟨hc, beginSequence_next h⟩))))))
  · next hc =>
    rcases sequenceStep_of_afterPoll hc h with ⟨h1, h2⟩ | h'
    · injection h2 with h2
      exact .inr (.inr (.inr (.inr (.inr (.inr (.inr (.inl ⟨hc, h1, h2.symm⟩)))))))
    · exact .inr (.inr (.inr (.inr (.inr (.inr (.inr (.inr (.inr (.inr h')))))))))
  · next hc => exact .inr (.inr (.inr (.inr (.inr (.inr (.inr (.inr (.inr (.inr (sequenceStep_of_afterAction hc h))))))))))
  · cases h

/-- RX_FRAME. -/
theorem rxFrameBody_next {s u : State} (h : rxFrameBody s = .next u) :
    (s.seq.cont = .start ∧ s.csN = sameForAll true ∧
      u = begunState (regHeader s.cfg true false s.cfg.addrNumRxBytes) .rxCounted s)
    ∨ (s.seq.cont = .rxCounted ∧ countRead s = 0 ∧ u = complete .rxEmpty (storeCount s))
    ∨ (s.seq.cont = .rxCounted ∧ countRead s ≠ 0 ∧ s.csN = sameForAll true ∧
      u = begunState (wireStrobe .snop) .rxPolled (storeCount s))
    ∨ (s.seq.cont = .rxPolled ∧ polledIs s .rxFifoErr = true ∧ s.csN = sameForAll true ∧
      u = begunState (wireStrobe .sfrx) .rxFlushed s)
    ∨ (s.seq.cont = .rxPolled ∧ polledIs s .rxFifoErr = false ∧ s.cfg.fifoDepth < s.csr.rxCount.toNat ∧
      u = complete .rxOversize s)
    ∨ (s.seq.cont = .rxPolled ∧ polledIs s .rxFifoErr = false ∧ s.csr.rxCount.toNat ≤ s.cfg.fifoDepth ∧
      s.csN = sameForAll true ∧ u = begunState .wireRxFifoBurstRead .rxDrained s)
    ∨ (s.seq.cont = .rxFlushed ∧ s.csN = sameForAll true ∧ u = begunState (wireStrobe .srx) .rxRearmed s)
    ∨ (s.seq.cont = .rxRearmed ∧ u = complete .rxFifoErr s)
    ∨ (s.seq.cont = .rxDrained ∧ wellFramed (s.seq.ret.headD 0) s.csr.rxCount = false ∧
      u = complete .rxMalformed (placeFrame s.seq.ret s))
    ∨ (s.seq.cont = .rxDrained ∧ wellFramed (s.seq.ret.headD 0) s.csr.rxCount = true ∧
      u = complete .ok (deframe (s.seq.ret.headD 0) (placeFrame s.seq.ret s))) := by
  unfold rxFrameBody at h
  split at h
  · next hc => exact .inl ⟨hc, beginTxn_next h⟩
  · next hc =>
    split at h
    · next h0 => injection h with h; exact .inr (.inl ⟨hc, h0, h.symm⟩)
    · next h0 =>
      have h' := beginTxn_next h
      exact .inr (.inr (.inl ⟨hc, h0, h'⟩))
  · next hc =>
    split at h
    · next hp => exact .inr (.inr (.inr (.inl ⟨hc, hp, beginTxn_next h⟩)))
    · next hp =>
      replace hp : polledIs s .rxFifoErr = false := by simpa using hp
      split at h
      · next hd => injection h with h; exact .inr (.inr (.inr (.inr (.inl ⟨hc, hp, hd, h.symm⟩))))
      · next hd => exact .inr (.inr (.inr (.inr (.inr (.inl ⟨hc, hp, by omega, beginTxn_next h⟩)))))
  · next hc => exact .inr (.inr (.inr (.inr (.inr (.inr (.inl ⟨hc, beginTxn_next h⟩))))))
  · next hc => injection h with h; exact .inr (.inr (.inr (.inr (.inr (.inr (.inr (.inl ⟨hc, h.symm⟩)))))))
  · next hc =>
    injection h with h
    unfold rxEnd at h
    split at h
    · next hw => exact .inr (.inr (.inr (.inr (.inr (.inr (.inr (.inr (.inr ⟨hc, hw, h.symm⟩))))))))
    · next hw => exact .inr (.inr (.inr (.inr (.inr (.inr (.inr (.inr (.inl ⟨hc, by simpa using hw, h.symm⟩))))))))
  · cases h

/-! ### Beginning and completing, in the words of the statements -/

/-- A command begins a strobe's transaction. -/
theorem began_strobe {k : Strobe} {c : Cont} {s : State} (h : s.csN = sameForAll true) :
    ∃ t, beginTxn (wireStrobe k) c s = .next t ∧ Began [s.cfg.strobeCode k] [] false c s t := by
  obtain ⟨t, ht, hb⟩ := beginTxn_began (i := wireStrobe k) (c := c) h
  rw [codeBytes_wireStrobe, wireData_wireStrobe, wireKeep_wireStrobe] at hb
  exact ⟨t, ht, hb⟩

/-- Placing a frame with at least one byte (R201). -/
theorem placeFrame_cons (l : Byte) (rest : List Byte) (s : State) :
    placeFrame (l :: rest) s =
      dbufStore { s with csr := { s.csr with rxLen := l, rxAddr := rest.headD s.csr.rxAddr } } 0 rest.tail := by
  cases rest <;> rfl

theorem wf_placeFrame {s : State} (h : Memory.wf s.dbuf = true) (f : List Byte) : Memory.wf (placeFrame f s).dbuf = true := by
  cases f with
  | nil => exact h
  | cons l rest => rw [placeFrame_cons]; exact wf_dbufStore (by exact h) _ _

theorem memBelow_placeFrame {s : State} (h : memBelow s.cfg.dbufCap s.dbuf = true) (f : List Byte) :
    memBelow s.cfg.dbufCap (placeFrame f s).dbuf = true := by
  cases f with
  | nil => exact h
  | cons l rest =>
    rw [placeFrame_cons]
    exact memBelow_dbufStore
      (s := { s with csr := { s.csr with rxLen := l, rxAddr := rest.headD s.csr.rxAddr } }) (by exact h) _ _

theorem wf_deframe {s : State} (h : Memory.wf s.dbuf = true) (l : Byte) : Memory.wf (deframe l s).dbuf = true :=
  wf_dbufPut (by exact h) _ _

theorem memBelow_deframe {s : State} (h : memBelow s.cfg.dbufCap s.dbuf = true) (l : Byte) :
    memBelow s.cfg.dbufCap (deframe l s).dbuf = true :=
  memBelow_dbufPut
    (s := { s with
      csr := { s.csr with
        rxRssi := dbufAt s (l.toNat - 1)
        rxStatus2 := dbufAt s l.toNat
        rxLen := l - 1
        pktValid := true
        trailing := decide (l.toNat + 3 < s.csr.rxCount.toNat) } }) (by exact h) _ _

end Sys2Proof.Laws
end

