-- ==== Sys2Proof/Laws/PerInstr.lean ====
section
/-! SUPPORT. A statement about every instruction as a piece of the table, one lemma per constructor: its code under any
parameters is a command word exactly for the host's rows, whose bits 7:4 are 0 and whose opcode is one of 1 to 7 (R100, R101);
for a header row it is one or two header bytes (R65, R106). -/

namespace Sys2Proof.Laws

open Sys2Proof Sys2Proof.Machine

/-- The shape of an instruction's code. -/
def CodeShape.Statement (i : Instr) : Prop :=
  ∀ p : Params,
    (isCommand i = true ∧ ∃ w, encode p i = .cmd w ∧ cmdZero w = 0 ∧ 1 ≤ (cmdOpcode w).toNat ∧ (cmdOpcode w).toNat ≤ 7)
    ∨ (isWire i = true ∧ ∃ bs, encode p i = .wire bs ∧ 1 ≤ bs.length ∧ bs.length ≤ 2)

/-- A row that is a command word. -/
theorem shape_cmd {i : Instr} (hc : isCommand i = true) (op : BitVec 4) (arg : Byte)
    (he : ∀ p, encode p i = .cmd (cmdWord op arg)) (h1 : 1 ≤ op.toNat) (h7 : op.toNat ≤ 7) : CodeShape.Statement i :=
  fun p => .inl ⟨hc, _, he p, cmdZero_cmdWord op arg, by rw [cmdOpcode_cmdWord]; exact ⟨h1, h7⟩⟩

/-- A row with one header byte, and one with two. -/
theorem shape_one {i : Instr} (hw : isWire i = true) (h : Params → Byte) (he : ∀ p, encode p i = .wire [h p]) :
    CodeShape.Statement i :=
  fun p => .inr ⟨hw, _, he p, by simp, by simp⟩

theorem shape_two {i : Instr} (hw : isWire i = true) (h g : Params → Byte) (he : ∀ p, encode p i = .wire [h p, g p]) :
    CodeShape.Statement i :=
  fun p => .inr ⟨hw, _, he p, by simp, by simp⟩

theorem CodeShape.regRead (arg : Byte) : CodeShape.Statement (.regRead arg) :=
  shape_cmd rfl _ _ (fun _ => rfl) (by decide) (by decide)

theorem CodeShape.regWrite (arg : Byte) : CodeShape.Statement (.regWrite arg) :=
  shape_cmd rfl _ _ (fun _ => rfl) (by decide) (by decide)

theorem CodeShape.regWriteVerify (arg : Byte) : CodeShape.Statement (.regWriteVerify arg) :=
  shape_cmd rfl _ _ (fun _ => rfl) (by decide) (by decide)

theorem CodeShape.strobeSres : CodeShape.Statement .strobeSres :=
  shape_cmd rfl _ _ (fun _ => rfl) (by decide) (by decide)

theorem CodeShape.strobeScal : CodeShape.Statement .strobeScal :=
  shape_cmd rfl _ _ (fun _ => rfl) (by decide) (by decide)

theorem CodeShape.strobeSrx : CodeShape.Statement .strobeSrx :=
  shape_cmd rfl _ _ (fun _ => rfl) (by decide) (by decide)

theorem CodeShape.strobeStx : CodeShape.Statement .strobeStx :=
  shape_cmd rfl _ _ (fun _ => rfl) (by decide) (by decide)

theorem CodeShape.strobeSfstxon : CodeShape.Statement .strobeSfstxon :=
  shape_cmd rfl _ _ (fun _ => rfl) (by decide) (by decide)

theorem CodeShape.strobeSidle : CodeShape.Statement .strobeSidle :=
  shape_cmd rfl _ _ (fun _ => rfl) (by decide) (by decide)

theorem CodeShape.strobeSfrx : CodeShape.Statement .strobeSfrx :=
  shape_cmd rfl _ _ (fun _ => rfl) (by decide) (by decide)

theorem CodeShape.strobeSftx : CodeShape.Statement .strobeSftx :=
  shape_cmd rfl _ _ (fun _ => rfl) (by decide) (by decide)

theorem CodeShape.strobeSpwd : CodeShape.Statement .strobeSpwd :=
  shape_cmd rfl _ _ (fun _ => rfl) (by decide) (by decide)

theorem CodeShape.strobeSnop : CodeShape.Statement .strobeSnop :=
  shape_cmd rfl _ _ (fun _ => rfl) (by decide) (by decide)

theorem CodeShape.setStateIdle : CodeShape.Statement .setStateIdle :=
  shape_cmd rfl _ _ (fun _ => rfl) (by decide) (by decide)

theorem CodeShape.setStateRx : CodeShape.Statement .setStateRx :=
  shape_cmd rfl _ _ (fun _ => rfl) (by decide) (by decide)

theorem CodeShape.setStateTx : CodeShape.Statement .setStateTx :=
  shape_cmd rfl _ _ (fun _ => rfl) (by decide) (by decide)

theorem CodeShape.setStateFstxon : CodeShape.Statement .setStateFstxon :=
  shape_cmd rfl _ _ (fun _ => rfl) (by decide) (by decide)

theorem CodeShape.txFrame (pktAddr : Byte) : CodeShape.Statement (.txFrame pktAddr) :=
  shape_cmd rfl _ _ (fun _ => rfl) (by decide) (by decide)

theorem CodeShape.rxFrame (arg : Byte) : CodeShape.Statement (.rxFrame arg) :=
  shape_cmd rfl _ _ (fun _ => rfl) (by decide) (by decide)

theorem CodeShape.wireShortSingleWrite (a : BitVec 6) : CodeShape.Statement (.wireShortSingleWrite a) :=
  shape_one rfl _ fun _ => rfl

theorem CodeShape.wireShortBurstWrite (a : BitVec 6) : CodeShape.Statement (.wireShortBurstWrite a) :=
  shape_one rfl _ fun _ => rfl

theorem CodeShape.wireShortSingleRead (a : BitVec 6) : CodeShape.Statement (.wireShortSingleRead a) :=
  shape_one rfl _ fun _ => rfl

theorem CodeShape.wireShortBurstRead (a : BitVec 6) : CodeShape.Statement (.wireShortBurstRead a) :=
  shape_one rfl _ fun _ => rfl

theorem CodeShape.wireExtSingleWrite (off : Byte) : CodeShape.Statement (.wireExtSingleWrite off) :=
  shape_two rfl _ _ fun _ => rfl

theorem CodeShape.wireExtBurstWrite (off : Byte) : CodeShape.Statement (.wireExtBurstWrite off) :=
  shape_two rfl _ _ fun _ => rfl

theorem CodeShape.wireExtSingleRead (off : Byte) : CodeShape.Statement (.wireExtSingleRead off) :=
  shape_two rfl _ _ fun _ => rfl

theorem CodeShape.wireExtBurstRead (off : Byte) : CodeShape.Statement (.wireExtBurstRead off) :=
  shape_two rfl _ _ fun _ => rfl

theorem CodeShape.wireTxFifoBurstWrite : CodeShape.Statement .wireTxFifoBurstWrite :=
  shape_one rfl _ fun _ => rfl

theorem CodeShape.wireRxFifoBurstRead : CodeShape.Statement .wireRxFifoBurstRead :=
  shape_one rfl _ fun _ => rfl

theorem CodeShape.wireStrobeSres : CodeShape.Statement .wireStrobeSres :=
  shape_one rfl _ fun _ => rfl

theorem CodeShape.wireStrobeScal : CodeShape.Statement .wireStrobeScal :=
  shape_one rfl _ fun _ => rfl

theorem CodeShape.wireStrobeSrx : CodeShape.Statement .wireStrobeSrx :=
  shape_one rfl _ fun _ => rfl

theorem CodeShape.wireStrobeStx : CodeShape.Statement .wireStrobeStx :=
  shape_one rfl _ fun _ => rfl

theorem CodeShape.wireStrobeSfstxon : CodeShape.Statement .wireStrobeSfstxon :=
  shape_one rfl _ fun _ => rfl

theorem CodeShape.wireStrobeSidle : CodeShape.Statement .wireStrobeSidle :=
  shape_one rfl _ fun _ => rfl

theorem CodeShape.wireStrobeSfrx : CodeShape.Statement .wireStrobeSfrx :=
  shape_one rfl _ fun _ => rfl

theorem CodeShape.wireStrobeSftx : CodeShape.Statement .wireStrobeSftx :=
  shape_one rfl _ fun _ => rfl

theorem CodeShape.wireStrobeSpwd : CodeShape.Statement .wireStrobeSpwd :=
  shape_one rfl _ fun _ => rfl

theorem CodeShape.wireStrobeSnop : CodeShape.Statement .wireStrobeSnop :=
  shape_one rfl _ fun _ => rfl

end Sys2Proof.Laws
end

