-- ==== Sys2Proof/Laws/Step.lean ====
section
/-! SUPPORT. What one step of the machine can do: whose turn it was, and what the RSC did in its own. -/

namespace Sys2Proof.Laws

open Sys2Proof Sys2Proof.Machine

/-- What a step of the RSC can do: nothing while idle; the row of the word in ARG and CMD, or the completion of an illegal
word, in CHECK or between transactions; the row of the transaction in progress. -/
theorem rscStep_next {s u : State} (h : rscStep s = .next u) :
    (s.seq.phase = .idle ∧ u = s)
    ∨ ((s.seq.phase = .check ∨ (s.seq.phase = .run ∧ s.seq.txn = none)) ∧
        ((∃ i, decode s.cfg (.cmd (commandWord s)) = .ok i ∧ exec i s = .next u)
          ∨ ∃ why, decode s.cfg (.cmd (commandWord s)) = .error why ∧ u = complete (illegalResult why) s))
    ∨ (s.seq.phase = .run ∧ ∃ t i, s.seq.txn = some t ∧ decode s.cfg (.wire t.hdr) = .ok i ∧ exec i s = .next u) := by
  unfold rscStep fetch at h
  cases hp : s.seq.phase with
  | idle =>
    rw [hp] at h
    injection h with h
    exact .inl ⟨rfl, h.symm⟩
  | check =>
    rw [hp] at h
    refine .inr (.inl ⟨.inl rfl, ?_⟩)
    unfold fetchCommand at h
    cases hd : decode s.cfg (.cmd (commandWord s)) with
    | ok i => simp only [hd] at h; exact .inl ⟨i, rfl, h⟩
    | error why => simp only [hd] at h; injection h with h; exact .inr ⟨why, rfl, h.symm⟩
  | run =>
    rw [hp] at h
    cases ht : s.seq.txn with
    | none =>
      rw [ht] at h
      refine .inr (.inl ⟨.inr ⟨rfl, rfl⟩, ?_⟩)
      unfold fetchCommand at h
      cases hd : decode s.cfg (.cmd (commandWord s)) with
      | ok i => simp only [hd] at h; exact .inl ⟨i, rfl, h⟩
      | error why => simp only [hd] at h; injection h with h; exact .inr ⟨why, rfl, h.symm⟩
    | some t =>
      rw [ht] at h
      unfold fetchHeader at h
      refine .inr (.inr ⟨rfl, t, ?_⟩)
      cases hd : decode s.cfg (.wire t.hdr) with
      | ok i => simp only [hd] at h; exact ⟨i, rfl, rfl, h⟩
      | error why => simp only [hd] at h; cases h

/-- A checked outcome is the outcome itself, and the parameters are ones a model may use. -/
theorem checked_next {p : Params} {o : Host.Outcome State Fault Refusal} {u : State} (h : checked p o = .next u) :
    paramsOk p = true ∧ o = .next u := by
  unfold checked at h
  split at h
  · exact ⟨‹_›, h⟩
  · cases h

@[simp] theorem checked_ok {p : Params} (h : paramsOk p = true) (o : Host.Outcome State Fault Refusal) : checked p o = o := by
  simp [checked, h]

/-- Whose turn a step was, and what that agent did. -/
theorem step_next {s u : State} (h : step s = .next u) :
    paramsOk s.cfg = true ∧
      ((rscTurn s = true ∧ rscStep { s with agenda := s.agenda.tail } = .next u)
      ∨ (∃ op rest, s.agenda = .host op :: rest ∧ u = hostAccess op (popTurn rest s))
      ∨ (∃ rest, s.agenda = .poll :: rest ∧ u = pollStatus rest s)
      ∨ (∃ lost rest, s.agenda = .reset lost :: rest ∧ u = blockReset (popTurn rest s))) := by
  unfold step at h
  split at h
  · next ha =>
    obtain ⟨hp, h⟩ := checked_next h
    refine ⟨hp, .inl ⟨by simp [rscTurn, ha], ?_⟩⟩
    have : ({ s with agenda := s.agenda.tail } : State) = s := by
      obtain ⟨cfg, csr, mods, dbuf, csN, seq, hist, chips, agenda, hb⟩ := s
      simp_all
    rw [this]
    exact h
  · next rest ha =>
    obtain ⟨hp, h⟩ := checked_next h
    refine ⟨hp, .inl ⟨by simp [rscTurn, ha], ?_⟩⟩
    have : ({ s with agenda := s.agenda.tail } : State) = popTurn rest s := by simp [popTurn, ha]
    rw [this]
    exact h
  · next op rest ha =>
    obtain ⟨hp, h⟩ := checked_next h
    injection h with h
    exact ⟨hp, .inr (.inl ⟨op, rest, ha, h.symm⟩)⟩
  · next rest ha =>
    obtain ⟨hp, h⟩ := checked_next h
    injection h with h
    exact ⟨hp, .inr (.inr (.inl ⟨rest, ha, h.symm⟩))⟩
  · next lost rest ha =>
    obtain ⟨hp, h⟩ := checked_next h
    injection h with h
    exact ⟨hp, .inr (.inr (.inr ⟨lost, rest, ha, h.symm⟩))⟩

/-- What a host write can do (R27, R28). -/
theorem hostWrite_cases (a v : Byte) (s : State) :
    (s.csr.busy = true ∧ hostWrite a v s = { s with csr := { s.csr with ovr := true } })
    ∨ (s.csr.busy = false ∧ hostWrite a v s = csrWriteIdle s v (csrAt s.cfg a)) := by
  unfold hostWrite
  cases s.csr.busy <;> simp

end Sys2Proof.Laws
end

