-- ==== Sys2Proof/Tests/Slice0.lean ====
section
/-! SUPPORT. The model's own tests: the well-formedness smoke test, one word of every row decoded, single steps with the
results that the spec's examples and vectors give, and for each obligation with hypotheses a state that meets them. Vector
numbers (V…) are those of 95_test_vectors.md. -/

namespace Sys2Proof.Tests

open Sys2Proof Sys2Proof.Machine

/-! ### Well-formedness: an ill-formed term for each check -/

theorem test_wf_reserved_offset : wellFormed {} (.wireShortSingleRead 0x30) = false := by decide
theorem test_wf_reserved_offset_high : wellFormed {} (.wireShortBurstRead 0x3F) = false := by decide
theorem test_wf_prefix_offset : wellFormed {} (.wireShortSingleWrite 0x2F) = false := by decide
theorem test_wf_strobe_code :
    wellFormed { strobeCodes := { sres := 0x05 } } (.wireShortSingleWrite 0x05) = false := by decide
theorem test_wf_fifo_address : wellFormed { fifoAddr := 0x05 } (.wireShortBurstWrite 0x05) = false := by decide
theorem test_wf_fifo_address_read : wellFormed { fifoAddr := 0x05 } (.wireShortBurstRead 0x05) = false := by decide
theorem test_wf_ok : wellFormed {} (.wireShortSingleWrite 0x2E) = true := by decide

/-! ### Decoding: a word of every row, written out from R101, R104 and R106 to R109 -/

theorem test_decode_register :
    [(0x0001, Instr.regRead 0x00), (0xFF01, .regRead 0xFF), (0x0002, .regWrite 0x00), (0x0003, .regWriteVerify 0x00)].all
      (fun x => decodeTableWord 16 x.1 = some x.2) = true := by decide

theorem test_decode_strobe :
    [(0x0004, Instr.strobeSres), (0x0104, .strobeScal), (0x0204, .strobeSrx), (0x0304, .strobeStx), (0x0404, .strobeSfstxon),
      (0x0504, .strobeSidle), (0x0604, .strobeSfrx), (0x0704, .strobeSftx), (0x0804, .strobeSpwd), (0x0904, .strobeSnop)].all
      (fun x => decodeTableWord 16 x.1 = some x.2) = true := by decide

theorem test_decode_setState :
    [(0x0005, Instr.setStateIdle), (0x0105, .setStateRx), (0x0205, .setStateTx), (0x0305, .setStateFstxon)].all
      (fun x => decodeTableWord 16 x.1 = some x.2) = true := by decide

theorem test_decode_frame :
    [(0x4206, Instr.txFrame 0x42), (0x0006, .txFrame 0x00), (0x0007, .rxFrame 0x00), (0x9907, .rxFrame 0x99)].all
      (fun x => decodeTableWord 16 x.1 = some x.2) = true := by decide

theorem test_decode_header_short :
    [(0x00, Instr.wireShortSingleWrite 0x00), (0x2E, .wireShortSingleWrite 0x2E), (0x4A, .wireShortBurstWrite 0x0A),
      (0x6E, .wireShortBurstWrite 0x2E), (0x90, .wireShortSingleRead 0x10), (0xAE, .wireShortSingleRead 0x2E),
      (0xC0, .wireShortBurstRead 0x00), (0xEE, .wireShortBurstRead 0x2E)].all
      (fun x => decodeTableWord 8 x.1 = some x.2) = true := by decide

theorem test_decode_header_ext :
    [(0x2F0C, Instr.wireExtSingleWrite 0x0C), (0x6F3F, .wireExtBurstWrite 0x3F), (0xAF8F, .wireExtSingleRead 0x8F),
      (0xEFFF, .wireExtBurstRead 0xFF)].all
      (fun x => decodeTableWord 16 x.1 = some x.2) = true := by decide

theorem test_decode_header_fifo :
    decodeTableWord 8 0x7F = some .wireTxFifoBurstWrite ∧ decodeTableWord 8 0xFF = some .wireRxFifoBurstRead := by decide

theorem test_decode_header_strobe :
    [(0x30, Instr.wireStrobeSres), (0x33, .wireStrobeScal), (0x34, .wireStrobeSrx), (0x35, .wireStrobeStx),
      (0x31, .wireStrobeSfstxon), (0x36, .wireStrobeSidle), (0x3A, .wireStrobeSfrx), (0x3B, .wireStrobeSftx),
      (0x39, .wireStrobeSpwd), (0x3D, .wireStrobeSnop)].all
      (fun x => decodeTableWord 8 x.1 = some x.2) = true := by decide

/-- Reserved command words (R103) and arguments out of range (R104), by name. -/
theorem test_decode_refused_words :
    [(0x0000, Reject.reservedOpcode), (0x0008, .reservedOpcode), (0x000F, .reservedOpcode), (0x0011, .nonzeroHighNibble),
      (0x0A04, .strobeIndexOutOfRange), (0x0405, .targetOutOfRange)].all
      (fun x => decide (decode {} (.cmd (BitVec.ofNat 16 x.1)) = .error x.2)) = true := by decide

/-- Headers R111 says are never sent, by name: the single-byte FIFO headers, unused codes, a strobe code with R or B set. -/
theorem test_decode_refused_headers :
    [0x3F, 0xBF, 0x3E, 0xFE, 0x32, 0x37, 0x38, 0x3C, 0xBD, 0x7D].all
      (fun h => decide (decode {} (.wire [BitVec.ofNat 8 h]) = .error .reservedHeader)) = true := by decide

/-! ### Parameters (R12) -/

theorem test_params_default : paramsOk {} = true := by decide
theorem test_params_modules : paramsOk { nModules := 5 } = false := by decide
theorem test_params_payload : paramsOk { maxPayload := 126 } = false := by decide
theorem test_params_strobes : paramsOk { strobeCodes := { sres := 0x3D } } = false := by decide
theorem test_params_stateField : paramsOk { stateHi := 6 } = false := by decide

/-- Sets that R12 allows though they are odd: a byte count among the FIFO-reserved offsets, an extended prefix that leaves the
byte counts in neither space, two states of one code. -/
theorem test_params_odd : [({ addrNumTxBytes := 0x003A } : Params), { extPrefix := 0x2E }, { stateCodes := { tx := 0 } }].all
    paramsOk = true := by decide

/-- The single read of such a byte count is sent with R107's header (R70), and decodes; by default no such header does. -/
theorem test_decode_count : decode { addrNumTxBytes := 0x003A } (.wire [0xBA]) = .ok (.wireShortSingleRead 0x3A)
    ∧ decode { addrNumTxBytes := 0x003A } (.wire [0xFA]) = .error .reservedHeader
    ∧ wellFormed { addrNumTxBytes := 0x003A } (.wireShortSingleRead 0x3A) = true := by decide

/-! ### Single steps, with the results of the spec's examples

`running w c` runs the word `w` at place `c`, with every chip select high. -/

def running (w : Word16) (c : Cont) : State :=
  { State.reset with
    csr := { State.reset.csr with arg := cmdArg w, cmd := cmdLow w, busy := true, result := .pending }
    seq := { Seq.reset with phase := .run, cont := c } }

/-- The same, with a last status byte for module 0. -/
def polledWith (w : Word16) (c : Cont) (b : Byte) : State :=
  { running w c with mods := sameForAll ⟨b, 0, false⟩ }

/-- The word in CHECK. -/
def checking (w : Word16) : State := issue w State.reset

/-- A property of the next state. -/
def nextIs (o : Host.Outcome State Fault Refusal) (p : State → Bool) : Bool :=
  match o with
  | .next t => p t
  | .fault _ => false
  | .refused _ => false

/-- The header bytes of the transaction that has begun, and its data bytes. -/
def sends (t : State) (hdr data : List Byte) : Bool :=
  match t.seq.txn with
  | some x => x.hdr == hdr && x.out == data
  | none => false

/-- R132's example: 0x5A is read. -/
theorem test_regRead :
    nextIs (exec (.regRead 0) { running 0x0001 .readBack with seq := { (running 0x0001 .readBack).seq with ret := [0x5A] } })
      (fun t => dbufAt t 0 == 0x5A && t.csr.result == .ok && t.csr.done && !t.csr.busy) = true := by decide

/-- R132's example: the header and the zero sent. -/
theorem test_regRead_begins :
    let s := running 0x0001 .start
    nextIs (exec (.regRead 0) { s with csr := { s.csr with addrHi := 0x2F, addrLo := 0x8F, len := 1 } })
      (fun t => sends t [0xAF, 0x8F] [0x00]) = true := by decide

/-- R133's example: `4A 12 34`. -/
theorem test_regWrite_begins :
    let s := running 0x0002 .start
    nextIs (exec (.regWrite 0) { s with dbuf := [(0, 0x12), (1, 0x34)], csr := { s.csr with addrLo := 0x0A, len := 2 } })
      (fun t => sends t [0x4A] [0x12, 0x34]) = true := by decide

/-- R134's second example: the read-back 0x00 differs from 0x07, and the count goes up. -/
theorem test_regWriteVerify_mismatch :
    let s := running 0x0003 .verifyRead
    nextIs (exec (.regWriteVerify 0)
        { s with dbuf := [(0, 0x07)], csr := { s.csr with len := 1 }, seq := { s.seq with ret := [0x00] } })
      (fun t => t.csr.result == .verifyMismatch && (modRegs t 0).errcnt == 1 && dbufAt t 0 == 0x07) = true := by decide

/-- R135: at 255 the count stays. -/
theorem test_regWriteVerify_saturates :
    let s := running 0x0003 .verifyRead
    nextIs (exec (.regWriteVerify 0)
        { s with mods := sameForAll ⟨0, 255, false⟩, csr := { s.csr with len := 1 }, seq := { s.seq with ret := [0x01] } })
      (fun t => (modRegs t 0).errcnt == 255) = true := by decide

/-- R108: the wire byte of each strobe. -/
theorem test_strobes_begin :
    [(Instr.strobeSres, (0x30 : Byte)), (.strobeScal, 0x33), (.strobeSrx, 0x34), (.strobeStx, 0x35), (.strobeSfstxon, 0x31),
      (.strobeSidle, 0x36), (.strobeSfrx, 0x3A), (.strobeSftx, 0x3B), (.strobeSpwd, 0x39), (.strobeSnop, 0x3D)].all
      (fun x => nextIs (exec x.1 (running 0x0004 .start)) (fun t => sends t [x.2] [])) = true := by decide

/-- R152 to R161: the asleep flag, from a sleeping module. -/
theorem test_strobes_complete :
    [(Instr.strobeSres, false), (.strobeScal, true), (.strobeSrx, true), (.strobeStx, true), (.strobeSfstxon, true),
      (.strobeSidle, true), (.strobeSfrx, true), (.strobeSftx, true), (.strobeSpwd, true), (.strobeSnop, true)].all
      (fun x => nextIs (exec x.1 { running 0x0004 .strobed with mods := sameForAll ⟨0, 0, true⟩ })
        (fun t => (modRegs t 0).asleep == x.2 && t.csr.result == .ok)) = true := by decide

/-- R160: SPWD sets the flag of an awake module. -/
theorem test_strobeSpwd_sets : nextIs (exec .strobeSpwd (running 0x0804 .strobed)) (fun t => (modRegs t 0).asleep) = true := by
  decide

/-- R173: the strobe each target sends from IDLE (a status byte 0x00), or from RX (0x20). -/
theorem test_setState_acts :
    [(Instr.setStateIdle, (0x20 : Byte), (0x36 : Byte)), (.setStateRx, 0x00, 0x34), (.setStateTx, 0x00, 0x35),
      (.setStateFstxon, 0x00, 0x31), (.setStateIdle, 0xC0, 0x3A), (.setStateRx, 0xE0, 0x3B)].all
      (fun x => nextIs (exec x.1 (polledWith 0x0005 (.polled .setState) x.2.1)) (fun t => sends t [x.2.2] [])) = true := by decide

/-- Log entry 3: where IDLE and TX share a code, both rows of R173 name the target's strobe, and that code is the target
TX's. -/
theorem test_setState_shared_code :
    let s := fun g => { polledWith g (.polled .setState) 0 with cfg := { stateCodes := { tx := 0 } } }
    polledStates (s 0x0205) = [.idle, .tx] ∧ nextIs (exec .setStateTx (s 0x0205)) (fun t => t.csr.result == .ok) = true := by decide

/-- R171, R178: at the target, OK and awake. -/
theorem test_setState_completes :
    [(Instr.setStateIdle, (0x00 : Byte)), (.setStateRx, 0x3F), (.setStateTx, 0x40), (.setStateFstxon, 0x60)].all
      (fun x => nextIs (exec x.1 { polledWith 0x0005 (.polled .setState) 0 with mods := sameForAll ⟨x.2, 3, true⟩ })
        (fun t => t.csr.result == .ok && modRegs t 0 == ⟨x.2, 3, false⟩)) = true := by decide

/-- R190's example: `7F 04 05 11 22 33`. -/
theorem test_txFrame_sends :
    let s := polledWith 0x0506 (.polled .txReady) 0x60
    nextIs (exec (.txFrame 5) { s with dbuf := [(0, 0x11), (1, 0x22), (2, 0x33)], csr := { s.csr with len := 3 } })
      (fun t => sends t [0x7F] [0x04, 0x05, 0x11, 0x22, 0x33]) = true := by decide

/-- R70, R107: a byte count at 0x003A is read with the one header byte `{1, 0, 0x3A}`. -/
theorem test_txFrame_count :
    let s := running 0x0506 .start
    nextIs (exec (.txFrame 5) { s with cfg := { addrNumTxBytes := 0x003A } }) (fun t => sends t [0xBA] [0x00]) = true := by decide

/-- R190: polled in TX, the command is done. -/
theorem test_txFrame_completes :
    nextIs (exec (.txFrame 5) (polledWith 0x0506 (.polled .txSend) 0x40)) (fun t => t.csr.result == .ok && t.csr.done) = true := by
  decide

/-- R196's example (V6-5). -/
theorem test_rxFrame_ok :
    let s := running 0x0007 .rxDrained
    nextIs (exec (.rxFrame 0)
        { s with csr := { s.csr with rxCount := 7 }, seq := { s.seq with ret := [0x04, 0xAA, 0x01, 0x02, 0x03, 0xD0, 0x9F] } })
      (fun t => t.csr.rxLen == 3 && t.csr.rxAddr == 0xAA && t.csr.rxRssi == 0xD0 && t.csr.rxStatus2 == 0x9F
        && csrValue t .rxFlags == 0x03 && csrValue t .rxLqi == 0x1F && dbufTake t 5 == [0x01, 0x02, 0x03, 0x00, 0x9F]) = true := by
  decide

/-- V6-7: a length byte of 0. -/
theorem test_rxFrame_malformed :
    let s := running 0x0007 .rxDrained
    nextIs (exec (.rxFrame 0) { s with csr := { s.csr with rxCount := 4 }, seq := { s.seq with ret := [0x00, 0x33, 0xC5, 0x80] } })
      (fun t => t.csr.result == .rxMalformed && t.csr.rxLen == 0 && t.csr.rxAddr == 0x33 && dbufTake t 3 == [0xC5, 0x80, 0x00]) = true := by
  decide

/-- The state in which module 0's transaction with these header and data bytes is in progress, at a position. -/
def inTxn (w : Word16) (hdr out : List Byte) (keep : Bool) (pos : TxnPos) (c : Chip) : State :=
  { running w .start with
    csN := bankSet (sameForAll true) 0 false
    seq := { (running w .start).seq with txn := some ⟨hdr, out, keep, [], pos⟩ }
    chips := sameForAll c }

/-- R111: the header byte each header row sends is recorded, with the status byte received. -/
theorem test_headers_exchange :
    [(Instr.wireShortSingleWrite 0x10, (0x10 : Byte)), (.wireShortBurstWrite 0x0A, 0x4A), (.wireShortSingleRead 0x10, 0x90),
      (.wireShortBurstRead 0x00, 0xC0), (.wireExtSingleWrite 0x0C, 0x2F), (.wireExtBurstWrite 0x0C, 0x6F),
      (.wireExtSingleRead 0x8F, 0xAF), (.wireExtBurstRead 0x00, 0xEF), (.wireTxFifoBurstWrite, 0x7F), (.wireRxFifoBurstRead, 0xFF),
      (.wireStrobeSres, 0x30), (.wireStrobeScal, 0x33), (.wireStrobeSrx, 0x34), (.wireStrobeStx, 0x35), (.wireStrobeSfstxon, 0x31),
      (.wireStrobeSidle, 0x36), (.wireStrobeSfrx, 0x3A), (.wireStrobeSftx, 0x3B), (.wireStrobeSpwd, 0x39), (.wireStrobeSnop, 0x3D)].all
      (fun x => nextIs (exec x.1 (inTxn 0x0001 [x.2] [] false .hdr (.script [] [0xC5])))
        (fun t => t.hist == [.reset, .xfer 0 .hdr x.2 0xC5] && (modRegs t 0).lastStatus == 0xC5)) = true := by decide

/-- R175: a settle wait records WAIT and sends nothing. -/
theorem test_settle_wait :
    nextIs (exec .setStateRx (polledWith 0x0105 (.polled .setState) 0xA0)) (fun t => t.hist == [.reset, .wait]) = true := by decide

/-- V6-9: one byte, no address. -/
theorem test_rxFrame_one_byte :
    let s := running 0x0007 .rxDrained
    (nextIs (exec (.rxFrame 0) { s with csr := { s.csr with rxCount := 1, rxAddr := 0x77 }, seq := { s.seq with ret := [0x05] } })
      (fun t => t.csr.result == .rxMalformed && t.csr.rxLen == 5 && t.csr.rxAddr == 0x77 && t.dbuf == [])) = true := by decide

/-- V8-2, V8-4, V8-15, V8-17: host writes and what they read back. -/
theorem test_host_write_mod : csrValue (hostWrite 0x01 0xFF State.reset) .mod = 0x03 := by decide
theorem test_host_write_result : csrValue (hostWrite 0x09 0x05 State.reset) .result = 0x00 := by decide
theorem test_host_write_dbuf : csrValue (hostWrite 0xFF 0x55 State.reset) (csrAt {} 0xFF) = 0x55 := by decide
theorem test_host_write_maxPolls : csrValue (hostWrite 0x06 0x00 State.reset) .maxPolls = 0x00 := by decide

/-- V8-16: the reserved word 0x11. -/
theorem test_reserved_word : nextIs (step (checking 0x0011)) (fun t => csrValue t .result == 0x05 && t.csr.cmd == 0x11) = true := by
  decide

/-- V9-3: a reset inside a transaction. -/
theorem test_reset_in_transaction :
    nextIs (step { inTxn 0x0106 [0x7F] [1] false .data .oracle with agenda := [.reset none] })
      (fun t => t.hist == [.reset, .cs 0 true, .reset] && t.csN == sameForAll true && !t.csr.busy && !t.csr.done) = true := by decide

/-- R92: a strobe's transaction that saw CALIBRATE ends it first. -/
theorem test_refDev_transient :
    let d := { RefDev.initial with state := .calibrate, tleft := 1 }
    (refTxn {} d [0x3D]).1 = [0x80] ∧ (refTxn {} d [0x3D]).2.state = .idle := by decide

/-- R89, R88: a write to a count register is ignored, a read of it gives the FIFO's length. -/
theorem test_refDev_count :
    let d := { RefDev.initial with rxfifo := [1, 2, 3] }
    (refTxn {} (refTxn {} d [0x2F, 0xD7, 0x09]).2 [0xAF, 0xD7, 0x00]).1 = [0x00, 0x00, 0x03] := by decide

/-- R86 to R89: data after a strobe code or a FIFO-reserved offset: a read answers 0x00, a write the status byte, and nothing
changes; so too for a byte count at 0x003A (log entry 23). -/
theorem test_refDev_reserved :
    let d := { RefDev.initial with state := .rx, rxfifo := [1, 2], txfifo := [3] }
    refTxn {} d [0xBA, 0x00] = ([0x20, 0x00], d) ∧ refTxn {} d [0xB2, 0x00] = ([0x20, 0x00], d)
      ∧ refTxn {} d [0x3A, 0x77] = ([0x20, 0x20], d) ∧ refTxn { addrNumTxBytes := 0x003A } d [0xBA, 0x00] = ([0x20, 0x00], d) := by
  decide

/-- V2-9: a burst that runs past 0x2E. -/
theorem test_refDev_past_map :
    (refTxn {} { RefDev.initial with regs := [(0x2D, 0x0A), (0x2E, 0x0B)] } [0xED, 0, 0, 0]).1 = [0x00, 0x0A, 0x0B, 0x00] := by decide

/-- R88, R89: a burst over the TX byte count (log entry 30). -/
theorem test_refDev_over_count :
    let d := { RefDev.initial with txfifo := [1, 2] }
    (refTxn {} (refTxn {} d [0x6F, 0xD5, 0x0A, 0x0B]).2 [0xEF, 0xD5, 0, 0]).1 = [0x00, 0x00, 0x0A, 0x02] := by decide

/-- The memory after reset is in canonical form, and a write of 0 removes its entry. -/
theorem test_memory_reset : Memory.wf State.reset.dbuf = true := by decide
theorem test_memory_zero : memWrite [(3, 7)] 3 0 = [] := by decide

/-! ### Witnesses: states that meet the hypotheses of the statements

A check of the invariant that `decide` can run. -/

def invChecks (s : State) : Bool :=
  paramsOk s.cfg && decide (s.csr.busy = true ↔ s.seq.phase ≠ .idle) && !(s.csr.busy && s.csr.done)
  && decide (s.csr.result = .pending ↔ s.csr.busy = true) && decide (s.csN = selectsDue s)
  && decide (s.seq.phase = .idle → s.seq = Seq.reset) && decide (s.seq.phase = .check → s.seq = { Seq.reset with phase := .check })
  && headerKnown s && (decide (s.seq.phase ≠ .run) || commandSound s) && pollsSound s
  && decide (s.seq.samples ≤ s.cfg.readyMaxSamples) && Memory.wf s.dbuf && memBelow s.cfg.dbufCap s.dbuf

theorem inv_of_checks {s : State} (h : invChecks s = true) : Inv s := by
  simp only [invChecks, Bool.and_eq_true, decide_eq_true_eq, Bool.or_eq_true, Bool.not_eq_true', Bool.and_eq_false_iff] at h
  obtain ⟨⟨⟨⟨⟨⟨⟨⟨⟨⟨⟨⟨h1, h2⟩, h3⟩, h4⟩, h5⟩, h6⟩, h7⟩, h8⟩, h9⟩, h10⟩, h11⟩, h12⟩, h13⟩ := h
  refine ⟨h1, h2, ?_, h4, h5, h6, h7, h8, ?_, h10, h11, h12, h13⟩
  · rintro ⟨a, b⟩
    rcases h3 with h3 | h3 <;> simp_all
  · intro hr
    rcases h9 with h9 | h9
    · exact absurd hr h9
    · exact h9

/-- Default parameters but for three modules, with module 3 (which does not exist) or 2 selected. -/
def threeModules (m : BitVec 2) (s : State) : State := { s with cfg := { nModules := 3 }, csr := { s.csr with mod := m } }

/-- A chip that is ready at once, or after one sample, and answers these bytes. -/
def withScript (readys : List Bool) (bytes : List Byte) (s : State) : State := { s with chips := sameForAll (.script readys bytes) }

/-- DecodeInvertsEncode, EncodeInvertsDecode, RegisterHeaderBytes, HeaderRowBytes, ChipStateOfStatus. -/
theorem test_witness_encode : paramsOk {} = true ∧ wellFormed {} (.wireShortSingleWrite 0x2E) = true := by decide
theorem test_witness_decode : paramsOk {} = true ∧ decode {} (.wire [0xAF, 0xFF]) = .ok (.wireExtSingleRead 0xFF) := by decide
theorem test_witness_header_count : paramsOk { addrNumTxBytes := 0x003A } = true
    ∧ addrExt ({ addrNumTxBytes := 0x003A } : Params).addrNumTxBytes = ({ addrNumTxBytes := 0x003A } : Params).shortSpace := by decide
theorem test_witness_header :
    paramsOk {} = true ∧ addrCheck {} 0x002E = .ok ∧ addrCheck {} 0x0000 = .ok ∧ addrCheck {} 0x2F00 = .ok
      ∧ addrCheck {} 0x2FFF = .ok := by decide
theorem test_witness_headerRows : State.reset.cfg = {} ∧ isWire .wireStrobeSnop = true := by decide
theorem test_witness_chipState : paramsOk {} = true ∧ stateIs {} 0xFF .txFifoErr = true ∧ (0xFF : Byte).toNat / 32 = 7 := by decide

/-- StepRunsTheFetchedInstruction: its clauses, refused parameters last. -/
theorem test_witness_step_check :
    rscTurn (checking 0x0904) = true ∧ (checking 0x0904).seq.phase = .check
      ∧ decode {} (.cmd ((checking 0x0904).csr.arg ++ (checking 0x0904).csr.cmd)) = .ok .strobeSnop := by decide
theorem test_witness_step_run :
    rscTurn (running 0x0904 .start) = true ∧ (running 0x0904 .start).seq.txn = none
      ∧ decode {} (.cmd ((running 0x0904 .start).csr.arg ++ (running 0x0904 .start).csr.cmd)) = .ok .strobeSnop := by decide
theorem test_witness_step_txn :
    (inTxn 0x0904 [0x3D] [] false .hdr .oracle).seq.phase = .run ∧ decode {} (.wire [0x3D]) = .ok .wireStrobeSnop := by decide
theorem test_witness_step_idle : rscTurn State.reset = true ∧ State.reset.seq.phase = .idle := by decide

theorem test_witness_step_refused : ¬ R12Holds { nModules := 5 } := fun h => absurd h.modules.2 (by decide)
theorem test_step_refused :
    step { State.reset with cfg := { nModules := 5 }, agenda := [.reset none] } = .refused .badParameters := rfl

/-- StepRunsThePlacedCode. -/
theorem test_witness_placed : paramsOk State.reset.cfg = true ∧ decode State.reset.cfg (.cmd 0x0904) = .ok .strobeSnop := by decide

/-- HostReadFrame, HostAccessWhileBusy, CmdWriteStartsCommand. -/
theorem test_witness_hostRead : paramsOk State.reset.cfg = true
    ∧ ({ State.reset with agenda := [.host (.read 0xFF)] } : State).agenda = .host (.read 0xFF) :: [] := by decide
theorem test_witness_poll : ({ State.reset with agenda := [.poll] } : State).agenda = .poll :: [] ∧ State.reset.csr.done = false
    ∧ ({ State.reset.csr with done := true } : Csrs).done = true := by decide
theorem test_poll :
    nextIs (step { checking 0x0904 with agenda := [.poll] }) (fun t => t.hbRdata == 0x01 && t.agenda == [.rsc, .poll]) = true
    ∧ nextIs (step { State.reset with csr := { State.reset.csr with done := true }, agenda := [.poll, .rsc] })
        (fun t => t.hbRdata == 0x02 && t.agenda == [.rsc]) = true := by decide
theorem test_witness_hostBusy : paramsOk (checking 0x0904).cfg = true ∧ (checking 0x0904).csr.busy = true
    ∧ ({ checking 0x0904 with agenda := [.host (.write 0x00 0x04)] } : State).agenda = .host (.write 0x00 0x04) :: [] := by decide
theorem test_witness_cmdWrite : State.reset.csr.busy = false
    ∧ ({ State.reset with agenda := [.host (.write 0x00 0x04)] } : State).agenda = .host (.write 0x00 0x04) :: [] := by decide

/-- OperandWriteReadsBack, StatusAndErrcntWrites, ReservedAndReadOnlyAddresses (DBUF_CAP below 128), StatusAndFlagViews. -/
theorem test_witness_operands : paramsOk State.reset.cfg = true ∧ State.reset.csr.busy = false
    ∧ (0x06 : Byte) ∈ ([0x00, 0x01, 0x02, 0x03, 0x04, 0x05, 0x06] : List Byte) ∧ (0x09 : Byte) ≠ 0x06 ∧ (0x09 : Byte) < 0x0A
    ∧ ({ State.reset with agenda := [.host (.write 0x06 7)] } : State).agenda = .host (.write 0x06 7) :: [] := by decide
theorem test_step_write :
    nextIs (step { State.reset with agenda := [.host (.write 0x01 0xFF)] }) (fun t => csrValue t .mod == 0x03) = true := by decide
theorem test_witness_errcnt : (threeModules 2 State.reset).csr.busy = false
    ∧ (threeModules 2 State.reset).csr.mod.toNat < (threeModules 2 State.reset).cfg.nModules
    ∧ (threeModules 3 State.reset).cfg.nModules ≤ (threeModules 3 State.reset).csr.mod.toNat := by decide
theorem test_witness_reserved : (0x80 + ({ dbufCap := 127 } : Params).dbufCap ≤ (0xFF : Byte).toNat) ∧ State.reset.csr.busy = false
    ∧ paramsOk { dbufCap := 127, maxPayload := 124, fifoDepth := 128 } = true := by decide

/-- ReservedAndReadOnlyAddresses: a write turn at the ends of each range, idle; reads while a command runs. -/
theorem test_reserved_writes :
    [(0x07 : Byte), 0x0F, 0x17, 0x7F, 0x09, 0x0A, 0x0B, 0x0D, 0x0E, 0x10, 0x16].all (fun a =>
      nextIs (step { State.reset with agenda := [.host (.write a 0xA5)] }) (fun t => t == State.reset)) = true := by decide
theorem test_reserved_reads :
    paramsOk (checking 0x0904).cfg = true ∧ (checking 0x0904).csr.busy = true
    ∧ [(0x07 : Byte), 0x0F, 0x17, 0x7F].all (fun a => csrValue (checking 0x0904) (csrAt {} a) == 0) = true
    ∧ csrValue { State.reset with cfg := { dbufCap := 127 } } (csrAt { dbufCap := 127 } 0xFF) = 0 := by decide

/-- StatusAndFlagViews: operands and both ends of DBUF while a command runs. -/
theorem test_views_busy :
    let s := { checking 0x9906 with dbuf := [(0, 0x11), (127, 0x22)] }
    csrValue s (csrAt {} 0x00) = 0x06 ∧ csrValue s (csrAt {} 0x05) = 0x99 ∧ csrValue s (csrAt {} 0x06) = 0xFF
      ∧ csrValue s (csrAt {} 0x80) = 0x11 ∧ csrValue s (csrAt {} 0xFF) = 0x22 := by decide
theorem test_witness_views : paramsOk { nModules := 3 } = true
    ∧ (threeModules 2 State.reset).csr.mod.toNat < 3 ∧ 3 ≤ (threeModules 3 State.reset).csr.mod.toNat := by decide

/-- DbufReadAfterWrite, at both ends of DBUF. -/
theorem test_witness_dbuf : Inv State.reset ∧ State.reset.csr.busy = false ∧ 0 < State.reset.cfg.dbufCap ∧ 127 < State.reset.cfg.dbufCap :=
  ⟨inv_of_checks (by decide), by decide⟩

/-- BlockResetLeaves: idle, inside a transaction, and inside RefDev's FIFO write, whose bytes stand. -/
theorem test_reset_refDev :
    let d := { RefDev.initial with cur := [0x7F, 0x02], txfifo := [0x02] }
    let s := { inTxn 0x0106 [0x7F] [1] false .data (.refDev d) with agenda := [.reset none] }
    invChecks s = true ∧ bankGet s.csN 0 = false ∧ refTxnStrobe s.cfg d.cur = none
      ∧ nextIs (step s) (fun t => t.chips.m0 == .refDev { d with cur := [] } && t.chips.m1 == .refDev d) = true := by decide

theorem test_witness_reset : Inv { inTxn 0x0904 [0x3D] [] false .hdr .oracle with agenda := [.reset (some (.read 0x08))] } :=
  inv_of_checks (by decide)
theorem test_witness_reset_idle : Inv { State.reset with agenda := [.reset none] } := inv_of_checks (by decide)

/-- InvAtReset. -/
theorem test_witness_powerOn : paramsOk { nModules := 1, readyMaxSamples := 0 } = true := by decide

/-- CompletionEffect, StepKeepsInv, InvMeansNoStop, EveryStepKeepsR54: a transaction that waits for a chip. -/
theorem test_witness_inv : Inv (inTxn 0x0904 [0x3D] [] false .ready (.script [false] [])) := inv_of_checks (by decide)
theorem test_witness_inv_step :
    nextIs (step (inTxn 0x0904 [0x3D] [] false .ready (.script [false] []))) (fun t => t.seq.samples == 1) = true := by decide

/-- AddressCheckCases: each clause at the ends of its range. -/
theorem test_witness_address :
    [((0x0000 : Word16), Result.ok), (0x002E, .ok), (0x002F, .badAddr), (0x0030, .notReady), (0x003F, .notReady), (0x0040, .badAddr),
      (0x00FF, .badAddr), (0x0100, .badAddr), (0x2EFF, .badAddr), (0x2F00, .ok), (0x2F3F, .ok), (0x2FFF, .ok), (0x3000, .badAddr),
      (0xFFFF, .badAddr)].all (fun x => addrCheck {} x.1 = x.2) = true := by decide

/-- A register command in CHECK with an address and a length. -/
def checkingAt (addr : Word16) (n : Byte) : State :=
  { checking 0x0001 with csr := { (checking 0x0001).csr with addrHi := addrExt addr, addrLo := addrOff addr, len := n } }

/-- RegisterCommandCheck: its four clauses. -/
theorem test_witness_check_module : (threeModules 3 (checkingAt 0 1)).cfg.nModules ≤ (threeModules 3 (checkingAt 0 1)).csr.mod.toNat
    ∧ (threeModules 3 (checkingAt 0 1)).seq.phase = .check ∧ (threeModules 3 (checkingAt 0 1)).csN = sameForAll true := by decide
theorem test_witness_check_address : (checkingAt 0x0030 1).csr.mod.toNat < 4
    ∧ addrCheck {} ((checkingAt 0x0030 1).csr.addrHi ++ (checkingAt 0x0030 1).csr.addrLo) ≠ .ok := by decide
theorem test_witness_check_length :
    addrCheck {} ((checkingAt 0x0010 129).csr.addrHi ++ (checkingAt 0x0010 129).csr.addrLo) = .ok
      ∧ 128 < (checkingAt 0x0010 129).csr.len.toNat ∧ (checkingAt 0x0010 0).csr.len = 0 := by decide
theorem test_witness_check_passes :
    addrCheck {} ((checkingAt 0x2FFF 128).csr.addrHi ++ (checkingAt 0x2FFF 128).csr.addrLo) = .ok
      ∧ 1 ≤ (checkingAt 0x2FFF 1).csr.len.toNat ∧ (checkingAt 0x2FFF 128).csr.len.toNat ≤ 128 := by decide

/-- What CHECK does at these states. -/
theorem test_check_register :
    [(threeModules 3 (checkingAt 0x0010 1), Result.badArg), (checkingAt 0x0030 1, .notReady), (checkingAt 0x002F 0, .badAddr),
      (checkingAt 0x0010 0, .badLen), (checkingAt 0x0010 129, .badLen)].all
      (fun x => nextIs (exec (.regRead 0) x.1) (fun t => t.csr.result == x.2 && t.hist == x.1.hist ++ [.done x.2])) = true := by decide

/-- TX_FRAME in CHECK with a payload length, its module asleep or not. -/
def checkingTx (n : Byte) (asleep : Bool) : State :=
  { checking 0x4206 with csr := { (checking 0x4206).csr with len := n }, mods := sameForAll ⟨0, 0, asleep⟩ }

/-- OtherCommandCheck: its clauses. V5-5 to V5-7. -/
theorem test_witness_check_other : isCommand .strobeSnop = true ∧ (checking 0x0904).seq.phase = .check
    ∧ (checking 0x0904).csN = sameForAll true ∧ (threeModules 3 (checking 0x0904)).cfg.nModules ≤ (threeModules 3 (checking 0x0904)).csr.mod.toNat := by
  decide
theorem test_witness_check_tx : ({} : Params).maxPayload < (checkingTx 125 true).csr.len.toNat
    ∧ (checkingTx 124 true).csr.len.toNat ≤ ({} : Params).maxPayload ∧ (modRegs (checkingTx 124 true) 0).asleep = true
    ∧ (modRegs (checkingTx 124 false) 0).asleep = false := by decide
theorem test_check_tx :
    [(checkingTx 125 false, Result.badLen), (checkingTx 1 true, .asleep), (checkingTx 125 true, .badLen)].all
      (fun x => nextIs (exec (.txFrame 0x42) x.1) (fun t => t.csr.result == x.2)) = true := by decide

/-- IllegalWordCompletes: each clause at its bounds. -/
theorem test_witness_illegal : Inv (checking 0x0008) ∧ (checking 0x0008).agenda = [] ∧ (checking 0x0008).seq.phase = .check :=
  ⟨inv_of_checks (by decide), by decide⟩
theorem test_illegal_words :
    [((0x0000 : Word16), Result.badOpcode), (0x0008, .badOpcode), (0x000F, .badOpcode), (0x0011, .badOpcode), (0x00F7, .badOpcode),
      (0x0A04, .badArg), (0xFF04, .badArg), (0x0405, .badArg), (0xFF05, .badArg)].all
      (fun x => nextIs (step (checking x.1)) (fun t => t.csr.result == x.2)) = true := by decide

/-- HeaderRowSelects. -/
theorem test_witness_select : isWire .wireStrobeSnop = true ∧ (running 0x0904 .strobed).csN = sameForAll true
    ∧ (running 0x0904 .strobed).seq.txn = none := by decide

/-- ReadyWaitSamples: the last sample but one, and the deadline. -/
def waiting (n : Nat) : State :=
  let s := inTxn 0x0904 [0x3D] [] false .ready (.script [true] [])
  { s with seq := { s.seq with samples := n } }

theorem test_witness_ready : Inv (waiting 1023) ∧ isWire .wireStrobeSnop = true
    ∧ (waiting 1023).seq.txn = some ⟨[0x3D], [], false, [], .ready⟩
    ∧ chipSample (waiting 1023).hist (moduleOf (waiting 1023)) (bankGet (waiting 1023).chips (moduleOf (waiting 1023)))
      = (true, .script [] [])
    ∧ (waiting 1023).seq.samples < (waiting 1023).cfg.readyMaxSamples :=
  ⟨inv_of_checks (by decide), by decide, by decide, rfl, by decide⟩
theorem test_witness_ready_deadline :
    Inv (waiting 1024) ∧ (waiting 1024).seq.samples = (waiting 1024).cfg.readyMaxSamples :=
  ⟨inv_of_checks (by decide), by decide⟩

/-- HeaderRowExchanges: its four clauses, on a read in the extended space. -/
theorem test_witness_exchange : isWire (.wireExtSingleRead 0x8F) = true
    ∧ codeBytes (encode {} (.wireExtSingleRead 0x8F)) = [0xAF, 0x8F]
    ∧ [(TxnPos.hdr, (0xAF : Byte)), (.addr2, 0x8F), (.data, 0)].all (fun x =>
        let s := inTxn 0x0001 [0xAF, 0x8F] [0] true x.1 (.script [] [0x5A])
        bankGet s.csN (moduleOf s) == false
          && chipExchange s.cfg s.hist (moduleOf s) x.2 (bankGet s.chips (moduleOf s)) == (0x5A, .script [] [])
          && s.seq.txn == some ⟨[0xAF, 0x8F], [0], true, [], x.1⟩) = true := by decide
theorem test_witness_deselect :
    (inTxn 0x0001 [0xAF, 0x8F] [] true .data (.script [] [0x5A])).seq.txn = some ⟨[0xAF, 0x8F], [], true, [], .data⟩ := by decide

/-- WholeTransaction: one false sample, then the header and one data byte. -/
theorem test_witness_transaction :
    let s := withScript (List.replicate 1 false ++ [true]) [0x20, 0x5A] (running 0x0001 .start)
    isWire (.wireShortSingleRead 0x10) = true ∧ s.csN = sameForAll true ∧ s.seq.txn = none
      ∧ codeBytes (encode s.cfg (.wireShortSingleRead 0x10)) = [0x90]
      ∧ [(0x20 : Byte), 0x5A].length = [(0x90 : Byte)].length + (wireData (.wireShortSingleRead 0x10) s).length
      ∧ 1 + 1 ≤ s.cfg.readyMaxSamples ∧ bankGet s.chips (moduleOf s) = .script (List.replicate 1 false ++ [true]) [0x20, 0x5A] := by
  decide

/-- A command runs at a place: what the statements about a command's places ask for. -/
theorem test_atPlace (w : Word16) (c : Cont) : AtPlace c (running w c) := ⟨rfl, rfl, rfl⟩
theorem test_atPlace_polled (w : Word16) (c : Cont) (b : Byte) : AtPlace c (polledWith w c b) := ⟨rfl, rfl, rfl⟩

/-- RegisterCommandsBegin: a single access and the longest burst. -/
def accessAt (c : Cont) (n : Byte) : State :=
  { running 0x0003 c with csr := { (running 0x0003 c).csr with addrHi := 0x2F, addrLo := 0xFF, len := n } }

theorem test_witness_begin : paramsOk (accessAt .start 1).cfg = true ∧ (accessAt .start 1).seq.phase = .run
    ∧ (accessAt .start 1).csN = sameForAll true ∧ (accessAt .start 1).csr.addrHi ++ (accessAt .start 1).csr.addrLo = (0x2FFF : Word16)
    ∧ addrCheck (accessAt .start 1).cfg 0x2FFF = .ok ∧ (accessAt .start 128).csr.len.toNat = 128
    ∧ (accessAt .verifyWritten 1).seq.cont = .verifyWritten := by decide

/-- RegReadCompletes, RegWriteCompletes, RegWriteVerifyCompletes (both clauses). -/
def returned (w : Word16) (c : Cont) (d : List Byte) : State :=
  { running w c with csr := { (running w c).csr with len := BitVec.ofNat 8 d.length }, seq := { (running w c).seq with ret := d } }

theorem test_witness_regRead : Memory.wf (returned 1 .readBack [9]).dbuf = true ∧ AtPlace .readBack (returned 1 .readBack [9])
    ∧ (returned 1 .readBack [9]).seq.ret.length ≤ (returned 1 .readBack [9]).cfg.dbufCap := ⟨by decide, ⟨rfl, rfl, rfl⟩, by decide⟩
theorem test_witness_regWrite : AtPlace .written (running 2 .written) := test_atPlace _ _
theorem test_witness_verify_equal : AtPlace .verifyRead (returned 3 .verifyRead [0])
    ∧ (returned 3 .verifyRead [0]).seq.ret.length = (returned 3 .verifyRead [0]).csr.len.toNat
    ∧ ∀ j, j < 1 → (returned 3 .verifyRead [0]).seq.ret.getD j 0 = dbufAt (returned 3 .verifyRead [0]) j :=
  ⟨⟨rfl, rfl, rfl⟩, by decide, by decide⟩
theorem test_witness_verify_differs : AtPlace .verifyRead (returned 3 .verifyRead [0, 7])
    ∧ (returned 3 .verifyRead [0, 7]).seq.ret.length = (returned 3 .verifyRead [0, 7]).csr.len.toNat
    ∧ (returned 3 .verifyRead [0, 7]).seq.ret.getD 1 0 ≠ dbufAt (returned 3 .verifyRead [0, 7]) 1 :=
  ⟨⟨rfl, rfl, rfl⟩, by decide, by decide⟩

/-- ErrcntNeverWraps, HistoryOnlyGrows, MemoriesStayCanonical, ExecFrameCsrs, ExecFrameModulesAndDbuf: a step that answers. -/
theorem test_witness_next : memoriesWf (checking 0x0904) = true ∧ (checking 0x0904).seq.phase ≠ .idle
    ∧ nextIs (step (checking 0x0904)) (fun t => t.seq.phase == .run) = true
    ∧ nextIs (exec .strobeSnop (checking 0x0904)) (fun t => t.seq.phase == .run) = true := by decide

/-- WholeRegRead and WholeRegWrite: one byte in the extended space, after one false sample. -/
def readyToAccess : State :=
  let s := withScript (List.replicate 1 false ++ [true]) [0x20, 0x00, 0x5A] State.reset
  { s with csr := { s.csr with addrHi := 0x2F, addrLo := 0x8F, len := 1 } }

theorem test_witness_wholeAccess : Inv readyToAccess ∧ readyToAccess.csr.busy = false ∧ readyToAccess.agenda = []
    ∧ readyToAccess.csr.mod.toNat < readyToAccess.cfg.nModules
    ∧ readyToAccess.csr.addrHi ++ readyToAccess.csr.addrLo = (0x2F8F : Word16) ∧ addrCheck readyToAccess.cfg 0x2F8F = .ok
    ∧ readyToAccess.csr.len.toNat = 1 ∧ 1 ≤ readyToAccess.cfg.dbufCap ∧ 1 + 1 ≤ readyToAccess.cfg.readyMaxSamples
    ∧ [(0x20 : Byte), 0x00, 0x5A].length = headerLength readyToAccess.cfg 0x2F8F + 1
    ∧ answers readyToAccess (List.replicate 1 false ++ [true]) [0x20, 0x00, 0x5A] :=
  ⟨inv_of_checks (by decide), by decide, by decide, by decide, by decide, by decide, by decide, by decide, by decide, by decide, rfl⟩

/-- StrobeBeginsAndCompletes and WholeStrobe. -/
theorem test_witness_strobe : AtPlace .start (running 0x0904 .start) ∧ AtPlace .strobed (running 0x0904 .strobed) :=
  ⟨test_atPlace _ _, test_atPlace _ _⟩
theorem test_witness_wholeStrobe :
    let s := withScript (List.replicate 0 false ++ [true]) [0x40] State.reset
    Inv s ∧ s.csr.busy = false ∧ s.agenda = [] ∧ s.csr.mod.toNat < s.cfg.nModules ∧ encode s.cfg (strobeInstr .snop) = .cmd 0x0904
      ∧ 0 + 1 ≤ s.cfg.readyMaxSamples ∧ answers s (List.replicate 0 false ++ [true]) [0x40] :=
  ⟨inv_of_checks (by decide), by decide, by decide, by decide, by decide, by decide, rfl⟩

/-- SequencePolls, SequenceActs (a state for each clause), SequenceTimesOut, SetStateCompletes. -/
theorem test_witness_polls : seqTarget .setStateRx .setState = some .rx ∧ AtPlace .start (running 0x0105 .start)
    ∧ seqTarget (.txFrame 0) .txSend = some .tx ∧ AtPlace (.acted .txSend) (running 0x0006 (.acted .txSend))
    ∧ (running 0x0006 (.acted .txSend)).seq.iter < (running 0x0006 (.acted .txSend)).csr.maxPolls :=
  ⟨by decide, test_atPlace _ _, by decide, test_atPlace _ _, by decide⟩
theorem test_witness_acts :
    [(0x00 : Byte), 0x40, 0x60, 0x80, 0xA0, 0xC0, 0xE0].all (fun b =>
      let s := polledWith 0x0105 (.polled .setState) b
      !polledIs s (targetState .rx) && decide (s.seq.iter ≠ s.csr.maxPolls) && decide ((polledStates s).length = 1)) = true
    ∧ polledIs (polledWith 0x0005 (.polled .setState) 0x20) .rx = true := by decide
theorem test_witness_timesOut :
    let s := polledWith 0x0105 (.polled .setState) 0x00
    AtPlace (.polled .setState) { s with seq := { s.seq with iter := 255 } } ∧ polledIs s (targetState .rx) = false
      ∧ (255 : Byte) = s.csr.maxPolls := ⟨⟨rfl, rfl, rfl⟩, by decide, by decide⟩
theorem test_witness_setState : AtPlace (.polled .setState) (polledWith 0x0105 (.polled .setState) 0x20)
    ∧ polledIs (polledWith 0x0105 (.polled .setState) 0x20) (targetState .rx) = true := ⟨test_atPlace_polled _ _ _, by decide⟩

/-- TxFrameOccupancy and TxFrameSendsAndCompletes: each clause. -/
theorem test_witness_txFrame : paramsOk State.reset.cfg = true ∧ AtPlace .start (running 0x4206 .start)
    ∧ AtPlace .txCounted (returned 0x4206 .txCounted [2]) ∧ AtPlace .txFlushed (running 0x4206 .txFlushed)
    ∧ AtPlace (.polled .txIdle) (polledWith 0x4206 (.polled .txIdle) 0x00)
    ∧ polledIs (polledWith 0x4206 (.polled .txIdle) 0x00) .idle = true :=
  ⟨by decide, test_atPlace _ _, ⟨rfl, rfl, rfl⟩, test_atPlace _ _, test_atPlace_polled _ _ _, by decide⟩
theorem test_witness_txFrame_sends :
    let s := polledWith 0x4206 (.polled .txReady) 0x60
    AtPlace (.polled .txReady) { s with csr := { s.csr with len := 124 } } ∧ (124 : Byte).toNat ≤ s.cfg.maxPayload
      ∧ polledIs s .fstxon = true ∧ AtPlace .txWritten (running 0x4206 .txWritten)
      ∧ polledIs (polledWith 0x4206 (.polled .txSend) 0x40) .tx = true :=
  ⟨⟨rfl, rfl, rfl⟩, by decide, by decide, test_atPlace _ _, by decide⟩

/-- RxFrameCount, RxFrameAfterPoll: each clause, a count of FIFO_DEPTH and one above it. -/
theorem test_witness_rxCount : AtPlace .start (running 7 .start) ∧ AtPlace .rxCounted (returned 7 .rxCounted [0])
    ∧ (returned 7 .rxCounted [0]).seq.ret = [0] ∧ (returned 7 .rxCounted [1]).seq.ret = [1] :=
  ⟨test_atPlace _ _, ⟨rfl, rfl, rfl⟩, rfl, rfl⟩
theorem test_witness_rxPolled : polledIs (polledWith 7 .rxPolled 0xC0) .rxFifoErr = true
    ∧ polledIs (polledWith 7 .rxPolled 0x20) .rxFifoErr = false ∧ AtPlace .rxPolled (polledWith 7 .rxPolled 0x20)
    ∧ ({} : Params).fifoDepth < (129 : Byte).toNat ∧ (128 : Byte).toNat ≤ ({} : Params).fifoDepth
    ∧ AtPlace .rxFlushed (running 7 .rxFlushed) ∧ AtPlace .rxRearmed (running 7 .rxRearmed) :=
  ⟨by decide, by decide, test_atPlace_polled _ _ _, by decide, by decide, test_atPlace _ _, test_atPlace _ _⟩

/-- RxFrameMalformed, RxFrameDeframes: L at the bound L + 3 = count, and one above it. -/
def drained (f : List Byte) : State :=
  { running 7 .rxDrained with
    csr := { (running 7 .rxDrained).csr with rxCount := BitVec.ofNat 8 f.length }
    seq := { (running 7 .rxDrained).seq with ret := f } }

theorem test_witness_malformed : AtPlace .rxDrained (drained [2, 0x33, 0xC5, 0x80]) ∧ Memory.wf (drained [2, 0x33, 0xC5, 0x80]).dbuf = true
    ∧ [(2 : Byte), 0x33, 0xC5, 0x80].length = (drained [2, 0x33, 0xC5, 0x80]).csr.rxCount.toNat
    ∧ ¬ (1 ≤ (2 : Byte).toNat ∧ (2 : Byte).toNat + 3 ≤ (drained [2, 0x33, 0xC5, 0x80]).csr.rxCount.toNat) :=
  ⟨⟨rfl, rfl, rfl⟩, by decide, by decide, by decide⟩
theorem test_witness_deframes : AtPlace .rxDrained (drained [1, 0x33, 0xC5, 0x80]) ∧ (drained [1, 0x33, 0xC5, 0x80]).csr.rxCount.toNat = 4
    ∧ 1 ≤ (1 : Byte).toNat ∧ (1 : Byte).toNat + 3 ≤ (drained [1, 0x33, 0xC5, 0x80]).csr.rxCount.toNat
    ∧ (drained [1, 0x33, 0xC5, 0x80]).csr.rxCount.toNat ≤ (drained [1, 0x33, 0xC5, 0x80]).cfg.fifoDepth :=
  ⟨⟨rfl, rfl, rfl⟩, by decide, by decide, by decide, by decide⟩

/-- WholeRxFrame: section 6.3 of the vectors, a payload of two bytes. -/
theorem test_witness_wholeRxFrame :
    let f := frameBytes 2 0x01 [0xA1, 0xA2] ++ [0xC3, 0x8A]
    let r := List.replicate 0 false ++ true :: (List.replicate 0 false ++ true :: (List.replicate 0 false ++ [true]))
    let s := withScript r ([0x20, 0x20] ++ [2 + 4] ++ [0x20] ++ 0x20 :: f) State.reset
    Inv s ∧ s.csr.busy = false ∧ s.agenda = [] ∧ s.csr.mod.toNat < s.cfg.nModules
      ∧ [(0x20 : Byte), 0x20].length = headerLength s.cfg s.cfg.addrNumRxBytes ∧ 0 + 1 ≤ s.cfg.readyMaxSamples
      ∧ [(0xA1 : Byte), 0xA2].length = (2 : Byte).toNat ∧ (2 : Byte).toNat ≤ s.cfg.maxPayload ∧ (2 : Byte).toNat + 4 ≤ s.cfg.fifoDepth
      ∧ stateIs s.cfg 0x20 .rxFifoErr = false ∧ answers s r ([0x20, 0x20] ++ [2 + 4] ++ [0x20] ++ 0x20 :: f) :=
  ⟨inv_of_checks (by decide), by decide, by decide, by decide, by decide, by decide, by decide, by decide, by decide, by decide, rfl⟩

/-- TxFrameSendsAndCompletes' "only then", and the row taken for a code no state has (SequencePolls). -/
theorem test_witness_txFrame_only :
    let s := polledWith 0x4206 (.polled .txReady) 0x60
    s.seq.phase = .run ∧ s.seq.txn = none ∧ nextIs (exec (.txFrame 0x42) s) (fun t => sends t [0x7F] [1, 0x42]) = true := by decide
theorem test_witness_no_state :
    let s := { polledWith 0x0105 (.polled .setState) 0x20 with cfg := { stateCodes := { rx := 0 } } }
    polledStates s = [] ∧ polledIs s (targetState .rx) = false ∧ s.seq.iter ≠ s.csr.maxPolls := by decide

/-- OperandsHeldWhileBusy: a host write while a command runs. -/
theorem test_witness_busy :
    let s := { checking 0x0904 with agenda := [.host (.write 0x04 5)] }
    Inv s ∧ s.csr.busy = true ∧ resetTurn s = false ∧ rscTurn s = false ∧ nextIs (step s) (fun t => t.csr.ovr) = true :=
  ⟨inv_of_checks (by decide), by decide⟩

/-- SentHeadersAreInTheTable: the step that sends SNOP's header. -/
theorem test_witness_sent :
    let s := inTxn 0x0904 [0x3D] [] false .hdr (.script [] [0x40])
    Inv s ∧ s.cfg = {}
      ∧ nextIs (step s) (fun t => (t.hist.drop s.hist.length).contains (.xfer 0 .hdr 0x3D 0x40)) = true :=
  ⟨inv_of_checks (by decide), rfl, by decide⟩

/-- EveryCommandCompletes: a running STROBE, and SET_STATE in CHECK. -/
theorem test_witness_completes : Inv (checking 0x0904) ∧ (checking 0x0904).agenda = [] ∧ (checking 0x0904).csr.busy = true :=
  ⟨inv_of_checks (by decide), rfl, rfl⟩
theorem test_witness_completes_setState : Inv (checking 0x0105) ∧ (checking 0x0105).seq.phase = .check
    ∧ runningCommand (checking 0x0105) = some (setStateInstr .rx) := ⟨inv_of_checks (by decide), by decide⟩

/-- RefDevEchoes: two bytes at the end of the extended space. -/
theorem test_witness_echo : paramsOk {} = true ∧ Memory.wf RefDev.initial.regs = true ∧ RefDev.initial.cur = []
    ∧ (0xFE : Byte).toNat + [(7 : Byte), 9].length ≤ 256
    ∧ ∀ j, j < 2 → ({} : Params).extPrefix ++ ((0xFE : Byte) + BitVec.ofNat 8 j) ≠ ({} : Params).addrNumTxBytes
        ∧ ({} : Params).extPrefix ++ ((0xFE : Byte) + BitVec.ofNat 8 j) ≠ ({} : Params).addrNumRxBytes := by decide

/-- SetStateReachesTarget: a chip that settles for three transactions, at the bound. -/
theorem test_witness_reaches :
    let d := { RefDev.initial with state := .settling, tleft := 3 }
    let s := { State.reset with chips := sameForAll (.refDev d), csr := { State.reset.csr with maxPolls := 4 } }
    Inv s ∧ s.cfg = {} ∧ s.csr.busy = false ∧ s.agenda = [] ∧ encode s.cfg (setStateInstr .rx) = .cmd 0x0105
      ∧ bankGet s.chips (moduleOf s) = .refDev d ∧ d.cur = [] ∧ d.tnext = .idle ∧ s.csr.maxPolls.toNat ≥ max 2 (d.tleft + 1) :=
  ⟨inv_of_checks (by decide), by decide⟩

end Sys2Proof.Tests
end

section
/-! SUPPORT. The host's turn (R27, R28) and what the addresses of the CSR map read (R25 to R50): the chip-state field of a
status byte, the flag registers, the per-module registers and the window of DBUF. -/

namespace Sys2Proof.Proofs

open Sys2Proof Sys2Proof.Machine Sys2Proof.Laws

/-! ### The host's turn -/

/-- In the host's turn the step is its access. -/
theorem step_host {s : State} {op : HostOp} {rest : List Turn} (hp : paramsOk s.cfg = true)
    (ha : s.agenda = .host op :: rest) : step s = .next (hostAccess op (popTurn rest s)) := by
  simp [step, ha, hp]

/-- A write while a command runs sets OVR, whatever the address and the value (R28). -/
theorem hostWrite_of_busy {s : State} (hb : s.csr.busy = true) (a v : Byte) :
    hostWrite a v s = { s with csr := { s.csr with ovr := true } } := by
  rcases hostWrite_cases a v s with ⟨-, h⟩ | ⟨hidle, -⟩
  · exact h
  · rw [hb] at hidle; cases hidle

/-! ### The parameters (R12) -/

/-- The chip-state field has three bits (R12). -/
theorem stateHi_of_paramsOk {p : Params} (hp : paramsOk p = true) : p.stateHi = p.stateLo + 2 := by
  simp only [paramsOk, Bool.and_eq_true, decide_eq_true_eq] at hp
  tauto

/-- DBUF has at most 128 bytes (R12). -/
theorem dbufCap_of_paramsOk {p : Params} (hp : paramsOk p = true) : p.dbufCap ≤ 128 := by
  simp only [paramsOk, Bool.and_eq_true, decide_eq_true_eq] at hp
  tauto

/-! ### The chip-state field of a status byte (R46, R47) -/

theorem toNat_stateField (p : Params) (b : Byte) : (stateField p b).toNat = b.toNat / 2 ^ p.stateLo % 8 := by
  simp [stateField, Nat.shiftRight_eq_div_pow]

/-- With the bounds of the field as parameters, where R12 makes it three bits wide. -/
theorem toNat_stateField_of_paramsOk {p : Params} (hp : paramsOk p = true) (b : Byte) :
    (stateField p b).toNat = b.toNat / 2 ^ p.stateLo % 2 ^ (p.stateHi - p.stateLo + 1) := by
  have hwidth : p.stateHi - p.stateLo + 1 = 3 := by rw [stateHi_of_paramsOk hp]; omega
  rw [toNat_stateField, hwidth]
  rfl

/-- A status byte shows the states whose code is its field. -/
theorem stateIs_iff (p : Params) (b : Byte) (c : ChipState) :
    stateIs p b c = true ↔ (stateField p b).toNat = (p.stateCode c).toNat := by
  rw [stateIs, beq_iff_eq, BitVec.toNat_inj]

/-- The default codes number the chip states in listing order (R46). -/
theorem getElem?_allChipStates (n : Nat) (c : ChipState) :
    allChipStates[n]? = some c ↔ n = (Params.stateCode {} c).toNat := by
  have hcode : allChipStates[(Params.stateCode {} c).toNat]? = some c := by cases c <;> rfl
  constructor
  · intro h
    obtain ⟨hn, -⟩ := List.getElem?_eq_some_iff.mp h
    exact (List.getElem?_inj hn (by decide)).mp (h.trans hcode.symm)
  · rintro rfl
    exact hcode

/-- Settles O6: the field is three bits wide by R12, and a state is shown when its code is the field. -/
theorem chipStateOfStatus : Obligations.ChipStateOfStatus := by
  unfold Obligations.ChipStateOfStatus
  refine ⟨fun p b hp => ⟨toNat_stateField_of_paramsOk hp b, fun c => ?_⟩, fun b c => ?_⟩
  · rw [stateIs_iff, toNat_stateField_of_paramsOk hp]
  · have hfield : (stateField {} b).toNat = b.toNat / 32 := by
      have hlt : b.toNat / 32 < 8 := Nat.div_lt_of_lt_mul b.isLt
      exact (toNat_stateField {} b).trans (Nat.mod_eq_of_lt hlt)
    rw [stateIs_iff, getElem?_allChipStates, hfield]

/-- Settles O10: a write reaches the bus while BUSY = 1 and sets OVR only; a read is the read of any other time. -/
theorem hostAccessWhileBusy : Obligations.HostAccessWhileBusy := by
  unfold Obligations.HostAccessWhileBusy
  intro s a v rest hp hb
  constructor
  · intro ha
    rw [step_host hp ha, hostAccess, hostWrite_of_busy (by exact hb)]
    rfl
  · intro ha
    rw [step_host hp ha]
    rfl

/-! ### What a read of the CSR map returns -/

/-- Three flags in bits 0 to 2 of a byte, as a number. -/
theorem toNat_flagBits (a b c : Bool) :
    (flagBit a 0 ||| flagBit b 1 ||| flagBit c 2).toNat = a.toNat + 2 * b.toNat + 4 * c.toNat := by
  cases a <;> cases b <;> cases c <;> rfl

theorem toNat_statusByte (c : Csrs) : (statusByte c).toNat = c.busy.toNat + 2 * c.done.toNat + 4 * c.ovr.toNat :=
  toNat_flagBits _ _ _

theorem toNat_rxFlagsByte (c : Csrs) :
    (rxFlagsByte c).toNat =
      c.pktValid.toNat + 2 * (c.pktValid && c.rxStatus2.getLsbD 7).toNat + 4 * c.trailing.toNat :=
  toNat_flagBits _ _ _

theorem toNat_linkQuality (b : Byte) : (linkQuality b).toNat = b.toNat % 128 := by
  rw [linkQuality, BitVec.toNat_and]
  exact Nat.and_two_pow_sub_one_eq_mod b.toNat 7

/-- The addresses of the window at 0x80 (R25, R26, R50). -/
theorem csrAt_of_ge {p : Params} {a : Byte} (h : 0x80 ≤ a.toNat) :
    csrAt p a = if a.toNat < 0x80 + p.dbufCap then .dbuf (a.toNat - 0x80) else .reserved := by
  unfold csrAt
  split
  case h_22 => simp [h]
  all_goals omega

/-- Every byte of DBUF stands at its address of the window. -/
theorem csrAt_dbuf {p : Params} (hp : paramsOk p = true) {i : Nat} (hi : i < p.dbufCap) :
    csrAt p (BitVec.ofNat 8 (0x80 + i)) = .dbuf i := by
  have hcap := dbufCap_of_paramsOk hp
  have ha : (BitVec.ofNat 8 (0x80 + i)).toNat = 0x80 + i := by
    rw [BitVec.toNat_ofNat]
    exact Nat.mod_eq_of_lt (by omega)
  rw [csrAt_of_ge (by omega), ha, if_pos (by omega), Nat.add_sub_cancel_left]

/-- MOD names a module: its registers are read (R31). -/
theorem perModule_of_lt {s : State} (h : s.csr.mod.toNat < s.cfg.nModules) (f : ModRegs → Byte) :
    perModule s f = f (modRegs s (moduleOf s)) := if_pos h

/-- MOD names no module: zero is read (R31). -/
theorem perModule_of_ge {s : State} (h : s.cfg.nModules ≤ s.csr.mod.toNat) (f : ModRegs → Byte) :
    perModule s f = 0 := if_neg (Nat.not_lt.mpr h)

/-- What the four per-module addresses read when MOD names a module (R39 to R42). -/
theorem perModule_views {s : State} (h : s.csr.mod.toNat < s.cfg.nModules) :
    csrValue s .chipStatus = (modRegs s (moduleOf s)).lastStatus
    ∧ (csrValue s .chipState).toNat = (modRegs s (moduleOf s)).lastStatus.toNat / 2 ^ s.cfg.stateLo % 8
    ∧ csrValue s .errcnt = (modRegs s (moduleOf s)).errcnt
    ∧ (csrValue s .modFlags).toNat = (modRegs s (moduleOf s)).asleep.toNat := by
  refine ⟨perModule_of_lt h _, ?state, perModule_of_lt h _, ?flags⟩
  case state =>
    rw [csrValue, perModule_of_lt h, BitVec.toNat_setWidth_of_le (by decide), toNat_stateField]
  case flags =>
    rw [csrValue, perModule_of_lt h]
    cases (modRegs s (moduleOf s)).asleep <;> rfl

/-- What they read when MOD names none (R31). -/
theorem perModule_views_absent {s : State} (h : s.cfg.nModules ≤ s.csr.mod.toNat) :
    csrValue s .chipStatus = 0 ∧ csrValue s .chipState = 0 ∧ csrValue s .errcnt = 0 ∧ csrValue s .modFlags = 0 := by
  simp only [csrValue, perModule_of_ge h, and_self]

/-- Settles O15, address by address: an address with storage of its own reads it by the map alone; the rest are the flag
registers, the window of DBUF, and the per-module views with MOD in range and out of it. -/
theorem statusAndFlagViews : Obligations.StatusAndFlagViews := by
  unfold Obligations.StatusAndFlagViews
  intro s hp
  refine ⟨rfl, ?mod, rfl, rfl, rfl, rfl, rfl, ?dbuf, toNat_statusByte s.csr, ?result, rfl, rfl, rfl, rfl, rfl, rfl,
    toNat_rxFlagsByte s.csr, toNat_linkQuality _, perModule_views, ?absent⟩
  case mod => exact BitVec.toNat_setWidth_of_le (by decide)
  case dbuf =>
    intro i hi
    rw [csrAt_dbuf hp hi]
    rfl
  case result =>
    change (s.csr.result, resultCode s.csr.result) ∈ _
    cases s.csr.result <;> decide
  case absent =>
    intro h a hlo hhi
    obtain ⟨hstatus, hstate, herrcnt, hflags⟩ := perModule_views_absent h
    have ha : a = 0x0A ∨ a = 0x0B ∨ a = 0x0C ∨ a = 0x0D := by bv_omega
    rcases ha with rfl | rfl | rfl | rfl
    · exact hstatus
    · exact hstate
    · exact herrcnt
    · exact hflags

end Sys2Proof.Proofs
end

section
/-! SUPPORT. The invariants of R54: what a step of each agent does to the phase, BUSY, DONE and the chip selects. Every row's
step while a command runs is one of four kinds (`RowStep`), and each of them keeps the five invariants. -/

namespace Sys2Proof.Proofs

open Sys2Proof Sys2Proof.Machine Sys2Proof.Laws

/-! ### Chip selects of which at most one is low -/

/-- At most one chip select is low (R54). -/
def OneLow (b : Bank Bool) : Prop := ∀ m m' : ModIdx, bankGet b m = false → bankGet b m' = false → m = m'

theorem oneLow_allHigh : OneLow (sameForAll true) := fun m _ h _ => by simp at h

/-- CsAssert comes when every chip select is high (R61). -/
theorem oneLow_lower (m : ModIdx) : OneLow (bankSet (sameForAll true) m false) := by
  have honly : ∀ k, bankGet (bankSet (sameForAll true) m false) k = false → k = m := by
    intro k hk
    by_contra hne
    rw [bankGet_bankSet_other _ _ hne, bankGet_sameForAll] at hk
    cases hk
  exact fun j k hj hk => (honly j hj).trans (honly k hk).symm

/-- A select that is low after another was raised was low before. -/
theorem bankGet_of_raise {b : Bank Bool} {m k : ModIdx} (h : bankGet (bankSet b m true) k = false) :
    bankGet b k = false := by
  rw [bankGet_bankSet] at h
  split at h
  · cases h
  · exact h

theorem OneLow.raise {b : Bank Bool} (h : OneLow b) (m : ModIdx) : OneLow (bankSet b m true) :=
  fun j k hj hk => h j k (bankGet_of_raise hj) (bankGet_of_raise hk)

theorem oneLow_selectsDue (s : State) : OneLow (selectsDue s) := by
  unfold selectsDue
  split
  · exact oneLow_allHigh
  · split
    · exact oneLow_allHigh
    · exact oneLow_lower _

/-! ### R54 from the model's invariant, and after completion, a command's start and a reset -/

/-- The error counters are bytes (R49). -/
theorem errcnt_le (s : State) (m : ModIdx) : (modRegs s m).errcnt.toNat ≤ 255 := Nat.le_of_lt_succ (BitVec.isLt _)

/-- An idle sequencer has no transaction, so no chip select is due to be low (R51). -/
theorem csN_of_idle {s : State} (hi : Inv s) (hidle : s.seq.phase = .idle) : s.csN = sameForAll true := by
  rw [hi.selects, selectsDue, hi.idle_clear hidle]
  rfl

theorem r54Holds_of_inv {s : State} (hi : Inv s) : R54Holds s := by
  have hphase : s.seq.phase = .idle ↔ s.csr.busy = false := by
    rw [← Bool.not_eq_true, hi.busy_phase, not_not]
  exact {
    phase_idle := hphase
    one_low := by rw [hi.selects]; exact oneLow_selectsDue s
    idle_high := fun hb m => by rw [csN_of_idle hi (hphase.mpr hb), bankGet_sameForAll]
    busy_done := hi.busy_done
    errcnt := errcnt_le s }

/-- Completion leaves an idle machine with every chip select high, whatever came before (R221). -/
theorem r54Holds_complete (c : Result) (s : State) : R54Holds (complete c s) where
  phase_idle := by simp [Seq.reset]
  one_low := by rw [complete_csN]; exact oneLow_allHigh
  idle_high _ m := by rw [complete_csN, bankGet_sameForAll]
  busy_done := by simp
  errcnt := errcnt_le _

/-- So does a block reset (R250, R251). -/
theorem r54Holds_blockReset (s : State) : R54Holds (blockReset s) where
  phase_idle := by simp [Seq.reset, Csrs.reset]
  one_low := by rw [blockReset_csN]; exact oneLow_allHigh
  idle_high _ m := by rw [blockReset_csN, bankGet_sameForAll]
  busy_done := by simp [Csrs.reset]
  errcnt := errcnt_le _

/-- A command starts in CHECK, with BUSY = 1 and DONE = 0, and moves no chip select (R29). -/
theorem r54Holds_startCommand {s : State} (hs : R54Holds s) (v : Byte) : R54Holds (startCommand v s) where
  phase_idle := by simp [startCommand]
  one_low := hs.one_low
  idle_high := by simp [startCommand]
  busy_done := by simp [startCommand]
  errcnt := errcnt_le _

/-! ### Steps that leave the phase and the flags -/

/-- `u` is idle when `s` is, and has its BUSY and DONE. -/
structure SameFlags (s u : State) : Prop where
  phase_idle : u.seq.phase = .idle ↔ s.seq.phase = .idle
  busy : u.csr.busy = s.csr.busy
  done : u.csr.done = s.csr.done

/-- What is left to show of R54 when the flags stay: the chip selects. -/
theorem r54Holds_of_flags {s u : State} (hs : R54Holds s) (hf : SameFlags s u) (hone : OneLow u.csN)
    (hhigh : s.csr.busy = false → ∀ m, bankGet u.csN m = true) : R54Holds u where
  phase_idle := by rw [hf.phase_idle, hf.busy]; exact hs.phase_idle
  one_low := hone
  idle_high := by rw [hf.busy]; exact hhigh
  busy_done := by rw [hf.busy, hf.done]; exact hs.busy_done
  errcnt := errcnt_le u

theorem r54Holds_of_same {s u : State} (hs : R54Holds s) (hf : SameFlags s u) (hsel : u.csN = s.csN) : R54Holds u :=
  r54Holds_of_flags hs hf (by rw [hsel]; exact hs.one_low) (by rw [hsel]; exact hs.idle_high)

/-! ### What a step of a row can do -/

/-- What a step of a row, taken while a command runs, does to the flags and the chip selects. -/
inductive RowStep (s u : State) : Prop where
  /-- The command completes (R221). -/
  | ends (c : Result) (v : State) (eq : u = complete c v)
  /-- No chip select moves. -/
  | stays (flags : SameFlags s u) (selects : u.csN = s.csN)
  /-- CsAssert (R61). -/
  | lowers (flags : SameFlags s u) (m : ModIdx) (high : s.csN = sameForAll true) (selects : u.csN = bankSet s.csN m false)
  /-- CsDeassert (R65). -/
  | raises (flags : SameFlags s u) (m : ModIdx) (selects : u.csN = bankSet s.csN m true)

/-- Each kind of step keeps R54. -/
theorem r54Holds_of_rowStep {s u : State} (hs : R54Holds s) (hrun : s.seq.phase ≠ .idle) (h : RowStep s u) : R54Holds u := by
  cases h with
  | ends c v eq => rw [eq]; exact r54Holds_complete c v
  | stays flags selects => exact r54Holds_of_same hs flags selects
  | lowers flags m high selects =>
    refine r54Holds_of_flags hs flags ?_ fun hb => absurd (hs.phase_idle.mpr hb) hrun
    rw [selects, high]
    exact oneLow_lower m
  | raises flags m selects =>
    refine r54Holds_of_flags hs flags ?_ fun hb => absurd (hs.phase_idle.mpr hb) hrun
    rw [selects]
    exact OneLow.raise hs.one_low m

/-- A command begins a transaction: its first primitive is CsAssert (R15). The state it begins from may differ from the one
before the step, `v` from `s`, in counters and CSRs. -/
theorem RowStep.begins {s v u : State} {i : Instr} {c : Cont} (hf : SameFlags s v) (hsel : v.csN = s.csN)
    (high : s.csN = sameForAll true) (hu : u = begunState i c v) : RowStep s u := by
  subst hu
  refine .lowers ⟨hf.phase_idle, hf.busy, hf.done⟩ (moduleOf v) high ?_
  rw [(began_begunState i c v).selects, hsel]

theorem SameFlags.refl (s : State) : SameFlags s s := ⟨Iff.rfl, rfl, rfl⟩

theorem sameFlags_sequenceStart (s : State) : SameFlags s (sequenceStart s) := ⟨Iff.rfl, rfl, rfl⟩

theorem sameFlags_sequenceAgain (s : State) : SameFlags s (sequenceAgain s) := ⟨Iff.rfl, rfl, rfl⟩

theorem sameFlags_storeCount (s : State) : SameFlags s (storeCount s) := ⟨Iff.rfl, rfl, rfl⟩

/-! The header rows: one primitive of a transaction (R61 to R65). -/

theorem rowStep_of_select {t : Txn} {s u : State} (h : selectStep t s = .next u) : RowStep s u := by
  obtain ⟨high, rfl⟩ := selectStep_next h
  exact .lowers ⟨Iff.rfl, rfl, rfl⟩ _ high rfl

theorem rowStep_of_txnStep {hdr : List Byte} {t : Txn} {s u : State} (h : txnStep hdr t s = .next u) : RowStep s u := by
  unfold txnStep at h
  cases hpos : t.pos with
  | select =>
    rw [hpos] at h
    exact rowStep_of_select h
  | ready =>
    rw [hpos] at h
    rcases readyStep_next h with ⟨-, ⟨-, rfl⟩ | ⟨-, rfl⟩⟩ | ⟨-, rfl⟩
    · exact .stays ⟨Iff.rfl, rfl, rfl⟩ rfl
    · exact .stays ⟨Iff.rfl, rfl, rfl⟩ rfl
    · exact .ends _ _ rfl
  | hdr =>
    rw [hpos] at h
    obtain ⟨-, rfl⟩ := headerStep_next h
    exact .stays ⟨Iff.rfl, rfl, rfl⟩ rfl
  | addr2 =>
    rw [hpos] at h
    obtain ⟨-, rfl⟩ := addr2Step_next h
    exact .stays ⟨Iff.rfl, rfl, rfl⟩ rfl
  | data =>
    rw [hpos] at h
    rcases dataStep_next h with ⟨-, rfl⟩ | ⟨b, rest, -, -, rfl⟩
    · exact .raises ⟨Iff.rfl, rfl, rfl⟩ _ rfl
    · exact .stays ⟨Iff.rfl, rfl, rfl⟩ rfl

theorem rowStep_of_runHeader {i : Instr} {s u : State} (h : runHeader i s = .next u) : RowStep s u := by
  rcases runHeader_next h with ⟨-, h⟩ | ⟨t, -, h⟩
  · exact rowStep_of_select h
  · exact rowStep_of_txnStep h

/-! The command rows: the bodies of the pseudocode, then CHECK. -/

theorem rowStep_of_sequenceStep {r : SeqRun} {g : Target} {s u : State} (h : SequenceStep r g s u) : RowStep s u := by
  rcases h with ⟨-, -, -, hu⟩ | ⟨-, -, -, ⟨k, -, high, hu⟩ | ⟨-, rfl⟩⟩ | ⟨-, high, hu⟩
  · exact .ends _ _ hu
  · exact .begins (.refl s) rfl high hu
  · exact .stays ⟨Iff.rfl, rfl, rfl⟩ rfl
  · exact .begins (sameFlags_sequenceAgain s) rfl high hu

theorem rowStep_of_regReadBody {s u : State} (h : regReadBody s = .next u) : RowStep s u := by
  rcases regReadBody_next h with ⟨-, high, hu⟩ | ⟨-, hu⟩
  · exact .begins (.refl s) rfl high hu
  · exact .ends _ _ hu

theorem rowStep_of_regWriteBody {s u : State} (h : regWriteBody s = .next u) : RowStep s u := by
  rcases regWriteBody_next h with ⟨-, high, hu⟩ | ⟨-, hu⟩
  · exact .begins (.refl s) rfl high hu
  · exact .ends _ _ hu

theorem rowStep_of_regWriteVerifyBody {s u : State} (h : regWriteVerifyBody s = .next u) : RowStep s u := by
  rcases regWriteVerifyBody_next h with ⟨-, high, hu⟩ | ⟨-, high, hu⟩ | ⟨-, -, hu⟩ | ⟨-, -, hu⟩
  · exact .begins (.refl s) rfl high hu
  · exact .begins (.refl s) rfl high hu
  · exact .ends _ _ hu
  · exact .ends _ _ hu

theorem rowStep_of_strobeBody {k : Strobe} {s u : State} (h : strobeBody k s = .next u) : RowStep s u := by
  rcases strobeBody_next h with ⟨-, high, hu⟩ | ⟨-, hu⟩
  · exact .begins (.refl s) rfl high hu
  · exact .ends _ _ hu

theorem rowStep_of_setStateBody {g : Target} {s u : State} (h : setStateBody g s = .next u) : RowStep s u := by
  rcases setStateBody_next h with ⟨-, high, hu⟩ | ⟨-, -, hu⟩ | hseq
  · exact .begins (sameFlags_sequenceStart s) rfl high hu
  · exact .ends _ _ hu
  · exact rowStep_of_sequenceStep hseq

theorem rowStep_of_txFrameBody {s u : State} (h : txFrameBody s = .next u) : RowStep s u := by
  rcases txFrameBody_next h with ⟨-, high, hu⟩ | ⟨-, -, high, hu⟩ | ⟨-, -, high, hu⟩ | ⟨-, -, high, hu⟩ | ⟨-, high, hu⟩
    | ⟨-, -, high, hu⟩ | ⟨-, high, hu⟩ | ⟨-, -, hu⟩ | hseq | hseq | hseq
  · exact .begins (.refl s) rfl high hu
  · exact .begins (sameFlags_sequenceStart s) rfl high hu
  · exact .begins (sameFlags_sequenceStart s) rfl high hu
  · exact .begins (.refl s) rfl high hu
  · exact .begins (sameFlags_sequenceStart s) rfl high hu
  · exact .begins (.refl s) rfl high hu
  · exact .begins (sameFlags_sequenceStart s) rfl high hu
  · exact .ends _ _ hu
  all_goals exact rowStep_of_sequenceStep hseq

theorem rowStep_of_rxFrameBody {s u : State} (h : rxFrameBody s = .next u) : RowStep s u := by
  rcases rxFrameBody_next h with ⟨-, high, hu⟩ | ⟨-, -, hu⟩ | ⟨-, -, high, hu⟩ | ⟨-, -, high, hu⟩ | ⟨-, -, -, hu⟩
    | ⟨-, -, -, high, hu⟩ | ⟨-, high, hu⟩ | ⟨-, hu⟩ | ⟨-, -, hu⟩ | ⟨-, -, hu⟩
  · exact .begins (.refl s) rfl high hu
  · exact .ends _ _ hu
  · exact .begins (sameFlags_storeCount s) rfl high hu
  · exact .begins (.refl s) rfl high hu
  · exact .ends _ _ hu
  · exact .begins (.refl s) rfl high hu
  · exact .begins (.refl s) rfl high hu
  all_goals exact .ends _ _ hu

/-- The step of any command after CHECK, by kind of command. -/
theorem rowStep_of_bodyOf {i : Instr} (hc : isCommand i = true) {s u : State} (h : bodyOf i s = .next u) : RowStep s u := by
  rcases instr_cases i with hw | ⟨a, rfl⟩ | ⟨a, rfl⟩ | ⟨a, rfl⟩ | ⟨k, rfl⟩ | ⟨g, rfl⟩ | ⟨a, rfl⟩ | ⟨a, rfl⟩
  · simp [isWire, hc] at hw
  · exact rowStep_of_regReadBody h
  · exact rowStep_of_regWriteBody h
  · exact rowStep_of_regWriteVerifyBody h
  · have hbody : bodyOf (strobeInstr k) = strobeBody k := by cases k <;> rfl
    exact rowStep_of_strobeBody (hbody ▸ h)
  · have hbody : bodyOf (setStateInstr g) = setStateBody g := by cases g <;> rfl
    exact rowStep_of_setStateBody (hbody ▸ h)
  · exact rowStep_of_txFrameBody h
  · exact rowStep_of_rxFrameBody h

/-- A step of any row while a command runs. -/
theorem rowStep_of_exec {i : Instr} {s u : State} (hrun : s.seq.phase ≠ .idle) (h : exec i s = .next u) : RowStep s u := by
  rcases isCommand_or_isWire i with hc | hw
  · rw [exec_command hc] at h
    rcases runCommand_next h with ⟨hidle, -⟩ | ⟨-, r, -, hu⟩ | ⟨hcheck, -, rfl⟩ | ⟨-, hbody⟩
    · exact absurd hidle hrun
    · exact .ends r s hu
    · exact .stays ⟨by simp [hcheck], rfl, rfl⟩ rfl
    · exact rowStep_of_bodyOf hc hbody
  · rw [exec_wire hw] at h
    exact rowStep_of_runHeader h

/-! ### What a host access can do -/

/-- A host write to an idle machine starts a command, or leaves the flags and the chip selects (R29 to R50). -/
theorem csrWriteIdle_cases (s : State) (v : Byte) (r : Csr) :
    csrWriteIdle s v r = startCommand v s ∨
      SameFlags s (csrWriteIdle s v r) ∧ (csrWriteIdle s v r).csN = s.csN := by
  cases r
  case cmd => exact .inl rfl
  case status =>
    rw [csrWriteIdle]
    split <;> exact .inr ⟨⟨Iff.rfl, rfl, rfl⟩, rfl⟩
  case errcnt =>
    rw [csrWriteIdle, clearErrcnt]
    split <;> exact .inr ⟨⟨Iff.rfl, rfl, rfl⟩, rfl⟩
  case dbuf i =>
    rw [csrWriteIdle]
    exact .inr ⟨⟨by rw [dbufPut_seq], by rw [dbufPut_csr], by rw [dbufPut_csr]⟩, dbufPut_csN s i v⟩
  all_goals exact .inr ⟨⟨Iff.rfl, rfl, rfl⟩, rfl⟩

theorem r54Holds_hostWrite {s : State} (hs : R54Holds s) (a v : Byte) : R54Holds (hostWrite a v s) := by
  rcases hostWrite_cases a v s with ⟨-, h⟩ | ⟨-, h⟩
  · rw [h]
    exact r54Holds_of_same hs ⟨Iff.rfl, rfl, rfl⟩ rfl
  · rw [h]
    rcases csrWriteIdle_cases s v (csrAt s.cfg a) with hstart | ⟨hflags, hsel⟩
    · rw [hstart]
      exact r54Holds_startCommand hs v
    · exact r54Holds_of_same hs hflags hsel

theorem r54Holds_hostAccess {s : State} (hs : R54Holds s) (op : HostOp) : R54Holds (hostAccess op s) := by
  cases op with
  | read a => exact r54Holds_of_same hs ⟨Iff.rfl, rfl, rfl⟩ rfl
  | write a v => exact r54Holds_hostWrite hs a v

/-! ### Every step -/

theorem r54Holds_rscStep {s u : State} (hs : R54Holds s) (h : rscStep s = .next u) : R54Holds u := by
  rcases rscStep_next h with ⟨-, rfl⟩ | ⟨hphase, ⟨i, -, hexec⟩ | ⟨why, -, rfl⟩⟩ | ⟨hphase, t, i, -, -, hexec⟩
  · exact hs
  · have hrun : s.seq.phase ≠ .idle := by rcases hphase with h | ⟨h, -⟩ <;> simp [h]
    exact r54Holds_of_rowStep hs hrun (rowStep_of_exec hrun hexec)
  · exact r54Holds_complete _ s
  · have hrun : s.seq.phase ≠ .idle := by simp [hphase]
    exact r54Holds_of_rowStep hs hrun (rowStep_of_exec hrun hexec)

/-- Every step, whoever acts, keeps R54. -/
theorem r54Holds_step {s u : State} (hs : R54Holds s) (h : step s = .next u) : R54Holds u := by
  have hpop : ∀ rest, R54Holds (popTurn rest s) := fun rest => r54Holds_of_same hs ⟨Iff.rfl, rfl, rfl⟩ rfl
  obtain ⟨-, ⟨-, hrsc⟩ | ⟨op, rest, -, rfl⟩ | ⟨rest, -, rfl⟩ | ⟨lost, rest, -, rfl⟩⟩ := step_next h
  · exact r54Holds_rscStep (hpop s.agenda.tail) hrsc
  · exact r54Holds_hostAccess (hpop rest) op
  · exact r54Holds_of_same hs ⟨Iff.rfl, rfl, rfl⟩ rfl
  · exact r54Holds_blockReset _

/-- Settles O51: the model's invariant contains R54's, which every step keeps by itself. -/
theorem everyStepKeepsR54 : Obligations.EveryStepKeepsR54 := by
  unfold Obligations.EveryStepKeepsR54
  exact fun s hi => ⟨r54Holds_of_inv hi, fun t h => r54Holds_step (r54Holds_of_inv hi) h⟩

end Sys2Proof.Proofs
end

section
/-! SUPPORT. The primitives of a transaction (R61 to R65) as next states: given the chip's answer, the state each primitive
leaves, written out field by field. -/

namespace Sys2Proof.Proofs

open Sys2Proof Sys2Proof.Machine Sys2Proof.Laws

/-! ### A row with its transaction in progress -/

/-- With its transaction in progress, a header row's step is the next primitive of it. -/
theorem exec_of_txn {i : Instr} {s : State} {x : Txn} (hw : isWire i = true) (hx : s.seq.txn = some x) :
    exec i s = txnStep (codeBytes (encode s.cfg i)) x s := by
  rw [exec_wire hw, runHeader, hx]

theorem txnStep_ready {x : Txn} (hpos : x.pos = .ready) (hdr : List Byte) (s : State) :
    txnStep hdr x s = readyStep x s := by rw [txnStep, hpos]

theorem txnStep_hdr {x : Txn} (hpos : x.pos = .hdr) (hdr : List Byte) (s : State) :
    txnStep hdr x s = headerStep hdr x s := by rw [txnStep, hpos]

theorem txnStep_addr2 {x : Txn} (hpos : x.pos = .addr2) (hdr : List Byte) (s : State) :
    txnStep hdr x s = addr2Step hdr x s := by rw [txnStep, hpos]

theorem txnStep_data {x : Txn} (hpos : x.pos = .data) (hdr : List Byte) (s : State) :
    txnStep hdr x s = dataStep x s := by rw [txnStep, hpos]

/-- A header has its second byte exactly when one is left after the first: there are never three (R107 to R109). -/
theorem header_length_two_iff {i : Instr} {p : Params} {h : Byte} {rest : List Byte} (hw : isWire i = true)
    (hcode : codeBytes (encode p i) = h :: rest) : (codeBytes (encode p i)).length = 2 ↔ rest ≠ [] := by
  have hlen := length_header p hw
  rw [hcode] at hlen ⊢
  cases rest with
  | nil => simp
  | cons h2 tail => simpa using hlen

/-! ### WaitReady (R63) -/

section sample

variable {s : State} {x : Txn} {r : Bool} {c : Chip}

/-- One sample, the chip's answer to it given. -/
theorem takeSample_of_answer (hc : chipSample s.hist (moduleOf s) (bankGet s.chips (moduleOf s)) = (r, c)) :
    takeSample s = { s with
      seq := { s.seq with samples := s.seq.samples + 1 }
      chips := bankSet s.chips (moduleOf s) c
      hist := s.hist ++ [.ready (moduleOf s) r] } := by
  simp only [takeSample, record, hc]

theorem sampleLevel_of_answer (hc : chipSample s.hist (moduleOf s) (bankGet s.chips (moduleOf s)) = (r, c)) :
    sampleLevel s = r := by rw [sampleLevel, hc]

/-- Before the deadline a sample is taken; a true one leads to the header, a false one to the next sample. -/
theorem readyStep_of_lt (hx : s.seq.txn = some x) (hpos : x.pos = .ready)
    (hc : chipSample s.hist (moduleOf s) (bankGet s.chips (moduleOf s)) = (r, c))
    (hlt : s.seq.samples < s.cfg.readyMaxSamples) :
    readyStep x s = .next { s with
      seq := { s.seq with samples := s.seq.samples + 1, txn := some { x with pos := if r then .hdr else .ready } }
      chips := bankSet s.chips (moduleOf s) c
      hist := s.hist ++ [.ready (moduleOf s) r] } := by
  rw [readyStep, if_pos hlt, sampleLevel_of_answer hc, takeSample_of_answer hc]
  cases r with
  | true => rfl
  | false =>
    have hkeep : s.seq.txn = some { x with pos := .ready } := by rw [hx, ← hpos]
    simp only [Bool.false_eq_true, if_false, ← hkeep]

end sample

/-- At the deadline the command completes. -/
theorem readyStep_of_deadline {s : State} (x : Txn) (hs : s.seq.samples = s.cfg.readyMaxSamples) :
    readyStep x s = .next (complete .timeout s) := by
  rw [readyStep, if_neg (by omega)]

/-- After CsAssert and before CsDeassert the module's chip select is low, and no other (R54). -/
theorem csN_of_txn {s : State} {x : Txn} (hi : Inv s) (hx : s.seq.txn = some x) (hpos : x.pos ≠ .select) :
    s.csN = bankSet (sameForAll true) (moduleOf s) false := by
  rw [hi.selects, selectsDue, hx]
  exact if_neg hpos

/-- Completion with one chip select low raises it first (R221). -/
theorem complete_of_one_low {s : State} {m : ModIdx} (h : s.csN = bankSet (sameForAll true) m false) (code : Result) :
    complete code s = { s with
      csr := { s.csr with result := code, busy := false, done := true }
      seq := Seq.reset
      csN := sameForAll true
      chips := bankSet s.chips m (chipDeselect s.cfg (bankGet s.chips m))
      hist := s.hist ++ [.cs m true, .done code] } := by
  have hup : bankSet s.csN m true = sameForAll true := by
    rw [h, bankSet_bankSet_same]
    simpa using bankSet_self (sameForAll true) m
  simp [complete, releaseAll_of_one_low h, csHigh, record, hup]

/-- The end of a transaction changes no chip but a RefDev (R66). -/
theorem chipDeselect_of_not_refDev {ch : Chip} (p : Params) (h : ∀ d, ch ≠ .refDev d) : chipDeselect p ch = ch := by
  cases ch with
  | oracle => rfl
  | refDev d => exact absurd rfl (h d)
  | script rs bs => rfl

/-! ### The byte exchanges (R64, R65) -/

section exchange

variable {s : State} {out b : Byte} {c : Chip}

/-- One exchange, the chip's answer to it given. -/
theorem exchange_of_answer (role : Role)
    (hc : chipExchange s.cfg s.hist (moduleOf s) out (bankGet s.chips (moduleOf s)) = (b, c)) :
    exchange role out s = { s with
      chips := bankSet s.chips (moduleOf s) c
      hist := s.hist ++ [.xfer (moduleOf s) role out b] } := by
  simp only [exchange, record, hc]

theorem misoByte_of_answer (hc : chipExchange s.cfg s.hist (moduleOf s) out (bankGet s.chips (moduleOf s)) = (b, c)) :
    misoByte s out = b := by rw [misoByte, hc]

theorem selected_of_low (hlow : bankGet s.csN (moduleOf s) = false) : selected s = true := by rw [selected, hlow]; rfl

/-- The header byte; its answer is the module's status byte. -/
theorem headerStep_of_answer (x : Txn) (rest : List Byte) (hlow : bankGet s.csN (moduleOf s) = false)
    (hc : chipExchange s.cfg s.hist (moduleOf s) out (bankGet s.chips (moduleOf s)) = (b, c)) :
    headerStep (out :: rest) x s = .next { s with
      seq := { s.seq with txn := some { x with pos := if (out :: rest).length = 2 then .addr2 else .data } }
      mods := modsAfter s b
      chips := bankSet s.chips (moduleOf s) c
      hist := s.hist ++ [.xfer (moduleOf s) .hdr out b] } := by
  rw [headerStep, if_pos (selected_of_low hlow), List.headD_cons, exchange_of_answer .hdr hc, misoByte_of_answer hc]
  rfl

/-- The second header byte; its answer is ignored. -/
theorem addr2Step_of_answer (x : Txn) (h : Byte) (hlow : bankGet s.csN (moduleOf s) = false)
    (hc : chipExchange s.cfg s.hist (moduleOf s) out (bankGet s.chips (moduleOf s)) = (b, c)) :
    addr2Step [h, out] x s = .next { s with
      seq := { s.seq with txn := some { x with pos := .data } }
      chips := bankSet s.chips (moduleOf s) c
      hist := s.hist ++ [.xfer (moduleOf s) .addr2 out b] } := by
  rw [addr2Step, if_pos (selected_of_low hlow), List.tail_cons, List.headD_cons, exchange_of_answer .addr2 hc]
  rfl

/-- A data byte; its answer is kept when the row reads. -/
theorem dataStep_of_answer {x : Txn} {os : List Byte} (hout : x.out = out :: os)
    (hlow : bankGet s.csN (moduleOf s) = false)
    (hc : chipExchange s.cfg s.hist (moduleOf s) out (bankGet s.chips (moduleOf s)) = (b, c)) :
    dataStep x s = .next { s with
      seq := { s.seq with txn := some { x with out := os, got := if x.keep then x.got ++ [b] else x.got } }
      chips := bankSet s.chips (moduleOf s) c
      hist := s.hist ++ [.xfer (moduleOf s) .data out b] } := by
  simp only [dataStep, hout, selected_of_low hlow, if_true, exchange_of_answer .data hc, misoByte_of_answer hc]
  rfl

end exchange

/-- With no data byte left the chip select goes high and the kept bytes are returned. -/
theorem dataStep_of_nil {x : Txn} (hout : x.out = []) (s : State) :
    dataStep x s = .next { s with
      seq := { s.seq with txn := none, ret := x.got }
      csN := bankSet s.csN (moduleOf s) true
      chips := bankSet s.chips (moduleOf s) (chipDeselect s.cfg (bankGet s.chips (moduleOf s)))
      hist := s.hist ++ [.cs (moduleOf s) true] } := by
  simp only [dataStep, hout]
  rfl

/-! ### The statements -/

/-- Settles O26: before the deadline the primitive is a sample; at the deadline it is completion, with the module's chip
select the one that is low. -/
theorem readyWaitSamples : Obligations.ReadyWaitSamples := by
  unfold Obligations.ReadyWaitSamples
  intro i s x r c hw hi hx hpos hc
  rw [exec_of_txn hw hx, txnStep_ready hpos]
  refine ⟨readyStep_of_lt hx hpos hc, fun hs => ?_⟩
  have hlow := csN_of_txn hi hx (by simp [hpos])
  exact ⟨_, by rw [readyStep_of_deadline x hs, complete_of_one_low hlow], chipDeselect_of_not_refDev s.cfg⟩

/-- Settles O27, one primitive of the row's transaction for each clause. -/
theorem headerRowExchanges : Obligations.HeaderRowExchanges := by
  unfold Obligations.HeaderRowExchanges
  intro i s x out b c hw hlow hx hc
  rw [exec_of_txn hw hx]
  refine ⟨fun rest hcode hpos => ?_, fun h hcode hpos => ?_, fun os hpos hout => ?_, fun hpos hout => ?_⟩
  · have htwo := header_length_two_iff hw hcode
    rw [hcode] at htwo ⊢
    rw [txnStep_hdr hpos, headerStep_of_answer x rest hlow hc]
    simp only [htwo, ite_not]
  · rw [txnStep_addr2 hpos, hcode, addr2Step_of_answer x h hlow hc]
  · rw [txnStep_data hpos, dataStep_of_answer hout hlow hc]
  · rw [txnStep_data hpos, dataStep_of_nil hout]

end Sys2Proof.Proofs
end

section
/-! SUPPORT. The command words that are no row (R103, R104): which words the decoder rejects and with what result, and the CHECK
step that completes such a word (R225). -/

namespace Sys2Proof.Proofs

open Sys2Proof Sys2Proof.Machine Sys2Proof.Laws

/-! ### The fields of a command word as numbers (R100) -/

theorem toNat_cmdOpcode (w : Word16) : (cmdOpcode w).toNat = w.toNat % 16 := by
  simp [cmdOpcode]

theorem toNat_cmdZero (w : Word16) : (cmdZero w).toNat = w.toNat / 16 % 16 := by
  simp [cmdZero, Nat.shiftRight_eq_div_pow]

theorem toNat_cmdArg (w : Word16) : (cmdArg w).toNat = w.toNat / 256 := by
  have := w.isLt
  simp only [cmdArg, BitVec.extractLsb'_toNat, Nat.shiftRight_eq_div_pow]
  omega

theorem cmdZero_eq_zero_iff (w : Word16) : cmdZero w = 0 ↔ w.toNat / 16 % 16 = 0 := by
  rw [← toNat_cmdZero]
  exact BitVec.toNat_inj.symm

/-! ### The words the decoder rejects -/

/-- A strobe index above 9 names no strobe (R104). -/
theorem decodeStrobeArg_of_gt {a : Byte} (h : 9 < a.toNat) : decodeStrobeArg a = .error .strobeIndexOutOfRange := by
  have hnone : allStrobes[a.toNat]? = none := List.getElem?_eq_none h
  rw [decodeStrobeArg, hnone]

/-- A target above 3 names no target (R104). -/
theorem decodeTargetArg_of_gt {a : Byte} (h : 3 < a.toNat) : decodeTargetArg a = .error .targetOutOfRange := by
  unfold decodeTargetArg
  split
  case h_5 => rfl
  all_goals omega

theorem decodeCmd_of_highNibble {w : Word16} (h : w.toNat / 16 % 16 ≠ 0) : decodeCmd w = .error .nonzeroHighNibble := by
  rw [decodeCmd, if_pos (mt (cmdZero_eq_zero_iff w).mp h)]

theorem decodeCmd_of_reservedOpcode {w : Word16} (hz : w.toNat / 16 % 16 = 0)
    (h : w.toNat % 16 = 0 ∨ 8 ≤ w.toNat % 16) :
    decodeCmd w = .error .reservedOpcode := by
  rw [← toNat_cmdOpcode] at h
  rw [decodeCmd, if_neg (not_not.mpr ((cmdZero_eq_zero_iff w).mpr hz))]
  split
  case h_8 => rfl
  all_goals omega

/-- With bits 7:4 zero and opcode 4, the word is decoded as its strobe index is. -/
theorem decodeCmd_strobe {w : Word16} (h : w.toNat % 256 = 4) : decodeCmd w = decodeStrobeArg (cmdArg w) := by
  have hz : cmdZero w = 0 := (cmdZero_eq_zero_iff w).mpr (by omega)
  have hop : (cmdOpcode w).toNat = 4 := by rw [toNat_cmdOpcode]; omega
  rw [decodeCmd, if_neg (not_not.mpr hz), hop]
  rfl

/-- With bits 7:4 zero and opcode 5, the word is decoded as its target is. -/
theorem decodeCmd_setState {w : Word16} (h : w.toNat % 256 = 5) : decodeCmd w = decodeTargetArg (cmdArg w) := by
  have hz : cmdZero w = 0 := (cmdZero_eq_zero_iff w).mpr (by omega)
  have hop : (cmdOpcode w).toNat = 5 := by rw [toNat_cmdOpcode]; omega
  rw [decodeCmd, if_neg (not_not.mpr hz), hop]
  rfl

/-- R103: the reserved words are rejected, with BAD_OPCODE. -/
theorem decodeCmd_reserved {w : Word16} (h : w.toNat / 16 % 16 ≠ 0 ∨ w.toNat % 16 = 0 ∨ 8 ≤ w.toNat % 16) :
    ∃ why, decodeCmd w = .error why ∧ illegalResult why = .badOpcode := by
  by_cases hz : w.toNat / 16 % 16 = 0
  · exact ⟨_, decodeCmd_of_reservedOpcode hz (h.resolve_left (not_not.mpr hz)), rfl⟩
  · exact ⟨_, decodeCmd_of_highNibble hz, rfl⟩

/-- R104: STROBE and SET_STATE with an argument that names nothing are rejected, with BAD_ARG. -/
theorem decodeCmd_argOutOfRange {w : Word16}
    (h : (w.toNat % 256 = 4 ∧ 9 < w.toNat / 256) ∨ (w.toNat % 256 = 5 ∧ 3 < w.toNat / 256)) :
    ∃ why, decodeCmd w = .error why ∧ illegalResult why = .badArg := by
  rw [← toNat_cmdArg] at h
  rcases h with ⟨hlow, harg⟩ | ⟨hlow, harg⟩
  · exact ⟨_, (decodeCmd_strobe hlow).trans (decodeStrobeArg_of_gt harg), rfl⟩
  · exact ⟨_, (decodeCmd_setState hlow).trans (decodeTargetArg_of_gt harg), rfl⟩

/-! ### The CHECK step of a rejected word -/

/-- Before its CHECK step a command has no transaction, so every chip select is high (R23). -/
theorem csN_of_check {s : State} (hi : Inv s) (hcheck : s.seq.phase = .check) : s.csN = sameForAll true := by
  rw [hi.selects, selectsDue, hi.check_clear hcheck]
  rfl

/-- With no turn decided and a word in CHECK that is no row, the step is its completion (R225). -/
theorem step_of_rejected {s : State} {why : Reject} (hp : paramsOk s.cfg = true) (ha : s.agenda = [])
    (hcheck : s.seq.phase = .check) (hd : decodeCmd (commandWord s) = .error why) :
    step s = .next (complete (illegalResult why) s) := by
  have hfetch : fetch s = .illegal why := by simp only [fetch, hcheck, fetchCommand, decode, hd]
  simp only [step, ha, checked, hp, if_true, rscStep, hfetch, runIllegal]

/-- The completion of a rejected word writes RESULT and STATUS, and nothing else but the sequencer and the history changes. -/
theorem completed_of_rejected {s : State} {code : Result} (hi : Inv s) (ha : s.agenda = []) (hcheck : s.seq.phase = .check)
    (hr : ∃ why, decodeCmd (commandWord s) = .error why ∧ illegalResult why = code) :
    ∃ t, step s = .next t ∧ Completed code s.csr s.mods (dbufAt s) s t := by
  obtain ⟨why, hd, rfl⟩ := hr
  exact ⟨_, step_of_rejected hi.params ha hcheck hd, completed_complete (csN_of_check hi hcheck) _⟩

/-- Settles O24: the decoder rejects each of these words with the result named, and a rejected word completes in CHECK. -/
theorem illegalWordCompletes : Obligations.IllegalWordCompletes := by
  unfold Obligations.IllegalWordCompletes
  rintro s w hi ha hcheck rfl
  exact ⟨fun h => completed_of_rejected hi ha hcheck (decodeCmd_reserved h),
    fun h => completed_of_rejected hi ha hcheck (decodeCmd_argOutOfRange h)⟩

end Sys2Proof.Proofs
end

section
/-! SUPPORT. The module registers (R49) through a step: a step of the RSC writes at most one of them, that of the module it works
on (`ModsStep`); a host access writes only the error count, and only through ERRCNT. From these, R135 for every step. -/

namespace Sys2Proof.Proofs

open Sys2Proof Sys2Proof.Machine Sys2Proof.Laws

/-! ### Operations that leave the module registers -/

@[simp] theorem begunState_mods (i : Instr) (c : Cont) (s : State) : (begunState i c s).mods = s.mods := rfl

@[simp] theorem sequenceStart_mods (s : State) : (sequenceStart s).mods = s.mods := rfl

@[simp] theorem sequenceAgain_mods (s : State) : (sequenceAgain s).mods = s.mods := rfl

/-! ### What a step of the RSC does to the module registers -/

/-- What a step of the RSC can do to the module registers. -/
inductive ModsStep (s u : State) : Prop where
  /-- No module register changes. -/
  | keeps (mods : u.mods = s.mods)
  /-- A header exchange stores the status byte (R65). -/
  | status (b : Byte) (mods : u.mods = (setLastStatus s (moduleOf s) b).mods)
  /-- SRES, SPWD and SET_STATE set or clear the asleep flag (R152, R160, R178). -/
  | sleep (b : Bool) (mods : u.mods = (setAsleep s (moduleOf s) b).mods)
  /-- A mismatch in REG_WRITE_VERIFY counts once (R134, R135). -/
  | counts (mods : u.mods = (setErrcnt s (moduleOf s) (satInc (modRegs s (moduleOf s)).errcnt)).mods)

/-! The header rows: only the header exchange writes a module register. -/

theorem modsStep_of_select {t : Txn} {s u : State} (h : selectStep t s = .next u) : ModsStep s u := by
  obtain ⟨-, rfl⟩ := selectStep_next h
  exact .keeps rfl

theorem modsStep_of_txnStep {hdr : List Byte} {t : Txn} {s u : State} (h : txnStep hdr t s = .next u) : ModsStep s u := by
  cases hpos : t.pos with
  | select =>
    rw [txnStep, hpos] at h
    exact modsStep_of_select h
  | ready =>
    rw [txnStep_ready hpos] at h
    rcases readyStep_next h with ⟨-, ⟨-, rfl⟩ | ⟨-, rfl⟩⟩ | ⟨-, rfl⟩
    · exact .keeps rfl
    · exact .keeps rfl
    · exact .keeps (complete_mods _ s)
  | hdr =>
    rw [txnStep_hdr hpos] at h
    obtain ⟨-, rfl⟩ := headerStep_next h
    exact .status _ rfl
  | addr2 =>
    rw [txnStep_addr2 hpos] at h
    obtain ⟨-, rfl⟩ := addr2Step_next h
    exact .keeps rfl
  | data =>
    rw [txnStep_data hpos] at h
    rcases dataStep_next h with ⟨-, rfl⟩ | ⟨b, rest, -, -, rfl⟩
    · exact .keeps rfl
    · exact .keeps rfl

theorem modsStep_of_runHeader {i : Instr} {s u : State} (h : runHeader i s = .next u) : ModsStep s u := by
  rcases runHeader_next h with ⟨-, h⟩ | ⟨t, -, h⟩
  · exact modsStep_of_select h
  · exact modsStep_of_txnStep h

/-! The bodies of the command rows. -/

theorem mods_of_sequenceStep {r : SeqRun} {g : Target} {s u : State} (h : SequenceStep r g s u) : u.mods = s.mods := by
  rcases h with ⟨-, -, -, rfl⟩ | ⟨-, -, -, ⟨k, -, -, rfl⟩ | ⟨-, rfl⟩⟩ | ⟨-, -, rfl⟩
  all_goals simp

theorem mods_of_regReadBody {s u : State} (h : regReadBody s = .next u) : u.mods = s.mods := by
  rcases regReadBody_next h with ⟨-, -, rfl⟩ | ⟨-, rfl⟩
  all_goals simp

theorem mods_of_regWriteBody {s u : State} (h : regWriteBody s = .next u) : u.mods = s.mods := by
  rcases regWriteBody_next h with ⟨-, -, rfl⟩ | ⟨-, rfl⟩
  all_goals simp

theorem modsStep_of_regWriteVerifyBody {s u : State} (h : regWriteVerifyBody s = .next u) : ModsStep s u := by
  rcases regWriteVerifyBody_next h with ⟨-, -, rfl⟩ | ⟨-, -, rfl⟩ | ⟨-, -, rfl⟩ | ⟨-, -, rfl⟩
  · exact .keeps rfl
  · exact .keeps rfl
  · exact .keeps (complete_mods _ s)
  · exact .counts (complete_mods _ _)

theorem modsStep_of_strobeBody {k : Strobe} {s u : State} (h : strobeBody k s = .next u) : ModsStep s u := by
  rcases strobeBody_next h with ⟨-, -, rfl⟩ | ⟨-, rfl⟩
  · exact .keeps rfl
  · have hend := complete_mods .ok (strobeEffect k s)
    cases k
    case sres => exact .sleep false hend
    case spwd => exact .sleep true hend
    all_goals exact .keeps hend

theorem modsStep_of_setStateBody {g : Target} {s u : State} (h : setStateBody g s = .next u) : ModsStep s u := by
  rcases setStateBody_next h with ⟨-, -, rfl⟩ | ⟨-, -, rfl⟩ | hseq
  · exact .keeps rfl
  · exact .sleep false (complete_mods _ _)
  · exact .keeps (mods_of_sequenceStep hseq)

theorem mods_of_txFrameBody {s u : State} (h : txFrameBody s = .next u) : u.mods = s.mods := by
  rcases txFrameBody_next h with ⟨-, -, rfl⟩ | ⟨-, -, -, rfl⟩ | ⟨-, -, -, rfl⟩ | ⟨-, -, -, rfl⟩ | ⟨-, -, rfl⟩
    | ⟨-, -, -, rfl⟩ | ⟨-, -, rfl⟩ | ⟨-, -, rfl⟩ | hseq | hseq | hseq
  · rfl
  · rfl
  · rfl
  · rfl
  · rfl
  · rfl
  · rfl
  · exact complete_mods _ s
  all_goals exact mods_of_sequenceStep hseq

theorem mods_of_rxFrameBody {s u : State} (h : rxFrameBody s = .next u) : u.mods = s.mods := by
  rcases rxFrameBody_next h with ⟨-, -, rfl⟩ | ⟨-, -, rfl⟩ | ⟨-, -, -, rfl⟩ | ⟨-, -, -, rfl⟩ | ⟨-, -, -, rfl⟩
    | ⟨-, -, -, -, rfl⟩ | ⟨-, -, rfl⟩ | ⟨-, rfl⟩ | ⟨-, -, rfl⟩ | ⟨-, -, rfl⟩
  all_goals simp

/-- The step of any command after CHECK, by kind of command. -/
theorem modsStep_of_bodyOf {i : Instr} (hc : isCommand i = true) {s u : State} (h : bodyOf i s = .next u) : ModsStep s u := by
  rcases instr_cases i with hw | ⟨a, rfl⟩ | ⟨a, rfl⟩ | ⟨a, rfl⟩ | ⟨k, rfl⟩ | ⟨g, rfl⟩ | ⟨a, rfl⟩ | ⟨a, rfl⟩
  · simp [isWire, hc] at hw
  · exact .keeps (mods_of_regReadBody h)
  · exact .keeps (mods_of_regWriteBody h)
  · exact modsStep_of_regWriteVerifyBody h
  · have hbody : bodyOf (strobeInstr k) = strobeBody k := by cases k <;> rfl
    exact modsStep_of_strobeBody (hbody ▸ h)
  · have hbody : bodyOf (setStateInstr g) = setStateBody g := by cases g <;> rfl
    exact modsStep_of_setStateBody (hbody ▸ h)
  · exact .keeps (mods_of_txFrameBody h)
  · exact .keeps (mods_of_rxFrameBody h)

/-- A step of any row, in any phase. -/
theorem modsStep_of_exec {i : Instr} {s u : State} (h : exec i s = .next u) : ModsStep s u := by
  rcases isCommand_or_isWire i with hc | hw
  · rw [exec_command hc] at h
    rcases runCommand_next h with ⟨-, rfl⟩ | ⟨-, r, -, rfl⟩ | ⟨-, -, rfl⟩ | ⟨-, hbody⟩
    · exact .keeps rfl
    · exact .keeps (complete_mods r s)
    · exact .keeps rfl
    · exact modsStep_of_bodyOf hc hbody
  · rw [exec_wire hw] at h
    exact modsStep_of_runHeader h

theorem modsStep_of_rscStep {s u : State} (h : rscStep s = .next u) : ModsStep s u := by
  rcases rscStep_next h with ⟨-, rfl⟩ | ⟨-, ⟨i, -, hexec⟩ | ⟨why, -, rfl⟩⟩ | ⟨-, t, i, -, -, hexec⟩
  · exact .keeps rfl
  · exact modsStep_of_exec hexec
  · exact .keeps (complete_mods _ s)
  · exact modsStep_of_exec hexec

/-! ### What a host access does to the module registers -/

/-- ERRCNT stands at one address (R25). -/
theorem eq_of_csrAt_errcnt {p : Params} {a : Byte} (h : csrAt p a = .errcnt) : a = 0x0C := by
  unfold csrAt at h
  split at h
  case h_12 ha => exact BitVec.eq_of_toNat_eq ha
  case h_22 => split at h <;> cases h
  all_goals cases h

/-- A host write to an idle machine leaves the module registers, or it is the clearing write of ERRCNT (R41). -/
theorem csrWriteIdle_mods_cases (s : State) (v : Byte) (r : Csr) :
    (csrWriteIdle s v r).mods = s.mods
    ∨ r = .errcnt ∧ (csrWriteIdle s v r).mods = (setErrcnt s (moduleOf s) 0).mods := by
  cases r
  case status =>
    rw [csrWriteIdle]
    split <;> exact .inl rfl
  case errcnt =>
    rw [csrWriteIdle, clearErrcnt]
    split
    · exact .inr ⟨rfl, rfl⟩
    · exact .inl rfl
  case dbuf i => exact .inl (dbufPut_mods s i v)
  all_goals exact .inl rfl

/-- A host access leaves the module registers, or it is the clearing write at ERRCNT's address (R27, R28, R41). -/
theorem hostAccess_mods_cases (op : HostOp) (s : State) :
    (hostAccess op s).mods = s.mods
    ∨ ∃ v, op = .write 0x0C v ∧ (hostAccess op s).mods = (setErrcnt s (moduleOf s) 0).mods := by
  cases op with
  | read a => exact .inl rfl
  | write a v =>
    rw [hostAccess]
    rcases hostWrite_cases a v s with ⟨-, h⟩ | ⟨-, h⟩
    · exact .inl (by rw [h])
    · rw [h]
      rcases csrWriteIdle_mods_cases s v (csrAt s.cfg a) with hmods | ⟨ha, hmods⟩
      · exact .inl hmods
      · exact .inr ⟨v, by rw [eq_of_csrAt_errcnt ha], hmods⟩

/-! ### The error count (R135) -/

theorem modRegs_congr {s u : State} (h : u.mods = s.mods) (m : ModIdx) : modRegs u m = modRegs s m := by
  rw [modRegs, modRegs, h]

theorem errcnt_setLastStatus (s : State) (m k : ModIdx) (b : Byte) :
    (modRegs (setLastStatus s m b) k).errcnt = (modRegs s k).errcnt := by
  rw [modRegs, setLastStatus_mods, bankGet_bankSet]
  split
  · next h => rw [h]; rfl
  · rfl

theorem errcnt_setAsleep (s : State) (m k : ModIdx) (b : Bool) :
    (modRegs (setAsleep s m b) k).errcnt = (modRegs s k).errcnt := by
  rw [modRegs, setAsleep_mods, bankGet_bankSet]
  split
  · next h => rw [h]; rfl
  · rfl

theorem errcnt_setErrcnt (s : State) (m k : ModIdx) (c : Byte) :
    (modRegs (setErrcnt s m c) k).errcnt = if k = m then c else (modRegs s k).errcnt := by
  rw [modRegs, setErrcnt_mods, bankGet_bankSet]
  split <;> rfl

/-- `SatInc` in numbers (R135). -/
theorem toNat_satInc (c : Byte) : (satInc c).toNat = min 255 (c.toNat + 1) := by
  unfold satInc
  split
  · next h => rw [h]; rfl
  · next h => bv_omega

/-- A step of the RSC leaves an error count or counts one mismatch, up to 255. -/
theorem ModsStep.errcnt {s u : State} (h : ModsStep s u) (m : ModIdx) :
    (modRegs u m).errcnt = (modRegs s m).errcnt
    ∨ (modRegs u m).errcnt.toNat = min 255 ((modRegs s m).errcnt.toNat + 1) := by
  cases h with
  | keeps mods => exact .inl (by rw [modRegs_congr mods])
  | status b mods => exact .inl (by rw [modRegs_congr mods, errcnt_setLastStatus])
  | sleep b mods => exact .inl (by rw [modRegs_congr mods, errcnt_setAsleep])
  | counts mods =>
    rw [modRegs_congr mods, errcnt_setErrcnt]
    split
    · next h => exact .inr (by rw [toNat_satInc, h])
    · exact .inl rfl

/-- A host access leaves an error count, or it is a write of ERRCNT and clears it. -/
theorem hostAccess_errcnt (op : HostOp) (s : State) (m : ModIdx) :
    (modRegs (hostAccess op s) m).errcnt = (modRegs s m).errcnt
    ∨ (modRegs (hostAccess op s) m).errcnt = 0 ∧ ∃ v, op = .write 0x0C v := by
  rcases hostAccess_mods_cases op s with hmods | ⟨v, hop, hmods⟩
  · exact .inl (by rw [modRegs_congr hmods])
  · rw [modRegs_congr hmods, errcnt_setErrcnt]
    split
    · exact .inr ⟨rfl, v, hop⟩
    · exact .inl rfl

/-- Settles O33, by whose turn the step is: the RSC at most counts, a host access clears only as a write of ERRCNT, a poll
changes nothing, and a block reset clears. -/
theorem errcntNeverWraps : Obligations.ErrcntNeverWraps := by
  unfold Obligations.ErrcntNeverWraps
  intro s t m h
  obtain ⟨-, ⟨-, hrsc⟩ | ⟨op, rest, ha, rfl⟩ | ⟨rest, -, rfl⟩ | ⟨lost, rest, ha, rfl⟩⟩ := step_next h
  · exact ((modsStep_of_rscStep hrsc).errcnt m).imp_right .inl
  · rcases hostAccess_errcnt op (popTurn rest s) m with hsame | ⟨hzero, v, rfl⟩
    · exact .inl hsame
    · exact .inr (.inr ⟨hzero, .inr ⟨v, rest, ha⟩⟩)
  · exact .inl rfl
  · have hzero : (modRegs (blockReset (popTurn rest s)) m).errcnt = 0 := by
      rw [modRegs, blockReset_mods, bankGet_sameForAll]
      rfl
    exact .inr (.inr ⟨hzero, .inl ⟨lost, rest, ha⟩⟩)

end Sys2Proof.Proofs
end

section
/-! SUPPORT. One iteration of a `Sequence` run (R172 to R176): whichever command runs it, its step after a poll is `afterPoll`;
what that answers away from the target at the deadline and before it, and R173's table by the kind of the polled state. -/

namespace Sys2Proof.Proofs

open Sys2Proof Sys2Proof.Machine Sys2Proof.Laws

/-! ### R173's table -/

theorem act_of_stable {c : ChipState} (h : c = .idle ∨ c = .rx ∨ c = .tx ∨ c = .fstxon) (g : Target) :
    act c g = .strobe (strobeFor g) := by
  rcases h with rfl | rfl | rfl | rfl <;> rfl

theorem act_of_transient {c : ChipState} (h : c = .calibrate ∨ c = .settling) (g : Target) : act c g = .wait := by
  rcases h with rfl | rfl <;> rfl

/-- If the poll shows a state, the row that applies is that of a state it shows. -/
theorem polledIs_polledRow {s : State} (h : polledStates s ≠ []) : polledIs s (polledRow s) = true :=
  mem_polledStates.mp (polledRow_mem h)

/-! ### The step after a poll -/

/-- The commands with `Sequence` runs: SET_STATE has one, TX_FRAME three (R171, R190). -/
theorem seqTarget_cases {i : Instr} {r : SeqRun} {g : Target} (h : seqTarget i r = some g) :
    (r = .setState ∧ i = setStateInstr g)
    ∨ ∃ a, i = .txFrame a ∧ (r = .txIdle ∧ g = .idle ∨ r = .txReady ∧ g = .fstxon ∨ r = .txSend ∧ g = .tx) := by
  unfold seqTarget at h
  split at h <;> cases h
  case h_1 | h_2 | h_3 | h_4 => exact .inl ⟨rfl, rfl⟩
  case h_5 a => exact .inr ⟨a, rfl, .inl ⟨rfl, rfl⟩⟩
  case h_6 a => exact .inr ⟨a, rfl, .inr (.inl ⟨rfl, rfl⟩)⟩
  case h_7 a => exact .inr ⟨a, rfl, .inr (.inr ⟨rfl, rfl⟩)⟩

theorem setStateBody_polled {s : State} (hc : s.seq.cont = .polled .setState) (g : Target) :
    setStateBody g s = afterPoll .setState g setStateDone s := by
  rw [setStateBody, hc]

/-- After each of its polls TX_FRAME's body is that run's `afterPoll`; `done` is what follows the run in R190. -/
theorem txFrameBody_polled {r : SeqRun} {g : Target} {s : State} (hc : s.seq.cont = .polled r)
    (hr : r = .txIdle ∧ g = .idle ∨ r = .txReady ∧ g = .fstxon ∨ r = .txSend ∧ g = .tx) :
    ∃ done, txFrameBody s = afterPoll r g done s := by
  rcases hr with ⟨rfl, rfl⟩ | ⟨rfl, rfl⟩ | ⟨rfl, rfl⟩ <;> exact ⟨_, by rw [txFrameBody, hc]⟩

theorem afterPoll_of_deadline {r : SeqRun} {g : Target} {done : State → Host.Outcome State Fault Refusal} {s : State}
    (hp : polledIs s (targetState g) = false) (hi : s.seq.iter = s.csr.maxPolls) :
    afterPoll r g done s = .next (complete .timeout s) := by
  simp [afterPoll, hp, hi]

theorem afterPoll_of_act_strobe {r : SeqRun} {g : Target} {done : State → Host.Outcome State Fault Refusal} {s : State}
    {k : Strobe} (hp : polledIs s (targetState g) = false) (hi : s.seq.iter ≠ s.csr.maxPolls)
    (hact : act (polledRow s) g = .strobe k) : afterPoll r g done s = beginTxn (wireStrobe k) (.acted r) s := by
  simp [afterPoll, hp, hi, hact]

theorem afterPoll_of_act_wait {r : SeqRun} {g : Target} {done : State → Host.Outcome State Fault Refusal} {s : State}
    (hp : polledIs s (targetState g) = false) (hi : s.seq.iter ≠ s.csr.maxPolls) (hact : act (polledRow s) g = .wait) :
    afterPoll r g done s = settleWait (.acted r) s := by
  simp [afterPoll, hp, hi, hact]

section polled
variable {i : Instr} {r : SeqRun} {g : Target} {s : State}

/-- A command that stands after a poll takes the step of `Sequence`. -/
theorem exec_of_polled (hg : seqTarget i r = some g) (hat : AtPlace (.polled r) s) :
    ∃ done, exec i s = afterPoll r g done s := by
  obtain ⟨hrun, hc, -⟩ := hat
  rcases seqTarget_cases hg with ⟨rfl, rfl⟩ | ⟨a, rfl, hr⟩
  · exact ⟨_, by rw [exec_setState, runSetState, runCommand_run hrun, setStateBody_polled hc]⟩
  · obtain ⟨done, hbody⟩ := txFrameBody_polled hc hr
    exact ⟨done, by rw [exec_command (i := .txFrame a) rfl, runCommand_run hrun]; exact hbody⟩

/-- Where R173's row is a strobe, its transaction begins. -/
theorem exec_began_of_act_strobe {k : Strobe} (hg : seqTarget i r = some g) (hat : AtPlace (.polled r) s)
    (hp : polledIs s (targetState g) = false) (hi : s.seq.iter ≠ s.csr.maxPolls) (hact : act (polledRow s) g = .strobe k) :
    ∃ t, exec i s = .next t ∧ Began [s.cfg.strobeCode k] [] false (.acted r) s t := by
  obtain ⟨done, hexec⟩ := exec_of_polled hg hat
  rw [hexec, afterPoll_of_act_strobe hp hi hact]
  exact began_strobe hat.selects

/-- Where R173's row is a settle wait, the step records it and nothing else. -/
theorem exec_of_act_wait (hg : seqTarget i r = some g) (hat : AtPlace (.polled r) s)
    (hp : polledIs s (targetState g) = false) (hi : s.seq.iter ≠ s.csr.maxPolls) (hact : act (polledRow s) g = .wait) :
    exec i s = .next { s with seq := { s.seq with cont := .acted r }, hist := s.hist ++ [.wait] } := by
  obtain ⟨done, hexec⟩ := exec_of_polled hg hat
  exact hexec.trans (afterPoll_of_act_wait hp hi hact)

end polled

/-! ### The statements -/

/-- Settles O39: the row of R173 that applies is that of a state the poll shows, so of the one kind assumed, and gives the
action. -/
theorem sequenceActs : Obligations.SequenceActs := by
  unfold Obligations.SequenceActs
  intro i r g s hg hat hp hi hshown
  have hrow : polledIs s (polledRow s) = true := polledIs_polledRow hshown
  refine ⟨fun hstable => ?_, fun htransient => ?_, fun hrx => ?_, fun htx => ?_⟩
  · obtain ⟨t, hexec, hbegan⟩ := exec_began_of_act_strobe hg hat hp hi (act_of_stable (hstable _ hrow) g)
    exact ⟨t, strobeFor g, hexec, hbegan, by rintro rfl; rfl, by rintro rfl; rfl, by rintro rfl; rfl, by rintro rfl; rfl⟩
  · exact exec_of_act_wait hg hat hp hi (act_of_transient (htransient _ hrow) g)
  · exact exec_began_of_act_strobe hg hat hp hi (by rw [hrx _ hrow]; rfl)
  · exact exec_began_of_act_strobe hg hat hp hi (by rw [htx _ hrow]; rfl)

/-- Settles O40: at the deadline the step is a completion, and every chip select is high between two transactions. -/
theorem sequenceTimesOut : Obligations.SequenceTimesOut := by
  unfold Obligations.SequenceTimesOut
  intro i r g s hg hat hp hi
  obtain ⟨done, hexec⟩ := exec_of_polled hg hat
  exact ⟨_, hexec.trans (afterPoll_of_deadline hp hi), completed_complete hat.selects .timeout⟩

end Sys2Proof.Proofs
end

section
/-! SUPPORT. TX_FRAME (R190 to R194): what its body is at each place of the pseudocode, the transactions these places begin, and
which of its steps can begin a write to the TX FIFO. -/

namespace Sys2Proof.Proofs

open Sys2Proof Sys2Proof.Machine Sys2Proof.Laws

/-! ### The parameters (R12) -/

/-- A frame of the largest payload fits the chip's FIFO (R12). -/
theorem maxPayload_of_paramsOk {p : Params} (hp : paramsOk p = true) :
    p.maxPayload + 3 ≤ p.dbufCap ∧ p.maxPayload + 2 ≤ p.fifoDepth := by
  simp only [paramsOk, Bool.and_eq_true, decide_eq_true_eq] at hp
  tauto

/-- What a full FIFO holds after its first two bytes fits DBUF (R12). -/
theorem fifoDepth_of_paramsOk {p : Params} (hp : paramsOk p = true) : p.fifoDepth ≤ p.dbufCap + 2 := by
  simp only [paramsOk, Bool.and_eq_true, decide_eq_true_eq] at hp
  tauto

/-! ### The transactions a framing command begins -/

theorem countRead_of_ret {s : State} {c : Byte} (h : s.seq.ret = [c]) : countRead s = c := by rw [countRead, h]; rfl

/-- A byte count is read by one single read with the header of its address (R192, R197). -/
theorem began_countRead {addr : Word16} {c : Cont} {s : State} (high : s.csN = sameForAll true) :
    ∃ t, beginCountRead addr c s = .next t ∧ Began (headerOfAccess s.cfg true false addr) [0] true c s t := by
  obtain ⟨t, ht, hb⟩ := beginTxn_began (i := regHeader s.cfg true false addr) (c := c) high
  rw [codeBytes_regHeader, wireData_regHeader, wireKeep_regHeader] at hb
  exact ⟨t, ht, hb⟩

/-- A `Sequence` run begins with its counters cleared and a poll (R172). -/
theorem began_sequence {r : SeqRun} {s : State} (high : s.csN = sameForAll true) :
    ∃ t, beginSequence r s = .next t ∧ Began [s.cfg.strobeCode .snop] [] false (.polled r) (sequenceStart s) t :=
  began_strobe (s := sequenceStart s) high

/-- At its target a `Sequence` run returns (R172). -/
theorem afterPoll_of_target {r : SeqRun} {g : Target} {done : State → Host.Outcome State Fault Refusal} {s : State}
    (hp : polledIs s (targetState g) = true) : afterPoll r g done s = done s := by
  rw [afterPoll, if_pos hp]

/-! ### TX_FRAME at each place of R190's pseudocode -/

theorem exec_txFrame_of_run {s : State} (hrun : s.seq.phase = .run) (a : Byte) : exec (.txFrame a) s = txFrameBody s := by
  rw [exec_command (i := .txFrame a) rfl, runCommand_run hrun]
  rfl

section places
variable {a : Byte} {s : State}

theorem exec_txFrame_start (hat : AtPlace .start s) :
    exec (.txFrame a) s = beginCountRead s.cfg.addrNumTxBytes .txCounted s := by
  rw [exec_txFrame_of_run hat.phase, txFrameBody, hat.cont]

/-- After the count read: an empty FIFO needs no flush (R192). -/
theorem exec_txFrame_counted (hat : AtPlace .txCounted s) :
    exec (.txFrame a) s = beginSequence (if countRead s = 0 then .txReady else .txIdle) s := by
  rw [exec_txFrame_of_run hat.phase, txFrameBody, hat.cont, apply_ite (beginSequence · s)]

/-- In IDLE the flush is strobed (R192). -/
theorem exec_txFrame_idle (hat : AtPlace (.polled .txIdle) s) (hp : polledIs s .idle = true) :
    exec (.txFrame a) s = beginTxn (wireStrobe .sftx) .txFlushed s := by
  rw [exec_txFrame_of_run hat.phase, txFrameBody, hat.cont]
  exact afterPoll_of_target hp

theorem exec_txFrame_flushed (hat : AtPlace .txFlushed s) : exec (.txFrame a) s = beginSequence .txReady s := by
  rw [exec_txFrame_of_run hat.phase, txFrameBody, hat.cont]

/-- In FSTXON the frame is written (R193). -/
theorem exec_txFrame_ready (hat : AtPlace (.polled .txReady) s) (hp : polledIs s .fstxon = true) :
    exec (.txFrame a) s = beginTxn .wireTxFifoBurstWrite .txWritten s := by
  rw [exec_txFrame_of_run hat.phase, txFrameBody, hat.cont]
  exact afterPoll_of_target hp

theorem exec_txFrame_written (hat : AtPlace .txWritten s) : exec (.txFrame a) s = beginSequence .txSend s := by
  rw [exec_txFrame_of_run hat.phase, txFrameBody, hat.cont]

/-- In TX the command is done (R194). -/
theorem exec_txFrame_sent (hat : AtPlace (.polled .txSend) s) (hp : polledIs s .tx = true) :
    exec (.txFrame a) s = .next (complete .ok s) := by
  rw [exec_txFrame_of_run hat.phase, txFrameBody, hat.cont]
  exact afterPoll_of_target hp

end places

/-- Settles O42: at each of the four places the body begins one transaction, a `Sequence` run its first poll. -/
theorem txFrameOccupancy : Obligations.TxFrameOccupancy := by
  unfold Obligations.TxFrameOccupancy
  rintro a s s0 - rfl
  refine ⟨fun hat => ?start, fun c hat hret => ?counted, fun hat hp => ?idle, fun hat => ?flushed⟩
  case start =>
    obtain ⟨t, ht, hb⟩ := began_countRead hat.selects
    exact ⟨t, _, (exec_txFrame_start hat).trans ht, hb, fun _ => rfl⟩
  case counted =>
    rw [exec_txFrame_counted hat, countRead_of_ret hret]
    exact began_sequence hat.selects
  case idle =>
    rw [exec_txFrame_idle hat hp]
    exact began_strobe hat.selects
  case flushed =>
    rw [exec_txFrame_flushed hat]
    exact began_sequence hat.selects

/-! ### The frame and its header (R193) -/

/-- The FIFO write sends two bytes more than the payload has. -/
theorem length_wireData_txFifo (s : State) : (wireData .wireTxFifoBurstWrite s).length = s.csr.len.toNat + 2 := by
  simp [wireData, frameBytes, lenOperand]

/-- The wire length does not wrap for a length that CHECK lets through. -/
theorem toNat_wireLength {p : Params} (hp : paramsOk p = true) {n : Byte} (hn : n.toNat ≤ p.maxPayload) :
    (n + 1).toNat = n.toNat + 1 := by
  have hpayload := (maxPayload_of_paramsOk hp).1
  have hcap := dbufCap_of_paramsOk hp
  rw [BitVec.toNat_add]
  exact Nat.mod_eq_of_lt (show n.toNat + 1 < 256 by omega)

/-- A strobe's byte has the burst bit 0, a FIFO header's has it 1 (R108, R109). -/
theorem strobeCode_ne_fifoHeader {p : Params} (hp : paramsOk p = true) (k : Strobe) (r : Bool) (f : BitVec 6) :
    p.strobeCode k ≠ hdrByte r true f := by
  intro h
  have hbit : hdrB (p.strobeCode k) = false := Nat.testBit_lt_two_pow (strobeCode_lt hp k)
  rw [h, hdrB_hdrByte] at hbit
  cases hbit

/-- The first header byte of a register access carries its R and B bits (R107). -/
theorem headerOfAccess_eq_cons (p : Params) (r b : Bool) (addr : Word16) :
    ∃ f rest, headerOfAccess p r b addr = hdrByte r b f :: rest := by
  unfold headerOfAccess
  split_ifs <;> exact ⟨_, _, rfl⟩

/-- The header of a read is not that of a FIFO write (R106). -/
theorem headerOfAccess_read_ne_fifoWrite (p : Params) (b : Bool) (addr : Word16) (f : BitVec 6) :
    headerOfAccess p true b addr ≠ [hdrByte false true f] := by
  intro h
  obtain ⟨g, rest, hcons⟩ := headerOfAccess_eq_cons p true b addr
  have hbyte : hdrByte true b g = hdrByte false true f := (List.cons.inj (hcons.symm.trans h)).1
  have hbit := congrArg hdrR hbyte
  rw [hdrR_hdrByte, hdrR_hdrByte] at hbit
  cases hbit

/-! ### The header of the transaction a step of TX_FRAME begins -/

theorem hdr_of_begunState {i : Instr} {c : Cont} {s : State} {x : Txn} (h : (begunState i c s).seq.txn = some x) :
    x.hdr = codeBytes (encode s.cfg i) := by
  cases h
  rfl

/-- The strobe may be begun from a state `v` in which counters of `s` were changed. -/
theorem hdr_of_begun_strobe {k : Strobe} {c : Cont} {s v : State} {x : Txn}
    (h : (begunState (wireStrobe k) c v).seq.txn = some x) (hcfg : v.cfg = s.cfg) :
    ∃ k, x.hdr = [s.cfg.strobeCode k] :=
  ⟨k, by rw [hdr_of_begunState h, codeBytes_wireStrobe, hcfg]⟩

theorem txn_complete (code : Result) (s : State) : (complete code s).seq.txn = none := rfl

/-- Inside a `Sequence` run only strobes are begun (R172). -/
theorem hdr_of_sequenceStep {r : SeqRun} {g : Target} {s u : State} {x : Txn} (hn : s.seq.txn = none)
    (h : SequenceStep r g s u) (hx : u.seq.txn = some x) : ∃ k, x.hdr = [s.cfg.strobeCode k] := by
  rcases h with ⟨-, -, -, rfl⟩ | ⟨-, -, -, ⟨k, -, -, rfl⟩ | ⟨-, rfl⟩⟩ | ⟨-, -, rfl⟩
  · rw [txn_complete] at hx; cases hx
  · exact hdr_of_begun_strobe hx rfl
  · exact absurd (hn.symm.trans hx) (by simp)
  · exact hdr_of_begun_strobe hx rfl

/-- What a step of TX_FRAME can begin: a strobe, the count read, or, polled in FSTXON in its second run, the FIFO write. -/
theorem hdr_of_txFrameBody {s u : State} {x : Txn} (hn : s.seq.txn = none) (h : txFrameBody s = .next u)
    (hx : u.seq.txn = some x) :
    (∃ k, x.hdr = [s.cfg.strobeCode k])
    ∨ x.hdr = headerOfAccess s.cfg true false s.cfg.addrNumTxBytes
    ∨ (s.seq.cont = .polled .txReady ∧ polledIs s .fstxon = true) := by
  rcases txFrameBody_next h with ⟨-, -, rfl⟩ | ⟨-, -, -, rfl⟩ | ⟨-, -, -, rfl⟩ | ⟨-, -, -, rfl⟩ | ⟨-, -, rfl⟩
    | ⟨hc, hp, -, -⟩ | ⟨-, -, rfl⟩ | ⟨-, -, rfl⟩ | hseq | hseq | hseq
  · exact .inr (.inl (by rw [hdr_of_begunState hx, codeBytes_regHeader]))
  · exact .inl (hdr_of_begun_strobe hx rfl)
  · exact .inl (hdr_of_begun_strobe hx rfl)
  · exact .inl (hdr_of_begun_strobe hx rfl)
  · exact .inl (hdr_of_begun_strobe hx rfl)
  · exact .inr (.inr ⟨hc, hp⟩)
  · exact .inl (hdr_of_begun_strobe hx rfl)
  · rw [txn_complete] at hx; cases hx
  all_goals exact .inl (hdr_of_sequenceStep hn hseq hx)

/-- Settles O43: the frame is the data phase of the FIFO write's row; no strobe and no read has that row's header. -/
theorem txFrameSendsAndCompletes : Obligations.TxFrameSendsAndCompletes := by
  unfold Obligations.TxFrameSendsAndCompletes
  intro a s hp hlen
  refine ⟨fun hat hpoll => ?writes, fun t x hrun hn hexec hx hhdr => ?onlyThen, fun hat => ?sequence, fun hat hpoll => ?ends⟩
  case writes =>
    obtain ⟨t, ht, hb⟩ := beginTxn_began (i := .wireTxFifoBurstWrite) (c := .txWritten) hat.selects
    have hlength := length_wireData_txFifo s
    have hdepth := (maxPayload_of_paramsOk hp).2
    exact ⟨t, s.csr.len + 1, _, (exec_txFrame_ready hat hpoll).trans ht, hb, rfl, toNat_wireLength hp hlen, hlength,
      by omega⟩
  case onlyThen =>
    rw [exec_txFrame_of_run hrun] at hexec
    rcases hdr_of_txFrameBody hn hexec hx with ⟨k, hk⟩ | hread | hready
    · exact absurd (List.singleton_inj.mp (hk.symm.trans hhdr)) (strobeCode_ne_fifoHeader hp k _ _)
    · exact absurd (hread.symm.trans hhdr) (headerOfAccess_read_ne_fifoWrite _ _ _ _)
    · exact hready
  case sequence =>
    rw [exec_txFrame_written hat]
    exact began_sequence hat.selects
  case ends => exact ⟨_, exec_txFrame_sent hat hpoll, completed_complete hat.selects .ok⟩

end Sys2Proof.Proofs
end

section
/-! SUPPORT. RX_FRAME (R196 to R208): its count read, where the bytes of a FIFO read stand in the CSRs and in DBUF, and
completion after the CSRs and DBUF were written. -/

namespace Sys2Proof.Proofs

open Sys2Proof Sys2Proof.Machine Sys2Proof.Laws

/-! ### RX_FRAME at its places (R196) -/

theorem exec_rxFrame_of_run {s : State} (hrun : s.seq.phase = .run) (arg : Byte) : exec (.rxFrame arg) s = rxFrameBody s := by
  rw [exec_command (i := .rxFrame arg) rfl, runCommand_run hrun]
  rfl

section places
variable {arg : Byte} {s : State}

theorem exec_rxFrame_start (hat : AtPlace .start s) :
    exec (.rxFrame arg) s = beginCountRead s.cfg.addrNumRxBytes .rxCounted s := by
  rw [exec_rxFrame_of_run hat.phase, rxFrameBody, hat.cont]

/-- After the count read: an empty FIFO ends the command, else the chip is polled (R198, R199). -/
theorem exec_rxFrame_counted (hat : AtPlace .rxCounted s) :
    exec (.rxFrame arg) s =
      if countRead s = 0 then .next (complete .rxEmpty (storeCount s)) else beginPoll .rxPolled (storeCount s) := by
  rw [exec_rxFrame_of_run hat.phase, rxFrameBody, hat.cont]

theorem exec_rxFrame_drained (hat : AtPlace .rxDrained s) : exec (.rxFrame arg) s = .next (rxEnd s.seq.ret s) := by
  rw [exec_rxFrame_of_run hat.phase, rxFrameBody, hat.cont]

end places

/-- `storeCount` with the count given (R197). -/
theorem storeCount_of_ret {s : State} {c : Byte} (h : s.seq.ret = [c]) :
    storeCount s = { s with csr := { s.csr with rxCount := c, pktValid := false, trailing := false } } := by
  rw [storeCount, countRead_of_ret h]

/-! ### Completion after CSRs and DBUF were written -/

/-- `v` differs from `s` in the CSRs, DBUF and the sequencer only: what completion leaves of it stands in `s` too. -/
structure SameOutsideCsrDbuf (s v : State) : Prop where
  mods : v.mods = s.mods
  selects : v.csN = s.csN
  hist : v.hist = s.hist
  chips : v.chips = s.chips
  cfg : v.cfg = s.cfg
  agenda : v.agenda = s.agenda
  hbRdata : v.hbRdata = s.hbRdata

theorem completed_of_sameOutside {s v : State} {csr : Csrs} {byte : Nat → Byte} (code : Result)
    (high : s.csN = sameForAll true) (hv : SameOutsideCsrDbuf s v) (hcsr : v.csr = csr) (hbyte : ∀ a, dbufAt v a = byte a) :
    Completed code csr s.mods byte s (complete code v) := by
  have hc := completed_complete (hv.selects.trans high) code
  exact {
    csr := by rw [hc.csr, hcsr]
    mods := hc.mods.trans hv.mods
    dbuf := fun a => (hc.dbuf a).trans (hbyte a)
    seq := hc.seq
    selects := hc.selects.trans hv.selects
    hist := by rw [hc.hist, hv.hist]
    chips := hc.chips.trans hv.chips
    cfg := hc.cfg.trans hv.cfg
    agenda := hc.agenda.trans hv.agenda
    hbRdata := hc.hbRdata.trans hv.hbRdata }

/-- Settles O44: the read at the start; then the count decides between completion and the poll, both from the state with the
count stored. -/
theorem rxFrameCount : Obligations.RxFrameCount := by
  unfold Obligations.RxFrameCount
  intro arg c s _
  refine ⟨fun hat => ?start, fun hat hret hc => ?empty, fun hat hret hc => ?poll⟩
  case start =>
    obtain ⟨t, ht, hb⟩ := began_countRead hat.selects
    exact ⟨t, _, (exec_rxFrame_start hat).trans ht, hb, fun _ => rfl⟩
  case empty =>
    subst hc
    rw [exec_rxFrame_counted hat, if_pos (countRead_of_ret hret), storeCount_of_ret hret]
    exact ⟨_, rfl, completed_of_sameOutside .rxEmpty hat.selects ⟨rfl, rfl, rfl, rfl, rfl, rfl, rfl⟩ rfl fun _ => rfl⟩
  case poll =>
    have hne : countRead s ≠ 0 := by rwa [countRead_of_ret hret]
    rw [exec_rxFrame_counted hat, if_neg hne, storeCount_of_ret hret]
    exact began_strobe hat.selects

/-! ### Placing and deframing the bytes of a FIFO read (R201, R203) -/

section frame
variable {l a : Byte} {rest : List Byte} {s : State}

theorem placeFrame_csr : (placeFrame (l :: a :: rest) s).csr = { s.csr with rxLen := l, rxAddr := a } :=
  dbufStore_csr _ 0 rest

theorem dbufAt_placeFrame (hwf : Memory.wf s.dbuf = true) (hcap : rest.length ≤ s.cfg.dbufCap) (j : Nat) :
    dbufAt (placeFrame (l :: a :: rest) s) j = if j < rest.length then rest.getD j 0 else dbufAt s j := by
  have hstore := dbufAt_dbufStore (s := { s with csr := { s.csr with rxLen := l, rxAddr := a } }) hwf 0 rest j
  have hiff : (0 ≤ j ∧ j < 0 + rest.length ∧ j < s.cfg.dbufCap) ↔ j < rest.length := by omega
  simp only [hiff, Nat.sub_zero] at hstore
  exact hstore

theorem deframe_csr : (deframe l s).csr =
    { s.csr with
      rxRssi := dbufAt s (l.toNat - 1), rxStatus2 := dbufAt s l.toNat, rxLen := l - 1
      pktValid := true, trailing := decide (l.toNat + 3 < s.csr.rxCount.toNat) } :=
  dbufPut_csr _ _ _

/-- Of DBUF, deframing writes the terminator only. -/
theorem dbufAt_deframe (hwf : Memory.wf s.dbuf = true) (hcap : l.toNat - 1 < s.cfg.dbufCap) (j : Nat) :
    dbufAt (deframe l s) j = if j = l.toNat - 1 then 0 else dbufAt s j := by
  rw [deframe, dbufAt_dbufPut (by exact hwf)]
  simp only [hcap, and_true]
  rfl

theorem sameOutside_deframe_placeFrame (f : List Byte) : SameOutsideCsrDbuf s (deframe l (placeFrame f s)) := by
  constructor <;> simp

theorem rxEnd_of_wellFramed (hl : 1 ≤ l.toNat) (hfit : l.toNat + 3 ≤ s.csr.rxCount.toNat) :
    rxEnd (l :: rest) s = complete .ok (deframe l (placeFrame (l :: rest) s)) := by
  have hw : wellFramed l s.csr.rxCount = true := by simp [wellFramed, hl, hfit]
  exact if_pos hw

/-- The CSRs after a well-formed frame: the two status bytes are read from their places in DBUF. -/
theorem deframe_placeFrame_csr (hwf : Memory.wf s.dbuf = true) (hcap : rest.length ≤ s.cfg.dbufCap)
    (hl : l.toNat < rest.length) :
    (deframe l (placeFrame (l :: a :: rest) s)).csr =
      { s.csr with
        rxLen := l - 1, rxAddr := a, rxRssi := rest.getD (l.toNat - 1) 0, rxStatus2 := rest.getD l.toNat 0
        pktValid := true, trailing := decide (l.toNat + 3 < s.csr.rxCount.toNat) } := by
  rw [deframe_csr, dbufAt_placeFrame hwf hcap, dbufAt_placeFrame hwf hcap, placeFrame_csr, if_pos (by omega), if_pos hl]

/-- DBUF after a well-formed frame: the terminator, the bytes as read, the rest as before. -/
theorem dbufAt_deframe_placeFrame (hwf : Memory.wf s.dbuf = true) (hcap : rest.length ≤ s.cfg.dbufCap)
    (hl : l.toNat < rest.length) (j : Nat) :
    dbufAt (deframe l (placeFrame (l :: a :: rest) s)) j =
      if j = l.toNat - 1 then 0 else if j < rest.length then rest.getD j 0 else dbufAt s j := by
  rw [dbufAt_deframe (wf_placeFrame hwf _) (by rw [placeFrame_cfg]; omega), dbufAt_placeFrame hwf hcap]

end frame

/-- Settles O47: the bytes after the first two fit DBUF, so the command ends with the frame placed and deframed. -/
theorem rxFrameDeframes : Obligations.RxFrameDeframes := by
  unfold Obligations.RxFrameDeframes
  intro arg s l a rest hp hwf hat hret hcount hdepth hl hfit
  have hcap : rest.length ≤ s.cfg.dbufCap := by
    have := fifoDepth_of_paramsOk hp
    omega
  have hlt : l.toNat < rest.length := by omega
  refine ⟨complete .ok (deframe l (placeFrame (l :: a :: rest) s)), ?runs, ?completed, ?length⟩
  case runs => rw [exec_rxFrame_drained hat, hret, rxEnd_of_wellFramed hl hfit]
  case completed =>
    refine completed_of_sameOutside .ok hat.selects (sameOutside_deframe_placeFrame _)
      (deframe_placeFrame_csr hwf hcap hlt) fun j => ?_
    have hterm : j = l.toNat - 1 ↔ j + 1 = l.toNat := by omega
    have hread : j < rest.length ↔ j + 2 < s.csr.rxCount.toNat := by omega
    simp only [dbufAt_deframe_placeFrame hwf hcap hlt, hterm, hread]
  case length => exact BitVec.toNat_sub_of_le (BitVec.le_def.mpr hl)

end Sys2Proof.Proofs
end

section
/-! SUPPORT. The decoder against the encoder (R100 to R109): a header byte as a number, the strobe codes apart from the other
one-byte headers, and the header of every register access the RSC makes. -/

namespace Sys2Proof.Proofs

open Sys2Proof Sys2Proof.Machine Sys2Proof.Laws

/-! ### The parameters (R12) -/

/-- The extended space's extension byte fits a header's address field (R12). -/
theorem extPrefix_of_paramsOk {p : Params} (hp : paramsOk p = true) : p.extPrefix.toNat < 0x40 := by
  simp only [paramsOk, Bool.and_eq_true, decide_eq_true_eq, BitVec.lt_def] at hp
  have hlt : p.extPrefix.toNat < (0x40 : Byte).toNat := by tauto
  exact hlt

/-! ### A header byte as a number (R106) -/

theorem toNat_hdrByte : ∀ (r b : Bool) (a : BitVec 6), (hdrByte r b a).toNat = 128 * r.toNat + 64 * b.toNat + a.toNat := by
  decide

/-- A strobe's code has R = B = 0 (R108). -/
theorem strobeCode_ne_hdrByte {p : Params} (hp : paramsOk p = true) (k : Strobe) {r b : Bool} (a : BitVec 6)
    (h : r = true ∨ b = true) : p.strobeCode k ≠ hdrByte r b a := by
  intro heq
  have hlt := strobeCode_lt hp k
  rw [heq, toNat_hdrByte] at hlt
  rcases h with rfl | rfl
  · rw [Bool.toNat_true] at hlt; omega
  · rw [Bool.toNat_true] at hlt; omega

theorem strobeOfCode_of_forall_ne {p : Params} {h : Byte} (hne : ∀ k, p.strobeCode k ≠ h) : strobeOfCode p h = none :=
  List.find?_eq_none.mpr fun k _ => by simpa using hne k

theorem offsetIsStrobeCode_eq_false_iff (p : Params) (a : BitVec 6) :
    offsetIsStrobeCode p a = false ↔ ∀ k, p.strobeCode k ≠ hdrByte false false a := by
  have hcode : ∀ k, (p.strobeCode k).toNat = a.toNat ↔ p.strobeCode k = hdrByte false false a := fun k => by
    rw [← BitVec.toNat_inj, toNat_hdrByte]; simp
  have hany : offsetIsStrobeCode p a = allStrobes.any fun k => (p.strobeCode k).toNat == a.toNat := rfl
  rw [hany, List.any_eq_false]
  simp only [mem_allStrobes, true_implies, beq_iff_eq, hcode, ne_eq]

/-- No strobe has the byte of a header that is no strobe's. -/
theorem strobeOfCode_hdrByte {p : Params} (hp : paramsOk p = true) {r b : Bool} {a : BitVec 6}
    (h : r = true ∨ b = true ∨ offsetIsStrobeCode p a = false) : strobeOfCode p (hdrByte r b a) = none := by
  cases r with
  | true => exact strobeOfCode_of_forall_ne fun k => strobeCode_ne_hdrByte hp k a (.inl rfl)
  | false =>
    cases b with
    | true => exact strobeOfCode_of_forall_ne fun k => strobeCode_ne_hdrByte hp k a (.inr rfl)
    | false =>
      have hs : offsetIsStrobeCode p a = false := by simpa using h
      exact strobeOfCode_of_forall_ne ((offsetIsStrobeCode_eq_false_iff p a).mp hs)

/-! ### Decoding a one-byte header (R107 to R109) -/

/-- A byte that is no strobe's is decoded by its fields. -/
theorem decodeHeader1_of_noStrobe {p : Params} {r b : Bool} {a : BitVec 6}
    (hs : strobeOfCode p (hdrByte r b a) = none) :
    decodeHeader1 p (hdrByte r b a) =
      if b && offsetIsFifo p a then .ok (if r then .wireRxFifoBurstRead else .wireTxFifoBurstWrite)
      else if shortOffsetOk p a then .ok (wireShort r b a)
      else if r && !b && isCountOffset p a then .ok (.wireShortSingleRead a)
      else .error .reservedHeader := by
  rw [decodeHeader1, hs]
  simp only [hdrR_hdrByte, hdrB_hdrByte, hdrA_hdrByte]

/-- The row of a short register header is well-formed when the offset may be sent and the byte is no other row's. -/
theorem wellFormed_wireShort (p : Params) (r b : Bool) (a : BitVec 6) :
    wellFormed p (wireShort r b a) =
      (((shortOffsetOk p a && (r || b || !offsetIsStrobeCode p a)) && (!b || !offsetIsFifo p a))
        || (r && !b && isCountOffset p a)) := by
  cases r <;> cases b <;> simp [wireShort, wellFormed]

theorem encode_wireShort (p : Params) (r b : Bool) (a : BitVec 6) : encode p (wireShort r b a) = .wire [hdrByte r b a] := by
  cases r <;> cases b <;> rfl

theorem encode_wireExt (p : Params) (r b : Bool) (off : Byte) : encode p (wireExt r b off) = .wire (extHeader p r b off) := by
  cases r <;> cases b <;> rfl

theorem encode_wireStrobe (p : Params) (k : Strobe) : encode p (wireStrobe k) = .wire [p.strobeCode k] := by
  cases k <;> rfl

theorem wellFormed_wireExt (p : Params) (r b : Bool) (off : Byte) : wellFormed p (wireExt r b off) = true := by
  cases r <;> cases b <;> rfl

theorem wellFormed_wireStrobe (p : Params) (k : Strobe) : wellFormed p (wireStrobe k) = true := by
  cases k <;> rfl

theorem decode_wireShort {p : Params} (hp : paramsOk p = true) {r b : Bool} {a : BitVec 6}
    (h : wellFormed p (wireShort r b a) = true) : decode p (encode p (wireShort r b a)) = .ok (wireShort r b a) := by
  rw [encode_wireShort]
  rw [wellFormed_wireShort] at h
  simp only [Bool.or_eq_true, Bool.and_eq_true, Bool.not_eq_true'] at h
  have hs : strobeOfCode p (hdrByte r b a) = none := strobeOfCode_hdrByte hp (by tauto)
  change decodeHeader1 p (hdrByte r b a) = _
  rw [decodeHeader1_of_noStrobe hs]
  rcases h with ⟨⟨hok, -⟩, hf⟩ | ⟨⟨hr, hb⟩, hcount⟩
  · have hnf : (b && offsetIsFifo p a) = false := by rcases hf with h | h <;> simp [h]
    simp [hnf, hok]
  · subst hr hb
    simp [hcount, wireShort]

theorem decode_wireExt {p : Params} (hp : paramsOk p = true) (r b : Bool) (off : Byte) :
    decode p (encode p (wireExt r b off)) = .ok (wireExt r b off) := by
  have hpre : offsetIsPrefix p (p.extPrefix.extractLsb' 0 6) = true := by
    have := extPrefix_of_paramsOk hp
    simp [offsetIsPrefix]
    omega
  rw [encode_wireExt]
  change decodeHeader2 p (hdrByte r b _) off = _
  simp [decodeHeader2, hpre]

theorem decode_wireStrobe {p : Params} (hp : paramsOk p = true) (k : Strobe) :
    decode p (encode p (wireStrobe k)) = .ok (wireStrobe k) := by
  have hk : strobeOfCode p (p.strobeCode k) = some k := (strobeOfCode_eq_some hp).mpr rfl
  rw [encode_wireStrobe]
  change decodeHeader1 p (p.strobeCode k) = _
  rw [decodeHeader1, hk]

theorem decode_fifoHeader {p : Params} (hp : paramsOk p = true) (r : Bool) :
    decode p (.wire [hdrByte r true p.fifoAddr]) = .ok (if r then .wireRxFifoBurstRead else .wireTxFifoBurstWrite) := by
  have hs : strobeOfCode p (hdrByte r true p.fifoAddr) = none := strobeOfCode_hdrByte hp (.inr (.inl rfl))
  change decodeHeader1 p (hdrByte r true p.fifoAddr) = _
  rw [decodeHeader1_of_noStrobe hs]
  simp [offsetIsFifo]

/-! ### Decoding a command word (R100 to R104) -/

theorem decode_cmdWord (p : Params) (op : BitVec 4) (arg : Byte) :
    decode p (.cmd (cmdWord op arg)) =
      match op.toNat with
      | 1 => .ok (.regRead arg)
      | 2 => .ok (.regWrite arg)
      | 3 => .ok (.regWriteVerify arg)
      | 4 => decodeStrobeArg arg
      | 5 => decodeTargetArg arg
      | 6 => .ok (.txFrame arg)
      | 7 => .ok (.rxFrame arg)
      | _ => .error .reservedOpcode := by
  simp only [decode, decodeCmd, cmdZero_cmdWord, cmdOpcode_cmdWord, cmdArg_cmdWord, ne_eq, not_true_eq_false, if_false] <;> rfl

/-- Settles O2, row by row: a command word is decoded by its opcode and ARG, a header by the lemma of its kind. -/
theorem decodeInvertsEncode : Obligations.DecodeInvertsEncode := by
  unfold Obligations.DecodeInvertsEncode
  intro p i hp hwf
  cases i
  case wireShortSingleWrite a => exact decode_wireShort (r := false) (b := false) hp hwf
  case wireShortBurstWrite a => exact decode_wireShort (r := false) (b := true) hp hwf
  case wireShortSingleRead a => exact decode_wireShort (r := true) (b := false) hp hwf
  case wireShortBurstRead a => exact decode_wireShort (r := true) (b := true) hp hwf
  case wireExtSingleWrite off => exact decode_wireExt hp false false off
  case wireExtBurstWrite off => exact decode_wireExt hp false true off
  case wireExtSingleRead off => exact decode_wireExt hp true false off
  case wireExtBurstRead off => exact decode_wireExt hp true true off
  case wireTxFifoBurstWrite => exact decode_fifoHeader hp false
  case wireRxFifoBurstRead => exact decode_fifoHeader hp true
  case wireStrobeSres => exact decode_wireStrobe hp .sres
  case wireStrobeScal => exact decode_wireStrobe hp .scal
  case wireStrobeSrx => exact decode_wireStrobe hp .srx
  case wireStrobeStx => exact decode_wireStrobe hp .stx
  case wireStrobeSfstxon => exact decode_wireStrobe hp .sfstxon
  case wireStrobeSidle => exact decode_wireStrobe hp .sidle
  case wireStrobeSfrx => exact decode_wireStrobe hp .sfrx
  case wireStrobeSftx => exact decode_wireStrobe hp .sftx
  case wireStrobeSpwd => exact decode_wireStrobe hp .spwd
  case wireStrobeSnop => exact decode_wireStrobe hp .snop
  all_goals exact decode_cmdWord p _ _

/-! ### What decodes is an encoding (R103, R104, R111) -/

/-- The strobe indices in use are those of the encoder (R104). -/
theorem encode_of_decodeStrobeArg (p : Params) {arg : Byte} {i : Instr} (h : decodeStrobeArg arg = .ok i) :
    encode p i = .cmd (cmdWord 4 arg) := by
  unfold decodeStrobeArg at h
  split at h
  · next k hk =>
    injection h with h
    subst h
    have harg : ∀ n : Nat, arg.toNat = n → arg = BitVec.ofNat 8 n := fun n hn => by rw [← hn]; simp
    have hlt : arg.toNat < 10 := (List.getElem?_eq_some_iff.mp hk).1
    generalize hn : arg.toNat = n at hk hlt
    rw [harg n hn]
    interval_cases n <;> cases hk <;> rfl
  · cases h

theorem encode_of_decodeTargetArg (p : Params) {arg : Byte} {i : Instr} (h : decodeTargetArg arg = .ok i) :
    encode p i = .cmd (cmdWord 5 arg) := by
  unfold decodeTargetArg at h
  split at h
  case h_5 => cases h
  all_goals
    next hn =>
      injection h with h
      subst h
      rw [show arg = BitVec.ofNat 8 arg.toNat by simp, hn]
      rfl

theorem wellFormed_of_isCommand {i : Instr} (h : isCommand i = true) (p : Params) : wellFormed p i = true := by
  cases i <;> first | rfl | cases h

theorem encode_of_decodeCmd (p : Params) {w : Word16} {i : Instr} (h : decodeCmd w = .ok i) : encode p i = .cmd w := by
  have hz : cmdZero w = 0 := by
    by_contra hne
    rw [decodeCmd, if_pos hne] at h
    cases h
  have hop : cmdOpcode w = BitVec.ofNat 4 (cmdOpcode w).toNat := by simp
  rw [← cmdWord_of_zero hz]
  rw [decodeCmd, if_neg (not_not.mpr hz)] at h
  split at h
  case h_8 => cases h
  case h_4 hn => rw [hop, hn]; exact encode_of_decodeStrobeArg p h
  case h_5 hn => rw [hop, hn]; exact encode_of_decodeTargetArg p h
  all_goals
    next hn =>
      injection h with h
      subst h
      rw [hop, hn]
      rfl

/-- A code of a command word decodes to a command row. -/
theorem isCommand_of_encode_eq_cmd {p : Params} {i : Instr} {w : Word16} (h : encode p i = .cmd w) : isCommand i = true := by
  cases i <;> first | rfl | cases h

theorem isWire_of_encode_eq_wire {p : Params} {i : Instr} {bs : List Byte} (h : encode p i = .wire bs) : isWire i = true := by
  cases i <;> first | rfl | cases h

/-- The rows a one-byte header that is no strobe's can be. -/
theorem encode_of_decodeHeader1_fields {p : Params} {r b : Bool} {a : BitVec 6} {i : Instr}
    (hs : strobeOfCode p (hdrByte r b a) = none) (h : decodeHeader1 p (hdrByte r b a) = .ok i) :
    encode p i = .wire [hdrByte r b a] ∧ wellFormed p i = true := by
  rw [decodeHeader1_of_noStrobe hs] at h
  split_ifs at h with hfifo hr hok hcount
  · injection h with h
    subst h hr
    obtain ⟨rfl, hf⟩ : b = true ∧ a = p.fifoAddr := by simpa [offsetIsFifo] using hfifo
    exact ⟨by rw [hf]; rfl, rfl⟩
  · injection h with h
    subst h
    obtain ⟨rfl, hf⟩ : b = true ∧ a = p.fifoAddr := by simpa [offsetIsFifo] using hfifo
    rw [Bool.not_eq_true] at hr
    exact ⟨by rw [hf, hr]; rfl, rfl⟩
  · injection h with h
    subst h
    refine ⟨encode_wireShort p r b a, ?_⟩
    have hcode : r = false → b = false → offsetIsStrobeCode p a = false := by
      rintro rfl rfl
      exact (offsetIsStrobeCode_eq_false_iff p a).mpr (strobeOfCode_eq_none hs)
    rw [wellFormed_wireShort, hok]
    cases r <;> cases b <;> simp_all
  · injection h with h
    subst h
    obtain ⟨⟨rfl, rfl⟩, hc⟩ : (r = true ∧ b = false) ∧ isCountOffset p a = true := by simpa using hcount
    exact ⟨rfl, by simp [wellFormed, hc]⟩

theorem encode_of_decodeHeader1 {p : Params} (hp : paramsOk p = true) {h : Byte} {i : Instr}
    (hd : decodeHeader1 p h = .ok i) : encode p i = .wire [h] ∧ wellFormed p i = true := by
  cases hs : strobeOfCode p h with
  | some k =>
    rw [decodeHeader1, hs] at hd
    injection hd with hd
    subst hd
    exact ⟨by rw [encode_wireStrobe, (strobeOfCode_eq_some hp).mp hs], wellFormed_wireStrobe p k⟩
  | none =>
    rw [← hdrByte_fields h] at hs hd ⊢
    exact encode_of_decodeHeader1_fields hs hd

theorem encode_of_decodeHeader2 {p : Params} {h off : Byte} {i : Instr} (hd : decodeHeader2 p h off = .ok i) :
    encode p i = .wire [h, off] ∧ wellFormed p i = true := by
  unfold decodeHeader2 at hd
  split at hd
  · next hpre =>
    injection hd with hd
    subst hd
    have ha : p.extPrefix.extractLsb' 0 6 = hdrA h := by
      have hnat : (hdrA h).toNat = p.extPrefix.toNat := by simpa [offsetIsPrefix] using hpre
      have hlt := (hdrA h).isLt
      apply BitVec.eq_of_toNat_eq
      simp only [BitVec.extractLsb'_toNat, Nat.shiftRight_zero]
      omega
    exact ⟨by rw [encode_wireExt, extHeader, ha, hdrByte_fields], wellFormed_wireExt p _ _ _⟩
  · cases hd

/-- Settles O3, by the kind of code and, for a header, its number of bytes. -/
theorem encodeInvertsDecode : Obligations.EncodeInvertsDecode := by
  unfold Obligations.EncodeInvertsDecode
  intro p c i hp hd
  match c with
  | .cmd w =>
    have he := encode_of_decodeCmd p hd
    exact ⟨he, wellFormed_of_isCommand (isCommand_of_encode_eq_cmd he) p⟩
  | .wire [] => cases hd
  | .wire [h] => exact encode_of_decodeHeader1 hp hd
  | .wire [h, off] => exact encode_of_decodeHeader2 hd
  | .wire (_ :: _ :: _ :: _) => cases hd

/-! ### The headers of the register accesses (R70, R107, R130) -/

/-- A short register header with an offset that may be sent is some row's, if only a strobe's or a FIFO access's. -/
theorem decode_shortHeader {p : Params} {r b : Bool} {a : BitVec 6}
    (h : shortOffsetOk p a = true ∨ r = true ∧ b = false ∧ isCountOffset p a = true) :
    ∃ i, decode p (.wire [hdrByte r b a]) = .ok i := by
  change ∃ i, decodeHeader1 p (hdrByte r b a) = .ok i
  cases hs : strobeOfCode p (hdrByte r b a) with
  | some k => exact ⟨_, by rw [decodeHeader1, hs]⟩
  | none =>
    rw [decodeHeader1_of_noStrobe hs]
    split_ifs with hfifo hr hok hcount
    · exact ⟨_, rfl⟩
    · exact ⟨_, rfl⟩
    · exact ⟨_, rfl⟩
    · exact ⟨_, rfl⟩
    · rcases h with h | ⟨rfl, rfl, h⟩
      · exact absurd h hok
      · exact absurd h (by simpa using hcount)

/-- The offset of a short address that the address check accepts may be sent (R130). -/
theorem shortOffsetOk_of_addrCheck {p : Params} {addr : Word16} (h : addrCheck p addr = .ok)
    (hshort : addrExt addr = p.shortSpace) :
    shortOffsetOk p ((addrOff addr).extractLsb' 0 6) = true ∧ (addrOff addr).toNat < 0x40 := by
  unfold addrCheck at h
  rw [if_pos hshort] at h
  split_ifs at h with hrsv hbad
  have hlt : (addrOff addr).toNat < 0x40 := by
    rw [not_or, BitVec.le_def] at hbad
    exact not_le.mp hbad.1
  have hne : (addrOff addr).toNat ≠ p.extPrefix.toNat := fun he => hbad (.inr (BitVec.eq_of_toNat_eq he))
  have hnr : ¬ (p.fifoRsvLo.toNat ≤ (addrOff addr).toNat ∧ (addrOff addr).toNat ≤ p.fifoRsvHi.toNat) :=
    fun he => hrsv ⟨hshort, he.1, he.2⟩
  have hoff : ((addrOff addr).extractLsb' 0 6).toNat = (addrOff addr).toNat := by
    rw [BitVec.extractLsb'_toNat, Nat.shiftRight_zero]
    exact Nat.mod_eq_of_lt hlt
  refine ⟨?_, hlt⟩
  simp only [shortOffsetOk, offsetReserved, offsetIsPrefix, hoff]
  simp only [Bool.and_eq_true, Bool.not_eq_true', Bool.and_eq_false_iff, decide_eq_false_iff_not, beq_eq_false_iff_ne]
  exact ⟨by tauto, hne⟩

/-- An access the RSC makes: an address the check accepts, or the single read of a byte count (R70). -/
def AccessMade (p : Params) (r b : Bool) (addr : Word16) : Prop :=
  addrCheck p addr = .ok ∨ (r = true ∧ b = false ∧ (addr = p.addrNumTxBytes ∨ addr = p.addrNumRxBytes))

/-- In its short form an access made has an offset the decoder knows. -/
theorem accessMade_short {p : Params} {r b : Bool} {addr : Word16} (h : AccessMade p r b addr) {off : Byte}
    (hform : regHeaderForm p addr = (true, off)) :
    shortOffsetOk p (off.extractLsb' 0 6) = true ∨ r = true ∧ b = false ∧ isCountOffset p (off.extractLsb' 0 6) = true := by
  rcases h with hok | ⟨hr, hb, haddr⟩
  · left
    unfold regHeaderForm at hform
    split_ifs at hform with hshort hext
    · cases hform
      exact (shortOffsetOk_of_addrCheck hok hshort).1
    · cases hform
    · exact absurd (headerGiven_of_addrCheck hok) (by simp [headerGiven, hshort, hext])
  · refine .inr ⟨hr, hb, ?_⟩
    simp only [isCountOffset, List.any_cons, List.any_nil, Bool.or_false, Bool.or_eq_true]
    exact haddr.imp (fun e => by rw [← e, hform]; simp) fun e => by rw [← e, hform]; simp

/-- Every header of an access made is some row's. -/
theorem decode_regHeader {p : Params} (hp : paramsOk p = true) {r b : Bool} {addr : Word16} (h : AccessMade p r b addr) :
    ∃ i, decode p (encode p (regHeader p r b addr)) = .ok i := by
  rcases regHeader_cases p r b addr with ⟨off, hform, hrow⟩ | ⟨off, -, hrow⟩
  · rw [hrow, encode_wireShort]
    exact decode_shortHeader (accessMade_short h hform)
  · rw [hrow]
    exact ⟨_, decode_wireExt hp r b off⟩

/-- By default no short offset that may be sent is a strobe's code or FIFO_ADDR (R130). -/
theorem wellFormed_default_wireShort {r b : Bool} {a : BitVec 6} (h : shortOffsetOk {} a = true) :
    wellFormed {} (wireShort r b a) = true := by
  have hall : ∀ a : BitVec 6, shortOffsetOk {} a = true → offsetIsStrobeCode {} a = false ∧ offsetIsFifo {} a = false := by
    decide
  obtain ⟨hs, hf⟩ := hall a h
  rw [wellFormed_wireShort, h, hs, hf]
  cases r <;> cases b <;> rfl

/-- By default every access made has a well-formed header row. -/
theorem wellFormed_default_regHeader {r b : Bool} {addr : Word16} (h : AccessMade {} r b addr) :
    wellFormed {} (regHeader {} r b addr) = true := by
  rcases regHeader_cases {} r b addr with ⟨off, hform, hrow⟩ | ⟨off, -, hrow⟩
  · rw [hrow]
    rcases accessMade_short h hform with hok | ⟨rfl, rfl, hcount⟩
    · exact wellFormed_default_wireShort hok
    · rw [wellFormed_wireShort, hcount]
      exact Bool.or_true _
  · rw [hrow]
    exact wellFormed_wireExt _ _ _ _

/-- Settles O4: the header bytes are those of the access's row; by default that row is well-formed, so they decode to it. -/
theorem registerHeaderBytes : Obligations.RegisterHeaderBytes := by
  unfold Obligations.RegisterHeaderBytes
  intro p r b addr hp hmade
  refine ⟨encode_regHeader p r b addr, fun hs => by rw [headerOfAccess, if_pos hs],
    fun hs he => by rw [headerOfAccess, if_neg hs, if_pos he]; rfl, ?_, ?_⟩
  · rw [← encode_regHeader]
    exact decode_regHeader hp hmade
  · rintro rfl
    rw [← encode_regHeader]
    exact decodeInvertsEncode {} _ hp (wellFormed_default_regHeader hmade)

/-- Settles O1: ten words of the table, each decoded. -/
theorem tableWordsDecode : Obligations.TableWordsDecode := by
  unfold Obligations.TableWordsDecode
  decide

/-- The header rows by kind: short, extended, FIFO, strobe (R107 to R109). -/
theorem wire_cases {i : Instr} (hw : isWire i = true) :
    (∃ r b a, i = wireShort r b a) ∨ (∃ r b off, i = wireExt r b off)
    ∨ i = .wireTxFifoBurstWrite ∨ i = .wireRxFifoBurstRead ∨ ∃ k, i = wireStrobe k := by
  cases i
  case wireShortSingleWrite a => exact .inl ⟨false, false, a, rfl⟩
  case wireShortBurstWrite a => exact .inl ⟨false, true, a, rfl⟩
  case wireShortSingleRead a => exact .inl ⟨true, false, a, rfl⟩
  case wireShortBurstRead a => exact .inl ⟨true, true, a, rfl⟩
  case wireExtSingleWrite off => exact .inr (.inl ⟨false, false, off, rfl⟩)
  case wireExtBurstWrite off => exact .inr (.inl ⟨false, true, off, rfl⟩)
  case wireExtSingleRead off => exact .inr (.inl ⟨true, false, off, rfl⟩)
  case wireExtBurstRead off => exact .inr (.inl ⟨true, true, off, rfl⟩)
  case wireTxFifoBurstWrite => exact .inr (.inr (.inl rfl))
  case wireRxFifoBurstRead => exact .inr (.inr (.inr (.inl rfl)))
  case wireStrobeSres => exact .inr (.inr (.inr (.inr ⟨.sres, rfl⟩)))
  case wireStrobeScal => exact .inr (.inr (.inr (.inr ⟨.scal, rfl⟩)))
  case wireStrobeSrx => exact .inr (.inr (.inr (.inr ⟨.srx, rfl⟩)))
  case wireStrobeStx => exact .inr (.inr (.inr (.inr ⟨.stx, rfl⟩)))
  case wireStrobeSfstxon => exact .inr (.inr (.inr (.inr ⟨.sfstxon, rfl⟩)))
  case wireStrobeSidle => exact .inr (.inr (.inr (.inr ⟨.sidle, rfl⟩)))
  case wireStrobeSfrx => exact .inr (.inr (.inr (.inr ⟨.sfrx, rfl⟩)))
  case wireStrobeSftx => exact .inr (.inr (.inr (.inr ⟨.sftx, rfl⟩)))
  case wireStrobeSpwd => exact .inr (.inr (.inr (.inr ⟨.spwd, rfl⟩)))
  case wireStrobeSnop => exact .inr (.inr (.inr (.inr ⟨.snop, rfl⟩)))
  all_goals cases hw

/-- The first header byte of a row has R = 1 exactly when the row keeps MISO (R106, R111). -/
theorem hdrR_of_encode_wire {p : Params} (hp : paramsOk p = true) {i : Instr} (hw : isWire i = true) :
    ∃ h rest, encode p i = .wire (h :: rest) ∧ hdrR h = wireKeep i := by
  rcases wire_cases hw with ⟨r, b, a, rfl⟩ | ⟨r, b, off, rfl⟩ | rfl | rfl | ⟨k, rfl⟩
  · exact ⟨_, _, encode_wireShort p r b a, by cases r <;> cases b <;> simp [wireShort, wireKeep]⟩
  · exact ⟨_, _, encode_wireExt p r b off, by cases r <;> cases b <;> simp [wireExt, wireKeep]⟩
  · exact ⟨_, _, rfl, by simp [wireKeep]⟩
  · exact ⟨_, _, rfl, by simp [wireKeep]⟩
  · refine ⟨_, _, encode_wireStrobe p k, ?_⟩
    have hlt : (p.strobeCode k).toNat < 2 ^ 7 := Nat.lt_of_lt_of_le (strobeCode_lt hp k) (by decide)
    rw [wireKeep_wireStrobe]
    exact Nat.testBit_lt_two_pow hlt

/-- Settles O5, row by row from the encoder and the data phases. -/
theorem headerRowBytes : Obligations.HeaderRowBytes := by
  unfold Obligations.HeaderRowBytes
  intro s a off _
  have hbyte : ∀ a : BitVec 6, hdrByte false false a = 0#2 ++ a ∧ hdrByte false true a = 1#2 ++ a
      ∧ hdrByte true false a = 2#2 ++ a ∧ hdrByte true true a = 3#2 ++ a := by decide
  obtain ⟨h0, h1, h2, h3⟩ := hbyte a
  refine ⟨⟨by rw [encode, h0], rfl⟩, ⟨by rw [encode, h1], rfl⟩, ⟨by rw [encode, h2], rfl⟩, ⟨by rw [encode, h3], rfl⟩,
    ⟨rfl, rfl⟩, ⟨rfl, rfl⟩, ⟨rfl, rfl⟩, ⟨rfl, rfl⟩, ⟨rfl, rfl⟩, ⟨rfl, rfl⟩,
    fun k => ⟨encode_wireStrobe {} k, wireData_wireStrobe k s⟩, fun i hw => ?_⟩
  obtain ⟨h, rest, he, hr⟩ := hdrR_of_encode_wire (p := {}) (by decide) hw
  rw [he, ← hr]
  exact ⟨fun hk => ⟨h, rest, rfl, hk⟩, fun ⟨h', rest', he', hk⟩ => by cases he'; exact hk⟩

end Sys2Proof.Proofs
end

section
/-! SUPPORT. The host's steps by address (R24 to R50): which CSR stands at an address, what a write to an idle machine changes,
and the reads after it. -/

namespace Sys2Proof.Proofs

open Sys2Proof Sys2Proof.Machine Sys2Proof.Laws

/-! ### The CSR map by address (R25, R26) -/

/-- The address of a CSR (R25); a reserved one has several, of which none is given. -/
def csrAddress : Csr → Nat
  | .cmd => 0x00
  | .mod => 0x01
  | .addrHi => 0x02
  | .addrLo => 0x03
  | .len => 0x04
  | .arg => 0x05
  | .maxPolls => 0x06
  | .status => 0x08
  | .result => 0x09
  | .chipStatus => 0x0A
  | .chipState => 0x0B
  | .errcnt => 0x0C
  | .modFlags => 0x0D
  | .lastPolls => 0x0E
  | .rxCount => 0x10
  | .rxLen => 0x11
  | .rxAddr => 0x12
  | .rxRssi => 0x13
  | .rxStatus2 => 0x14
  | .rxLqi => 0x15
  | .rxFlags => 0x16
  | .dbuf i => 0x80 + i
  | .reserved => 0x07

/-- Every CSR stands at its one address. -/
theorem toNat_of_csrAt {p : Params} {a : Byte} (h : csrAt p a ≠ .reserved) : a.toNat = csrAddress (csrAt p a) := by
  unfold csrAt at h ⊢
  split
  case h_22 =>
    split
    · next hi => exact (Nat.add_sub_cancel' hi.1).symm
    · next hi => simp [hi] at h
  all_goals assumption

/-- No CSR stands below the window of DBUF at an address the map does not name (R26). -/
theorem csrAt_gap {p : Params} {a : Byte} (h : a = 0x07 ∨ a = 0x0F ∨ (0x17 ≤ a ∧ a < 0x80)) : csrAt p a = .reserved := by
  have hn : a.toNat = 0x07 ∨ a.toNat = 0x0F ∨ (0x17 ≤ a.toNat ∧ a.toNat < 0x80) := by
    rcases h with rfl | rfl | ⟨h1, h2⟩
    · exact .inl rfl
    · exact .inr (.inl rfl)
    · exact .inr (.inr ⟨BitVec.le_def.mp h1, BitVec.lt_def.mp h2⟩)
  by_contra hne
  have hat := toNat_of_csrAt hne
  generalize csrAt p a = r at hne hat
  cases r
  case reserved => exact hne rfl
  all_goals
    simp only [csrAddress] at hat
    omega

/-- The reserved addresses (R26). -/
theorem csrAt_reserved {p : Params} {a : Byte}
    (h : a = 0x07 ∨ a = 0x0F ∨ (0x17 ≤ a ∧ a < 0x80) ∨ 0x80 + p.dbufCap ≤ a.toNat) : csrAt p a = .reserved := by
  by_cases hge : 0x80 + p.dbufCap ≤ a.toNat
  · rw [csrAt_of_ge (by omega), if_neg (by omega)]
  · exact csrAt_gap (by tauto)

/-- The read-only addresses (R25). -/
theorem readOnly_cases {a : Byte}
    (h : a = 0x09 ∨ a = 0x0A ∨ a = 0x0B ∨ a = 0x0D ∨ a = 0x0E ∨ (0x10 ≤ a ∧ a ≤ 0x16)) :
    a ∈ ([0x09, 0x0A, 0x0B, 0x0D, 0x0E, 0x10, 0x11, 0x12, 0x13, 0x14, 0x15, 0x16] : List Byte) := by
  revert a
  decide

/-! ### A host's write to an idle machine (R29 to R50) -/

/-- The write turn with BUSY = 0 is the write's effect on the addressed CSR. -/
theorem step_write_idle {s : State} {a v : Byte} {rest : List Turn} (hp : paramsOk s.cfg = true) (hb : s.csr.busy = false)
    (ha : s.agenda = .host (.write a v) :: rest) :
    step s = .next (csrWriteIdle (popTurn rest s) v (csrAt s.cfg a)) := by
  rw [step_host hp ha, hostAccess]
  rcases hostWrite_cases a v (popTurn rest s) with ⟨hbusy, -⟩ | ⟨-, h⟩
  · rw [popTurn_csr, hb] at hbusy; cases hbusy
  · rw [h]; rfl

/-- A write to a reserved or read-only CSR is ignored (R25, R26). -/
theorem step_write_ignored {s : State} {a v : Byte} {rest : List Turn} (hp : paramsOk s.cfg = true)
    (hb : s.csr.busy = false) (ha : s.agenda = .host (.write a v) :: rest)
    (hig : ∀ u w, csrWriteIdle u w (csrAt s.cfg a) = u) : step s = .next { s with agenda := rest } := by
  rw [step_write_idle hp hb ha, hig]
  rfl

/-- Settles O9: a read turn and a poll turn are the read of the addressed CSR; DONE decides the turns after a poll. -/
theorem hostReadFrame : Obligations.HostReadFrame := by
  unfold Obligations.HostReadFrame
  intro s rest hp
  have hpoll : s.agenda = .poll :: rest → step s = .next (pollStatus rest s) := fun ha => by simp [step, ha, hp]
  refine ⟨fun a ha => ?_, fun ha hd => ?_, fun ha hd => ?_⟩
  · rw [step_host hp ha]
    rfl
  · rw [hpoll ha, pollStatus, if_pos hd]
    rfl
  · rw [hpoll ha, pollStatus, if_neg (by simp [hd])]
    rfl

/-- Settles O11: at address 0 stands CMD, and its write starts a command. -/
theorem cmdWriteStartsCommand : Obligations.CmdWriteStartsCommand := by
  unfold Obligations.CmdWriteStartsCommand
  intro s v rest hp ha hb
  rw [step_write_idle hp hb ha]
  rfl

/-! #### The operand CSRs -/

/-- The registers whose value depends on MOD's module (R31). -/
def isPerModule : Csr → Bool
  | .chipStatus | .chipState | .errcnt | .modFlags => true
  | _ => false

theorem not_perModule {p : Params} {b : Byte} (h : b < 0x0A ∨ 0x0D < b) : isPerModule (csrAt p b) = false := by
  have hn : b.toNat < 0x0A ∨ 0x0D < b.toNat := h.imp BitVec.lt_def.mp BitVec.lt_def.mp
  by_contra hne
  have hper : isPerModule (csrAt p b) = true := by simpa using hne
  have hat := toNat_of_csrAt (p := p) (a := b) (by rintro he; rw [he] at hper; cases hper)
  generalize csrAt p b = r at hper hat
  cases r
  case chipStatus | chipState | errcnt | modFlags =>
    simp only [csrAddress] at hat
    omega
  all_goals cases hper

/-- The operand CSRs (R30 to R36). -/
def isOperand : Csr → Bool
  | .cmd | .mod | .addrHi | .addrLo | .len | .arg | .maxPolls => true
  | _ => false

/-- A write of an operand CSR other than CMD changes CSRs only. -/
theorem csrWriteIdle_operand_frame {r : Csr} (hr : isOperand r = true) (hcmd : r ≠ .cmd) (u : State) (v : Byte) :
    csrWriteIdle u v r = { u with csr := (csrWriteIdle u v r).csr } := by
  cases r <;> first | rfl | exact absurd rfl hcmd | cases hr

/-- After it, every other CSR outside the per-module views reads what it did. -/
theorem csrValue_csrWriteIdle_operand {r q : Csr} (hr : isOperand r = true) (hcmd : r ≠ .cmd) (hq : q ≠ r)
    (hper : isPerModule q = false) (u : State) (v : Byte) : csrValue (csrWriteIdle u v r) q = csrValue u q := by
  cases r
  case cmd => exact absurd rfl hcmd
  case mod | addrHi | addrLo | len | arg | maxPolls =>
    cases q <;> first | rfl | exact absurd rfl hq | cases hper
  all_goals cases hr

theorem csrAt_operand {p : Params} {a : Byte} (ha : a ∈ ([0x00, 0x01, 0x02, 0x03, 0x04, 0x05, 0x06] : List Byte)) :
    isOperand (csrAt p a) = true := by
  simp only [List.mem_cons, List.not_mem_nil, or_false] at ha
  rcases ha with rfl | rfl | rfl | rfl | rfl | rfl | rfl <;> rfl

/-- Two addresses of one operand CSR are one address. -/
theorem csrAt_operand_inj {p : Params} {a b : Byte} (ha : isOperand (csrAt p a) = true) (h : csrAt p b = csrAt p a) : b = a := by
  have hne : csrAt p a ≠ .reserved := by intro he; rw [he] at ha; cases ha
  apply BitVec.eq_of_toNat_eq
  rw [toNat_of_csrAt hne, toNat_of_csrAt (h ▸ hne), h]

/-- An operand CSR reads what was written, MOD its two bits. -/
theorem csrValue_operand_written {p : Params} {a : Byte}
    (ha : a ∈ ([0x00, 0x01, 0x02, 0x03, 0x04, 0x05, 0x06] : List Byte)) (u : State) (v : Byte) :
    csrValue (csrWriteIdle u v (csrAt p a)) (csrAt p a) = if a = 0x01 then v &&& 0x03 else v := by
  have hmod : ∀ v : Byte, (v.setWidth 2).setWidth 8 = v &&& 0x03 := by decide
  simp only [List.mem_cons, List.not_mem_nil, or_false] at ha
  rcases ha with rfl | rfl | rfl | rfl | rfl | rfl | rfl
  case inr.inl => exact hmod v
  all_goals rfl

theorem csrAt_ne_cmd {p : Params} {a : Byte} (ha : a ≠ 0x00) : csrAt p a ≠ .cmd := by
  intro h
  have hat := toNat_of_csrAt (p := p) (a := a) (by rw [h]; decide)
  rw [h] at hat
  exact ha (BitVec.eq_of_toNat_eq hat)

/-- Settles O12: the write's effect is that of its one CSR, which alone reads another value after it. -/
theorem operandWriteReadsBack : Obligations.OperandWriteReadsBack := by
  unfold Obligations.OperandWriteReadsBack
  intro s a v rest hp hb ha hmem
  have hop : isOperand (csrAt s.cfg a) = true := csrAt_operand hmem
  have hval := csrValue_operand_written (p := s.cfg) hmem (popTurn rest s) v
  refine ⟨_, step_write_idle hp hb ha, fun h => by rw [hval, if_neg h], fun h => by rw [hval, if_pos h], fun h => ?_⟩
  have hcmd := csrAt_ne_cmd (p := s.cfg) h
  refine ⟨csrWriteIdle_operand_frame hop hcmd _ _, fun b hne hout => ?_⟩
  have hother : csrAt s.cfg b ≠ csrAt s.cfg a := fun he => hne (csrAt_operand_inj hop he)
  rw [csrValue_csrWriteIdle_operand hop hcmd hother (not_perModule hout)]
  rfl

/-! #### STATUS, ERRCNT, the addresses that ignore writes, DBUF -/

/-- A bank with module `m`'s error count cleared (R41). -/
theorem modRegs_setErrcnt (s : State) (m k : ModIdx) (c : Byte) :
    modRegs (setErrcnt s m c) k = if k = m then { modRegs s m with errcnt := c } else modRegs s k := by
  rw [modRegs, setErrcnt_mods, bankGet_bankSet]
  rfl

/-- Settles O13: STATUS and ERRCNT by their own writes; ERRCNT's depends on whether MOD names a module. -/
theorem statusAndErrcntWrites : Obligations.StatusAndErrcntWrites := by
  unfold Obligations.StatusAndErrcntWrites
  intro s v rest hp hb
  refine ⟨fun ha => ?status, fun ha hm => ?count, fun ha hm => ?none⟩
  case status =>
    have hbit : ∀ v : Byte, v.getLsbD 2 = true ↔ ¬ v &&& 0x04 = 0 := by decide
    rw [step_write_idle hp hb ha]
    change Host.Outcome.next (csrWriteIdle (popTurn rest s) v .status) = _
    rw [csrWriteIdle]
    by_cases h : v &&& 0x04 = 0
    · rw [if_neg (by rw [hbit, not_not]; exact h), if_pos h]
      rfl
    · rw [if_pos ((hbit v).mpr h), if_neg h]
      rfl
  case count =>
    have hclear : csrWriteIdle (popTurn rest s) v .errcnt = setErrcnt (popTurn rest s) (moduleOf s) 0 := if_pos hm
    have hregs := modRegs_setErrcnt (popTurn rest s) (moduleOf s) (c := 0)
    refine ⟨setErrcnt (popTurn rest s) (moduleOf s) 0, ?_, ?_, rfl, fun m hne => ?_, ?_⟩
    · rw [step_write_idle hp hb ha, ← hclear]
      rfl
    · change perModule (setErrcnt (popTurn rest s) (moduleOf s) 0) (fun r => r.errcnt) = 0
      rw [perModule_of_lt (by exact hm), moduleOf_setErrcnt, moduleOf_popTurn, hregs, if_pos rfl]
    · rw [hregs, if_neg hne]
      rfl
    · rw [hregs, if_pos rfl]
      rfl
  case none =>
    rw [step_write_idle hp hb ha]
    change Host.Outcome.next (clearErrcnt (popTurn rest s)) = _
    rw [clearErrcnt, if_neg (by exact Nat.not_lt.mpr hm)]
    rfl

/-- Settles O14: at a reserved address stands no CSR, at a read-only one a CSR whose write changes nothing. -/
theorem reservedAndReadOnlyAddresses : Obligations.ReservedAndReadOnlyAddresses := by
  unfold Obligations.ReservedAndReadOnlyAddresses
  intro s a hp
  refine ⟨fun h => ?_, fun h v rest hb ha => ?_⟩
  · have hr := csrAt_reserved (p := s.cfg) h
    exact ⟨by rw [hr]; rfl, fun v rest hb ha => step_write_ignored hp hb ha fun u w => by rw [hr]; rfl⟩
  · refine step_write_ignored hp hb ha fun u w => ?_
    have hmem := readOnly_cases h
    simp only [List.mem_cons, List.not_mem_nil, or_false] at hmem
    rcases hmem with rfl | rfl | rfl | rfl | rfl | rfl | rfl | rfl | rfl | rfl | rfl | rfl <;> rfl

/-- Settles O16: DBUF's byte stands at its address of the window, and its write is a write of DBUF alone. -/
theorem dbufReadAfterWrite : Obligations.DbufReadAfterWrite := by
  unfold Obligations.DbufReadAfterWrite
  intro s i v rest hi hb hlt ha
  have hcsr := csrAt_dbuf hi.params hlt
  have hread : ∀ a, dbufAt (dbufPut (popTurn rest s) i v) a = if a = i then v else dbufAt s a := fun a => by
    rw [dbufAt_dbufPut (by exact hi.dbuf_wf)]
    simp only [popTurn_cfg, hlt, and_true]
    rfl
  refine ⟨dbufPut (popTurn rest s) i v, ?_, ?_, hread, ?_⟩
  · rw [step_write_idle hi.params hb ha, hcsr]
    rfl
  · rw [hcsr]
    change dbufAt (dbufPut (popTurn rest s) i v) i = v
    rw [hread, if_pos rfl]
  · rw [dbufPut, if_pos (by exact hlt)]
    rfl

end Sys2Proof.Proofs
end

section
/-! SUPPORT. Reset and completion from a state with the invariant (R221, R250 to R252): the one chip select that may be low, what
a RefDev keeps when its transaction is cut; then what a step of the RSC runs (R15, R62), and the CHECK of each command (R130,
R131, R191, R225). -/

namespace Sys2Proof.Proofs

open Sys2Proof Sys2Proof.Machine Sys2Proof.Laws

/-! ### The chip selects of a state with the invariant (R23, R61) -/

/-- Every chip select is high, or the one of MOD's module alone is low. -/
theorem csN_cases {s : State} (hi : Inv s) :
    s.csN = sameForAll true ∨ s.csN = bankSet (sameForAll true) (moduleOf s) false := by
  rw [hi.selects, selectsDue]
  split
  · exact .inl rfl
  · split
    · exact .inl rfl
    · exact .inr rfl

/-- What releasing the chip selects does when at most the module's is low. -/
structure Released (s u : State) : Prop where
  hist : u.hist = s.hist ++ (if bankGet s.csN (moduleOf s) = false then [Event.cs (moduleOf s) true] else [])
  high : ∀ m, bankGet s.csN m = true → bankGet u.chips m = bankGet s.chips m
  low : ∀ m, bankGet s.csN m = false → bankGet u.chips m = chipDeselect s.cfg (bankGet s.chips m)

theorem released_releaseAll {s : State} (hi : Inv s) : Released s (releaseAll s) := by
  rcases csN_cases hi with h | h
  · rw [releaseAll_of_high h]
    have hm : ∀ m, bankGet s.csN m = true := fun m => by rw [h, bankGet_sameForAll]
    exact ⟨by simp [hm], fun _ _ => rfl, fun m hl => by rw [hm] at hl; cases hl⟩
  · rw [releaseAll_of_one_low h]
    have hm : ∀ m, bankGet s.csN m = if m = moduleOf s then false else true := fun m => by
      rw [h, bankGet_bankSet, bankGet_sameForAll]
    refine ⟨by simp [hm], fun m hh => ?_, fun m hl => ?_⟩
    · have hne : m ≠ moduleOf s := by rintro rfl; simp [hm] at hh
      rw [csHigh_chips, bankGet_bankSet_other _ _ hne]
    · obtain rfl : m = moduleOf s := by by_contra hne; simp [hm, hne] at hl
      rw [csHigh_chips, bankGet_bankSet_same]

/-! ### A RefDev whose transaction ends (R91, R92) -/

/-- Neither the transient rule nor the cut of a transaction that is no strobe touches registers, FIFOs or sent frames. -/
theorem refDeselect_storage (p : Params) {d : RefDev} (h : refTxnStrobe p d.cur = none) :
    (refDeselect p d).regs = d.regs ∧ (refDeselect p d).rxfifo = d.rxfifo ∧ (refDeselect p d).txfifo = d.txfifo
      ∧ (refDeselect p d).sent = d.sent := by
  have htick : (refTick d).regs = d.regs ∧ (refTick d).rxfifo = d.rxfifo ∧ (refTick d).txfifo = d.txfifo
      ∧ (refTick d).sent = d.sent := by
    unfold refTick
    repeat' split
    all_goals exact ⟨rfl, rfl, rfl, rfl⟩
  simp only [refDeselect, h]
  exact htick

/-! ### The statements on reset and completion -/

/-- Settles O17: the reset step is `blockReset`, whose chip-select part is `releaseAll`'s. -/
theorem blockResetLeaves : Obligations.BlockResetLeaves := by
  unfold Obligations.BlockResetLeaves
  intro s lost rest hi ha
  have hpop : Released s (releaseAll (popTurn rest s)) := by
    have hr := released_releaseAll (s := popTurn rest s)
      ⟨hi.params, hi.busy_phase, hi.busy_done, hi.pending_busy, hi.selects, hi.idle_clear, hi.check_clear, hi.header,
        hi.command, hi.polls, hi.samples, hi.dbuf_wf, hi.dbuf_cap⟩
    exact ⟨hr.hist, hr.high, hr.low⟩
  have hcases : ∀ m, bankGet s.csN m = true ∨ bankGet s.csN m = false := fun m => by cases bankGet s.csN m <;> simp
  refine ⟨blockReset (popTurn rest s), _, by simp [step, ha, hi.params], rfl, rfl, fun _ => rfl, rfl, rfl, ?hist, rfl,
    hpop.high, hpop.low, fun m hm => ?other, fun m d hd hn => ?refDev, rfl, rfl, rfl⟩
  case hist => rw [blockReset_hist, hpop.hist]
  case other =>
    rcases hcases m with h | h
    · exact hpop.high m h
    · exact (hpop.low m h).trans (chipDeselect_of_not_refDev _ hm)
  case refDev =>
    rcases hcases m with h | h
    · exact ⟨d, (hpop.high m h).trans hd, rfl, rfl, rfl, rfl⟩
    · exact ⟨refDeselect s.cfg d, (hpop.low m h).trans (by rw [hd]; rfl), refDeselect_storage s.cfg hn⟩

/-- Settles O20. -/
theorem completionEffect : Obligations.CompletionEffect := by
  unfold Obligations.CompletionEffect
  intro s code hi
  have hr := released_releaseAll hi
  exact ⟨_, rfl, complete_csr code s, complete_csN code s, rfl, rfl, rfl, rfl, by rw [complete_hist, hr.hist],
    complete_mods code s, fun a => by rw [dbufAt, complete_dbuf, dbufAt], hr.high, hr.low, complete_cfg code s,
    complete_agenda code s, complete_hbRdata code s⟩

/-- Settles O18: one concrete state, all 256 addresses. -/
theorem resetStateReads : Obligations.ResetStateReads := by
  unfold Obligations.ResetStateReads
  exact ⟨by decide, by decide, rfl, rfl, rfl, rfl⟩

/-- Settles O19: an idle machine with nothing in progress and an empty DBUF. -/
theorem invAtReset : Obligations.InvAtReset := by
  unfold Obligations.InvAtReset
  have hpower : ∀ (p : Params) (chips : Bank Chip) (agenda : List Turn), paramsOk p = true →
      Inv { State.powerOn p chips with agenda := agenda } := fun p chips agenda hp =>
    { params := hp
      busy_phase := by simp [State.powerOn, Csrs.reset, Seq.reset]
      busy_done := by simp [State.powerOn, Csrs.reset]
      pending_busy := by simp [State.powerOn, Csrs.reset]
      selects := rfl
      idle_clear := fun _ => rfl
      check_clear := fun h => by cases h
      header := rfl
      command := fun h => by cases h
      polls := by simp [pollsSound, State.powerOn, Seq.reset, BitVec.le_def]
      samples := Nat.zero_le _
      dbuf_wf := rfl
      dbuf_cap := rfl }
  exact ⟨hpower {} (sameForAll .oracle) [] (by decide), hpower⟩

/-! ### What a step of the RSC runs (R12, R15, R62) -/

/-- In its own turn the RSC acts on the state with that turn taken. -/
theorem step_rsc {s : State} (hp : paramsOk s.cfg = true) (ht : rscTurn s = true) :
    step s = rscStep { s with agenda := s.agenda.tail } := by
  unfold rscTurn at ht
  split at ht
  · next ha => simp only [step, ha, checked_ok hp, List.tail_nil]; rw [← ha]
  · next rest ha => simp only [step, ha, checked_ok hp, List.tail_cons]; rfl
  · cases ht

theorem rscStep_check {s : State} {i : Instr} (hc : s.seq.phase = .check)
    (hd : decode s.cfg (.cmd (commandWord s)) = .ok i) : rscStep s = exec i s := by
  simp only [rscStep, fetch, hc, fetchCommand, hd]

theorem rscStep_between {s : State} {i : Instr} (hr : s.seq.phase = .run) (hn : s.seq.txn = none)
    (hd : decode s.cfg (.cmd (commandWord s)) = .ok i) : rscStep s = exec i s := by
  simp only [rscStep, fetch, hr, hn, fetchCommand, hd]

theorem rscStep_txn {s : State} {i : Instr} {t : Txn} (hr : s.seq.phase = .run) (ht : s.seq.txn = some t)
    (hd : decode s.cfg (.wire t.hdr) = .ok i) : rscStep s = exec i s := by
  simp only [rscStep, fetch, hr, ht, fetchHeader, hd]

theorem rscStep_idle {s : State} (hi : s.seq.phase = .idle) : rscStep s = .next s := by
  simp only [rscStep, fetch, hi]

/-- The strobe codes differ as a list exactly when they differ as a function (R12). -/
theorem strobeCodes_nodup_iff (p : Params) :
    (allStrobes.map p.strobeCode).Nodup ↔ ∀ j k : Strobe, p.strobeCode j = p.strobeCode k → j = k := by
  constructor
  · exact fun hn j k h => List.inj_on_of_nodup_map hn (mem_allStrobes j) (mem_allStrobes k) h
  · exact fun h => List.Nodup.map h (by decide)

/-- `paramsOk` is R12, constraint by constraint. -/
theorem paramsOk_iff (p : Params) : paramsOk p = true ↔ R12Holds p := by
  have hfit : (allStrobes.all fun k => decide (p.strobeCode k < 0x40)) = true ↔ ∀ k, (p.strobeCode k).toNat < 0x40 := by
    simp only [List.all_eq_true, mem_allStrobes, true_implies, decide_eq_true_eq, BitVec.lt_def]
    rfl
  simp only [paramsOk, Bool.and_eq_true, hfit]
  simp only [decide_eq_true_eq, strobeCodes_nodup_iff, BitVec.le_def, BitVec.lt_def]
  constructor
  · rintro ⟨⟨⟨⟨⟨⟨⟨⟨⟨⟨⟨⟨hm1, hm4⟩, hr⟩, hr40⟩, hpre⟩, hhi⟩, hhi7⟩, hdiff⟩, hlt⟩, hpay⟩, hpayf⟩, hdepth⟩, hcap⟩
    exact ⟨⟨hm1, hm4⟩, ⟨hr, hr40⟩, hpre, ⟨by omega, hhi7⟩, hdiff, hlt, ⟨hpay, hpayf⟩, by omega, hcap⟩
  · rintro ⟨⟨hm1, hm4⟩, ⟨hr, hr40⟩, hpre, ⟨hhi, hhi7⟩, hdiff, hlt, ⟨hpay, hpayf⟩, hdepth, hcap⟩
    exact ⟨⟨⟨⟨⟨⟨⟨⟨⟨⟨⟨⟨hm1, hm4⟩, hr⟩, hr40⟩, hpre⟩, by omega⟩, hhi7⟩, hdiff⟩, hlt⟩, hpay⟩, hpayf⟩, by omega⟩, hcap⟩

/-- Settles O7: the RSC's step by what is fetched, and the refusal of other parameters. -/
theorem stepRunsTheFetchedInstruction : Obligations.StepRunsTheFetchedInstruction := by
  unfold Obligations.StepRunsTheFetchedInstruction
  refine ⟨fun s i hp ht => ?_, paramsOk_iff, fun s hn => ?_⟩
  · rw [step_rsc hp ht]
    exact ⟨fun hc hd => rscStep_check (by exact hc) hd, fun hr hn hd => rscStep_between (by exact hr) hn hd,
      fun t hr hx hd => rscStep_txn (by exact hr) hx hd, fun hidle => rscStep_idle hidle⟩
  · have hbad : paramsOk s.cfg = false := by
      rw [← Bool.not_eq_true, paramsOk_iff]
      exact hn
    simp only [step, checked, hbad, Bool.false_eq_true, if_false]
    split <;> rfl

/-- Settles O8: a placed command word stands in CHECK with the word in ARG and CMD; placed header bytes are those of the
transaction of the row they decode to. -/
theorem stepRunsThePlacedCode : Obligations.StepRunsThePlacedCode := by
  unfold Obligations.StepRunsThePlacedCode
  intro s c i hp hd
  have hstep : step (placeCode c s) = rscStep (placeCode c s) := by
    cases c <;> simp [step, placeCode, placeCommand, placeHeader, hp]
  rw [hstep]
  cases c with
  | cmd w =>
    refine rscStep_check rfl ?_
    have hw : commandWord (placeCode (.cmd w) s) = w := cmdArg_append_cmdLow w
    rw [hw]
    exact hd
  | wire bs =>
    have hbs : codeBytes (encode s.cfg i) = bs := by rw [(encodeInvertsDecode s.cfg _ i hp hd).1]; rfl
    have ht : txnOfBytes s bs = newTxn i s := by simp only [txnOfBytes, hd]
    refine rscStep_txn (t := newTxn i s) rfl (congrArg some ht) ?_
    change decode s.cfg (.wire (codeBytes (encode s.cfg i))) = .ok i
    rw [hbs, hd]

/-! ### The CHECK of each command (R130, R131, R191, R225) -/

/-- Settles O21: the bytes of the address as numbers, then R130's cases. -/
theorem addressCheckCases : Obligations.AddressCheckCases := by
  unfold Obligations.AddressCheckCases
  intro p addr ext off hp haddr hoff
  have hext : (addrExt addr).toNat = ext := by
    have := addr.isLt
    simp only [addrExt, BitVec.extractLsb'_toNat, Nat.shiftRight_eq_div_pow]
    omega
  have ho : (addrOff addr).toNat = off := by
    simp only [addrOff, BitVec.extractLsb'_toNat, Nat.shiftRight_zero]
    omega
  have hpre := extPrefix_of_paramsOk hp
  unfold addrCheck
  simp only [← BitVec.toNat_inj, BitVec.le_def, hext, ho]
  have h40 : (0x40 : Byte).toNat = 64 := rfl
  rw [h40]
  split_ifs <;> simp only [true_iff, false_iff, or_true, or_false, and_true] <;> omega

theorem exec_check {i : Instr} (hc : isCommand i = true) {s : State} (hp : s.seq.phase = .check) :
    (∀ r, checkOf i s = some r → exec i s = .next (complete r s))
    ∧ (checkOf i s = none → exec i s = .next { s with seq := { s.seq with phase := .run } }) := by
  rw [exec_command hc, runCommand_check hp]
  exact ⟨fun r hr => by rw [hr], fun hn => by rw [hn]⟩

/-- A failed check completes the command, with every chip select high as before (R225). -/
theorem completed_of_check {i : Instr} (hc : isCommand i = true) {s : State} (hp : s.seq.phase = .check)
    (high : s.csN = sameForAll true) {r : Result} (hr : checkOf i s = some r) :
    ∃ t, exec i s = .next t ∧ Completed r s.csr s.mods (dbufAt s) s t :=
  ⟨_, (exec_check hc hp).1 r hr, completed_complete high r⟩

theorem moduleCheck_of_ge {s : State} (h : s.cfg.nModules ≤ s.csr.mod.toNat) : moduleCheck s = some .badArg :=
  if_neg (Nat.not_lt.mpr h)

theorem moduleCheck_of_lt {s : State} (h : s.csr.mod.toNat < s.cfg.nModules) : moduleCheck s = none := if_pos h

/-- Every command's CHECK begins with the module. -/
theorem checkOf_of_noModule {i : Instr} {s : State} (h : s.cfg.nModules ≤ s.csr.mod.toNat) :
    checkOf i s = some .badArg := by
  have hm := moduleCheck_of_ge h
  have hreg : checkRegister s = some .badArg := by rw [checkRegister, hm]; rfl
  have htx : checkTxFrame s = some .badArg := by rw [checkTxFrame, hm]; rfl
  have honly : checkModuleOnly s = some .badArg := by rw [checkModuleOnly, hm]; rfl
  cases i <;> assumption

theorem checkModuleOnly_of_lt {s : State} (h : s.csr.mod.toNat < s.cfg.nModules) : checkModuleOnly s = none := by
  rw [checkModuleOnly, moduleCheck_of_lt h]; rfl

/-- CHECK of a register command whose module exists: the address, then the length. -/
theorem checkRegister_of_lt {s : State} (h : s.csr.mod.toNat < s.cfg.nModules) :
    checkRegister s =
      if addrCheck s.cfg (addrOperand s) ≠ .ok then some (addrCheck s.cfg (addrOperand s))
      else if lenCheck s.cfg (lenOperand s) ≠ .ok then some (lenCheck s.cfg (lenOperand s)) else none := by
  rw [checkRegister, moduleCheck_of_lt h]
  simp only [firstFailure, Machine.failure, ne_eq, ite_not]
  split_ifs <;> rfl

theorem lenCheck_cases (p : Params) (n : Nat) :
    (1 ≤ n ∧ n ≤ p.dbufCap ∧ lenCheck p n = .ok) ∨ ((n = 0 ∨ p.dbufCap < n) ∧ lenCheck p n = .badLen) := by
  by_cases h : 1 ≤ n ∧ n ≤ p.dbufCap
  · exact .inl ⟨h.1, h.2, if_pos h⟩
  · exact .inr ⟨by omega, if_neg h⟩

theorem isRegister {i : Instr} {arg : Byte} (h : i = .regRead arg ∨ i = .regWrite arg ∨ i = .regWriteVerify arg) :
    isCommand i = true ∧ ∀ s, checkOf i s = checkRegister s := by
  rcases h with rfl | rfl | rfl <;> exact ⟨rfl, fun _ => rfl⟩

/-- Settles O22: the three commands share one CHECK, and its failures come in its order. -/
theorem registerCommandCheck : Obligations.RegisterCommandCheck := by
  unfold Obligations.RegisterCommandCheck
  intro i arg s hi hp high
  obtain ⟨hc, hcheck⟩ := isRegister hi
  refine ⟨fun hm => completed_of_check hc hp high (checkOf_of_noModule hm), fun hm ha => ?addr, fun hm ha hl => ?len,
    fun hm ha h1 hcap => ?passes⟩
  case addr =>
    refine completed_of_check hc hp high ?_
    rw [hcheck, checkRegister_of_lt hm, if_pos (by exact ha)]
    rfl
  case len =>
    have hbad : lenCheck s.cfg (lenOperand s) = .badLen := by
      rcases lenCheck_cases s.cfg (lenOperand s) with ⟨h1, h2, -⟩ | ⟨-, h⟩
      · have hzero : s.csr.len = 0 → s.csr.len.toNat = 0 := fun h => by rw [h]; rfl
        simp only [lenOperand] at h1 h2
        rcases hl with hl | hl
        · have := hzero hl; omega
        · omega
      · exact h
    refine completed_of_check hc hp high ?_
    rw [hcheck, checkRegister_of_lt hm, if_neg (not_not.mpr (by exact ha)), hbad, if_pos (by decide)]
  case passes =>
    have hok : lenCheck s.cfg (lenOperand s) = .ok := if_pos ⟨h1, hcap⟩
    refine (exec_check hc hp).2 ?_
    rw [hcheck, checkRegister_of_lt hm, if_neg (not_not.mpr (by exact ha)), hok, if_neg (by simp)]

/-- The rows whose CHECK is the module alone. -/
theorem checkOf_moduleOnly {i : Instr} (h : (∃ k, i = strobeInstr k) ∨ (∃ g, i = setStateInstr g) ∨ ∃ a, i = .rxFrame a)
    (s : State) : checkOf i s = checkModuleOnly s := by
  rcases h with ⟨k, rfl⟩ | ⟨g, rfl⟩ | ⟨a, rfl⟩
  · cases k <;> rfl
  · cases g <;> rfl
  · rfl

/-- CHECK of TX_FRAME whose module exists: the length, then the asleep flag. -/
theorem checkTxFrame_of_lt {s : State} (h : s.csr.mod.toNat < s.cfg.nModules) :
    checkTxFrame s =
      if s.cfg.maxPayload < lenOperand s then some .badLen
      else if (modRegs s (moduleOf s)).asleep then some .asleep else none := by
  rw [checkTxFrame, moduleCheck_of_lt h]
  rw [firstFailure]
  by_cases hl : s.cfg.maxPayload < lenOperand s
  · rw [if_pos hl, if_pos hl]
    rfl
  · rw [if_neg hl, if_neg hl]
    split_ifs <;> rfl

/-- Settles O23: the module for every row; then nothing more, or TX_FRAME's length and asleep flag. -/
theorem otherCommandCheck : Obligations.OtherCommandCheck := by
  unfold Obligations.OtherCommandCheck
  intro i s hc hp high
  refine ⟨fun hm => completed_of_check hc hp high (checkOf_of_noModule hm), fun hm hrow => ?_, fun a hi hm => ?_⟩
  · refine (exec_check hc hp).2 ?_
    rw [checkOf_moduleOnly hrow, checkModuleOnly_of_lt hm]
  · subst hi
    have hcheck : checkOf (.txFrame a) s = _ := checkTxFrame_of_lt hm
    refine ⟨fun hl => completed_of_check hc hp high ?_, fun hl hs => completed_of_check hc hp high ?_,
      fun hl hs => (exec_check hc hp).2 ?_⟩
    · rw [hcheck, if_pos (by exact hl)]
    · rw [hcheck, if_neg (by exact Nat.not_lt.mpr hl), if_pos hs]
    · rw [hcheck, if_neg (by exact Nat.not_lt.mpr hl), if_neg (by simp [hs])]

end Sys2Proof.Proofs
end

section
/-! SUPPORT. Each command at a place of its pseudocode (R132 to R134, R151, R171 to R173, R196 to R205): the transaction it begins
or the completion it ends with. -/

namespace Sys2Proof.Proofs

open Sys2Proof Sys2Proof.Machine Sys2Proof.Laws

/-! ### Header rows and register commands -/

/-- Settles O25: with no transaction in progress a header row's step is CsAssert of its own. -/
theorem headerRowSelects : Obligations.HeaderRowSelects := by
  unfold Obligations.HeaderRowSelects
  intro i s hw high hn
  have hrow : exec i s = beginTxn i s.seq.cont s := by
    rw [exec_wire hw, runHeader, hn]
    rfl
  rw [hrow]
  exact beginTxn_began high

/-- A command after CHECK runs its body. -/
theorem exec_of_run {i : Instr} (hc : isCommand i = true) {s : State} (hr : s.seq.phase = .run) :
    exec i s = bodyOf i s := by
  rw [exec_command hc, runCommand_run hr]

/-- The transaction of a register command (R70, R71): its header, and LEN zeros or DBUF bytes. -/
theorem began_access {s : State} (high : s.csN = sameForAll true) (h1 : 1 ≤ s.csr.len.toNat) (read : Bool) (c : Cont) :
    ∃ t, beginAccess read c s = .next t
      ∧ Began (headerOfAccess s.cfg read (decide (1 < s.csr.len.toNat)) (s.csr.addrHi ++ s.csr.addrLo))
          (if read then List.replicate s.csr.len.toNat 0 else dbufTake s s.csr.len.toNat) read c s t := by
  obtain ⟨t, ht, hb⟩ := beginTxn_began (i := regHeader s.cfg read (burst (lenOperand s)) (addrOperand s)) (c := c) high
  have hlen : (if burst (lenOperand s) then lenOperand s else 1) = s.csr.len.toNat := by
    unfold burst lenOperand
    by_cases h : 1 < s.csr.len.toNat
    · rw [if_pos (decide_eq_true h)]
    · rw [if_neg (by simpa using h)]; omega
  rw [codeBytes_regHeader, wireData_regHeader, wireKeep_regHeader, hlen] at hb
  exact ⟨t, ht, hb⟩

/-- Settles O29: each command's body at that place begins the access. -/
theorem registerCommandsBegin : Obligations.RegisterCommandsBegin := by
  unfold Obligations.RegisterCommandsBegin
  rintro s arg addr n hp hr high rfl hok rfl h1
  refine ⟨fun hc => ?_, fun hc => ?_, fun hc => ?_, fun hc => ?_⟩
  · rw [exec_of_run (i := .regRead arg) rfl hr, bodyOf, regReadBody, hc]
    exact began_access high h1 true _
  · rw [exec_of_run (i := .regWrite arg) rfl hr, bodyOf, regWriteBody, hc]
    exact began_access high h1 false _
  · rw [exec_of_run (i := .regWriteVerify arg) rfl hr, bodyOf, regWriteVerifyBody, hc]
    exact began_access high h1 false _
  · rw [exec_of_run (i := .regWriteVerify arg) rfl hr, bodyOf, regWriteVerifyBody, hc]
    exact began_access high h1 true _

/-! ### The ends of the register commands -/

theorem exec_regRead_readBack {s : State} (hat : AtPlace .readBack s) (arg : Byte) :
    exec (.regRead arg) s = .next (complete .ok (dbufStore s 0 s.seq.ret)) := by
  rw [exec_of_run (i := .regRead arg) rfl hat.phase, bodyOf, regReadBody, hat.cont]

theorem exec_regWrite_written {s : State} (hat : AtPlace .written s) (arg : Byte) :
    exec (.regWrite arg) s = .next (complete .ok s) := by
  rw [exec_of_run (i := .regWrite arg) rfl hat.phase, bodyOf, regWriteBody, hat.cont]

theorem exec_regWriteVerify_verifyRead {s : State} (hat : AtPlace .verifyRead s) (arg : Byte) :
    exec (.regWriteVerify arg) s = .next (verifyEnd s) := by
  rw [exec_of_run (i := .regWriteVerify arg) rfl hat.phase, bodyOf, regWriteVerifyBody, hat.cont]

theorem sameOutside_dbufStore (s : State) (i : Nat) (bs : List Byte) : SameOutsideCsrDbuf s (dbufStore s i bs) := by
  constructor <;> simp

/-- The bytes stored from index 0 on, when DBUF has room for them. -/
theorem dbufAt_dbufStore_zero {s : State} (hwf : Memory.wf s.dbuf = true) {bs : List Byte}
    (hcap : bs.length ≤ s.cfg.dbufCap) (a : Nat) :
    dbufAt (dbufStore s 0 bs) a = if a < bs.length then bs.getD a 0 else dbufAt s a := by
  have hiff : (0 ≤ a ∧ a < 0 + bs.length ∧ a < s.cfg.dbufCap) ↔ a < bs.length := by omega
  rw [dbufAt_dbufStore hwf]
  simp only [hiff, Nat.sub_zero]

/-- Settles O30: completion after the bytes read were stored. -/
theorem regReadCompletes : Obligations.RegReadCompletes := by
  unfold Obligations.RegReadCompletes
  intro s arg hwf hat hcap
  exact ⟨_, exec_regRead_readBack hat arg, completed_of_sameOutside .ok hat.selects (sameOutside_dbufStore s 0 _)
    (dbufStore_csr s 0 _) (dbufAt_dbufStore_zero hwf hcap)⟩

/-- Settles O31. -/
theorem regWriteCompletes : Obligations.RegWriteCompletes := by
  unfold Obligations.RegWriteCompletes
  intro s arg hat
  exact ⟨_, exec_regWrite_written hat arg, completed_complete hat.selects .ok⟩

/-- The bytes read back equal DBUF's exactly when they do index by index. -/
theorem eq_dbufTake_iff {s : State} {bs : List Byte} {n : Nat} (hlen : bs.length = n) :
    bs = dbufTake s n ↔ ∀ j, j < n → bs.getD j 0 = dbufAt s j := by
  have hget : ∀ j, j < n → (dbufTake s n).getD j 0 = dbufAt s j := fun j hj => by
    rw [dbufTake, getD_dbufFrom, if_pos hj, Nat.zero_add]
  constructor
  · rintro rfl j hj
    exact hget j hj
  · intro h
    apply List.ext_getElem
    · rw [hlen, length_dbufTake]
    · intro j h1 h2
      have hj : j < n := hlen ▸ h1
      have heq := (h j hj).trans (hget j hj).symm
      rwa [List.getD_eq_getElem _ _ h1, List.getD_eq_getElem _ _ h2] at heq

/-- The completion of a command that wrote one module's registers. -/
theorem completed_of_mods {s v : State} (code : Result) (high : s.csN = sameForAll true)
    (hv : v = { s with mods := v.mods }) : Completed code s.csr v.mods (dbufAt s) s (complete code v) := by
  have hsel : v.csN = s.csN := by rw [hv]
  have hdbuf : v.dbuf = s.dbuf := by rw [hv]
  have hc := completed_complete (hsel.trans high) code
  exact {
    csr := by rw [hc.csr, hv]
    mods := hc.mods
    dbuf := fun a => by rw [hc.dbuf a, dbufAt, dbufAt, hdbuf]
    seq := hc.seq
    selects := hc.selects.trans hsel
    hist := by rw [hc.hist, hv]
    chips := by rw [hc.chips, hv]
    cfg := by rw [hc.cfg, hv]
    agenda := by rw [hc.agenda, hv]
    hbRdata := by rw [hc.hbRdata, hv] }

/-- Settles O32: the comparison decides, and a mismatch writes the one error count. -/
theorem regWriteVerifyCompletes : Obligations.RegWriteVerifyCompletes := by
  unfold Obligations.RegWriteVerifyCompletes
  intro s arg hat hlen
  rw [exec_regWriteVerify_verifyRead hat, verifyEnd]
  have hiff : s.seq.ret = dbufTake s (lenOperand s) ↔ _ := eq_dbufTake_iff hlen
  refine ⟨fun heq => ?_, fun ⟨j, hj, hne⟩ => ?_⟩
  · rw [if_pos (hiff.mpr heq)]
    exact ⟨_, rfl, completed_complete hat.selects .ok⟩
  · rw [if_neg (fun h => hne (hiff.mp h j hj))]
    have hregs := modRegs_setErrcnt s (moduleOf s) (c := satInc (modRegs s (moduleOf s)).errcnt)
    refine ⟨_, rfl, ?_, ?_, ?_, ?_, fun m hm => ?_⟩
    · rw [complete_mods]
      exact completed_of_mods _ hat.selects rfl
    all_goals rw [modRegs_congr (complete_mods _ _), hregs]
    · rw [if_pos rfl, toNat_satInc]
    · rw [if_pos rfl]
    · rw [if_pos rfl]
    · rw [if_neg hm]

/-! ### STROBE and SET_STATE -/

theorem bodyOf_strobeInstr (k : Strobe) : bodyOf (strobeInstr k) = strobeBody k := by cases k <;> rfl

theorem isCommand_strobeInstr (k : Strobe) : isCommand (strobeInstr k) = true := by cases k <;> rfl

theorem bodyOf_setStateInstr (g : Target) : bodyOf (setStateInstr g) = setStateBody g := by cases g <;> rfl

theorem isCommand_setStateInstr (g : Target) : isCommand (setStateInstr g) = true := by cases g <;> rfl

/-- The asleep flag of a module set or cleared (R49). -/
theorem modRegs_setAsleep (s : State) (m k : ModIdx) (b : Bool) :
    modRegs (setAsleep s m b) k = if k = m then { modRegs s m with asleep := b } else modRegs s k := by
  rw [modRegs, setAsleep_mods, bankGet_bankSet]
  rfl

/-- The RSC-side effect of a strobe is on module registers only. -/
theorem strobeEffect_frame (k : Strobe) (s : State) : strobeEffect k s = { s with mods := (strobeEffect k s).mods } := by
  cases k <;> rfl

/-- It sets or clears the one asleep flag (R152 to R161). -/
theorem modRegs_strobeEffect (k : Strobe) (s : State) (m : ModIdx) :
    modRegs (strobeEffect k s) m =
      if m = moduleOf s then
        { modRegs s (moduleOf s) with
          asleep := if k = .sres then false else if k = .spwd then true else (modRegs s (moduleOf s)).asleep }
      else modRegs s m := by
  cases k
  case sres => exact modRegs_setAsleep s _ m false
  case spwd => exact modRegs_setAsleep s _ m true
  all_goals
    simp only [strobeEffect, reduceCtorEq, if_false]
    split
    · next h => rw [h]
    · rfl

theorem exec_strobe_start {s : State} (hat : AtPlace .start s) (k : Strobe) :
    exec (strobeInstr k) s = beginTxn (wireStrobe k) .strobed s := by
  rw [exec_of_run (isCommand_strobeInstr k) hat.phase, bodyOf_strobeInstr, strobeBody, hat.cont]

theorem exec_strobe_strobed {s : State} (hat : AtPlace .strobed s) (k : Strobe) :
    exec (strobeInstr k) s = .next (complete .ok (strobeEffect k s)) := by
  rw [exec_of_run (isCommand_strobeInstr k) hat.phase, bodyOf_strobeInstr, strobeBody, hat.cont]

/-- Settles O36. -/
theorem strobeBeginsAndCompletes : Obligations.StrobeBeginsAndCompletes := by
  unfold Obligations.StrobeBeginsAndCompletes
  intro k s
  refine ⟨fun hat => ?_, fun hat => ⟨_, exec_strobe_strobed hat k, ?_, fun m hm => ?_, ?_⟩⟩
  · rw [exec_strobe_start hat]
    exact began_strobe hat.selects
  · rw [complete_mods]
    exact completed_of_mods .ok hat.selects (strobeEffect_frame k s)
  · rw [modRegs_congr (complete_mods _ _), modRegs_strobeEffect, if_neg hm]
  · rw [modRegs_congr (complete_mods _ _), modRegs_strobeEffect, if_pos rfl]

/-- SET_STATE at its first place, after an action, and after a poll that shows the target (R171, R172). -/
theorem exec_setState_start {s : State} (hat : AtPlace .start s) (g : Target) :
    exec (setStateInstr g) s = beginSequence .setState s := by
  rw [exec_of_run (isCommand_setStateInstr g) hat.phase, bodyOf_setStateInstr, setStateBody, hat.cont]

theorem exec_setState_target {g : Target} {s : State} (hat : AtPlace (.polled .setState) s)
    (hp : polledIs s (targetState g) = true) :
    exec (setStateInstr g) s = .next (complete .ok (setAsleep s (moduleOf s) false)) := by
  rw [exec_of_run (isCommand_setStateInstr g) hat.phase, bodyOf_setStateInstr, setStateBody, hat.cont]
  exact afterPoll_of_target hp

/-- Settles O41. -/
theorem setStateCompletes : Obligations.SetStateCompletes := by
  unfold Obligations.SetStateCompletes
  intro g s hat hp
  have hregs := modRegs_setAsleep s (moduleOf s) (b := false)
  refine ⟨_, exec_setState_target hat hp, ?_, fun m hm => ?_, ?_⟩
  · rw [complete_mods]
    exact completed_of_mods .ok hat.selects rfl
  · rw [modRegs_congr (complete_mods _ _), hregs, if_neg hm]
  · rw [modRegs_congr (complete_mods _ _), hregs, if_pos rfl]

/-- After an iteration's action every command with a `Sequence` run polls again (R172). -/
theorem exec_of_acted {i : Instr} {r : SeqRun} {g : Target} {s : State} (hg : seqTarget i r = some g)
    (hat : AtPlace (.acted r) s) : exec i s = afterAction r s := by
  obtain ⟨hrun, hc, -⟩ := hat
  rcases seqTarget_cases hg with ⟨rfl, rfl⟩ | ⟨a, rfl, hr⟩
  · rw [exec_of_run (isCommand_setStateInstr g) hrun, bodyOf_setStateInstr, setStateBody, hc]
  · rw [exec_txFrame_of_run hrun, txFrameBody, hc]
    rcases hr with ⟨rfl, rfl⟩ | ⟨rfl, rfl⟩ | ⟨rfl, rfl⟩ <;> rfl

/-- Below the deadline the iteration count does not wrap (R176). -/
theorem toNat_iter_succ {a b : Byte} (h : a < b) : (a + 1).toNat = a.toNat + 1 := by
  bv_omega

/-- Settles O38: the first poll, the poll after an action, and the action of the row that applies. -/
theorem sequencePolls : Obligations.SequencePolls := by
  unfold Obligations.SequencePolls
  intro i r g s hg
  refine ⟨fun hr hat => ?_, fun hat hlt => ?_, fun hat hp hne => ?_⟩
  · subst hr
    obtain ⟨-, rfl⟩ : SeqRun.setState = .setState ∧ i = setStateInstr g := by
      rcases seqTarget_cases hg with h | ⟨a, -, ⟨h, -⟩ | ⟨h, -⟩ | ⟨h, -⟩⟩
      · exact h
      all_goals cases h
    rw [exec_setState_start hat]
    exact began_sequence hat.selects
  · obtain ⟨t, ht, hb⟩ := began_strobe (k := .snop) (c := .polled r) (s := sequenceAgain s) hat.selects
    exact ⟨t, s.seq.iter + 1, (exec_of_acted hg hat).trans ht, toNat_iter_succ hlt, hb⟩
  · have hrow : polledRow s ∈ polledStates s ∨ polledStates s = [] := by
      by_cases h : polledStates s = []
      · exact .inr h
      · exact .inl (polledRow_mem h)
    cases hact : act (polledRow s) g with
    | strobe k =>
      obtain ⟨t, ht, hb⟩ := exec_began_of_act_strobe hg hat hp hne hact
      exact ⟨t, polledRow s, ht, hrow, .inl ⟨k, hact, hb⟩⟩
    | wait => exact ⟨_, polledRow s, exec_of_act_wait hg hat hp hne hact, hrow, .inr ⟨hact, rfl⟩⟩

/-! ### RX_FRAME after its poll (R199 to R201), and a malformed frame (R205) -/

theorem exec_rxFrame_polled {s : State} (hat : AtPlace .rxPolled s) (arg : Byte) :
    exec (.rxFrame arg) s =
      if polledIs s .rxFifoErr then beginTxn (wireStrobe .sfrx) .rxFlushed s
      else if s.cfg.fifoDepth < s.csr.rxCount.toNat then .next (complete .rxOversize s)
      else beginTxn .wireRxFifoBurstRead .rxDrained s := by
  rw [exec_rxFrame_of_run hat.phase, rxFrameBody, hat.cont]

theorem exec_rxFrame_flushed {s : State} (hat : AtPlace .rxFlushed s) (arg : Byte) :
    exec (.rxFrame arg) s = beginTxn (wireStrobe .srx) .rxRearmed s := by
  rw [exec_rxFrame_of_run hat.phase, rxFrameBody, hat.cont]

theorem exec_rxFrame_rearmed {s : State} (hat : AtPlace .rxRearmed s) (arg : Byte) :
    exec (.rxFrame arg) s = .next (complete .rxFifoErr s) := by
  rw [exec_rxFrame_of_run hat.phase, rxFrameBody, hat.cont]

/-- Settles O45, place by place. -/
theorem rxFrameAfterPoll : Obligations.RxFrameAfterPoll := by
  unfold Obligations.RxFrameAfterPoll
  intro arg s
  refine ⟨fun hat hp => ?_, fun hat => ?_, fun hat => ?_, fun hat hp hd => ?_, fun hat hp hd => ?_⟩
  · rw [exec_rxFrame_polled hat, if_pos hp]
    exact began_strobe hat.selects
  · rw [exec_rxFrame_flushed hat]
    exact began_strobe hat.selects
  · exact ⟨_, exec_rxFrame_rearmed hat arg, completed_complete hat.selects _⟩
  · rw [exec_rxFrame_polled hat, if_neg (by simp [hp]), if_pos hd]
    exact ⟨_, rfl, completed_complete hat.selects _⟩
  · rw [exec_rxFrame_polled hat, if_neg (by simp [hp]), if_neg (Nat.not_lt.mpr hd)]
    exact beginTxn_began hat.selects

/-- Settles O46: completion after the raw bytes were placed. -/
theorem rxFrameMalformed : Obligations.RxFrameMalformed := by
  unfold Obligations.RxFrameMalformed
  intro arg s l rest hp hwf hat hret hcount hdepth hbad
  have hnot : wellFramed l s.csr.rxCount = false := by
    simp only [wellFramed, Bool.and_eq_false_iff, decide_eq_false_iff_not]
    tauto
  have hend : rxEnd (l :: rest) s = complete .rxMalformed (placeFrame (l :: rest) s) :=
    if_neg (by rw [List.headD_cons, hnot]; decide)
  have hcap : rest.tail.length ≤ s.cfg.dbufCap := by
    have := fifoDepth_of_paramsOk hp
    simp only [List.length_cons] at hcount
    rw [List.length_tail]
    omega
  refine ⟨complete .rxMalformed (placeFrame (l :: rest) s), by rw [exec_rxFrame_drained hat, hret, hend], ?_⟩
  have hout : SameOutsideCsrDbuf s (placeFrame (l :: rest) s) := by constructor <;> simp
  refine completed_of_sameOutside .rxMalformed hat.selects hout (by rw [placeFrame_cons, dbufStore_csr]) fun a => ?_
  rw [placeFrame_cons, dbufAt_dbufStore_zero (by exact hwf) (by exact hcap)]
  have hiff : a < rest.tail.length ↔ a + 2 < s.csr.rxCount.toNat := by
    simp only [List.length_cons] at hcount
    rw [List.length_tail]
    omega
  have hget : rest.tail.getD a 0 = rest.getD (a + 1) 0 := by cases rest <;> rfl
  simp only [hiff, hget]
  rfl

end Sys2Proof.Proofs
end

section
/-! SUPPORT. The pseudocode of the commands as a table (R132 to R134, R151, R171, R172, R190, R196): at which place a row begins
which transaction, and with what it completes; and the primitives of a transaction (R61 to R65). Every step of every row is one of
these, so a fact about all steps is a fact about this table. -/

namespace Sys2Proof.Proofs

open Sys2Proof Sys2Proof.Machine Sys2Proof.Laws

/-! ### The transactions the commands begin -/

/-- Row `i`, between two transactions in `s`, begins the transaction of row `j` from the state `v` and stands at `c` after it. -/
inductive Begins (i : Instr) (s : State) : Instr → Cont → State → Prop
  | read (a : Byte) (row : i = .regRead a) (place : s.seq.cont = .start) :
      Begins i s (regHeader s.cfg true (burst (lenOperand s)) (addrOperand s)) .readBack s
  | write (a : Byte) (row : i = .regWrite a) (place : s.seq.cont = .start) :
      Begins i s (regHeader s.cfg false (burst (lenOperand s)) (addrOperand s)) .written s
  | verifyWrite (a : Byte) (row : i = .regWriteVerify a) (place : s.seq.cont = .start) :
      Begins i s (regHeader s.cfg false (burst (lenOperand s)) (addrOperand s)) .verifyWritten s
  | verifyRead (a : Byte) (row : i = .regWriteVerify a) (place : s.seq.cont = .verifyWritten) :
      Begins i s (regHeader s.cfg true (burst (lenOperand s)) (addrOperand s)) .verifyRead s
  | strobe (k : Strobe) (row : i = strobeInstr k) (place : s.seq.cont = .start) : Begins i s (wireStrobe k) .strobed s
  | setState (g : Target) (row : i = setStateInstr g) (place : s.seq.cont = .start) :
      Begins i s (wireStrobe .snop) (.polled .setState) (sequenceStart s)
  | acts (r : SeqRun) (g : Target) (k : Strobe) (run : seqTarget i r = some g) (place : s.seq.cont = .polled r)
      (below : s.seq.iter ≠ s.csr.maxPolls) : Begins i s (wireStrobe k) (.acted r) s
  | pollsAgain (r : SeqRun) (g : Target) (run : seqTarget i r = some g) (place : s.seq.cont = .acted r) :
      Begins i s (wireStrobe .snop) (.polled r) (sequenceAgain s)
  | txCount (a : Byte) (row : i = .txFrame a) (place : s.seq.cont = .start) :
      Begins i s (regHeader s.cfg true false s.cfg.addrNumTxBytes) .txCounted s
  | txIdle (a : Byte) (row : i = .txFrame a) (place : s.seq.cont = .txCounted) :
      Begins i s (wireStrobe .snop) (.polled .txIdle) (sequenceStart s)
  | txFlush (a : Byte) (row : i = .txFrame a) (place : s.seq.cont = .polled .txIdle) :
      Begins i s (wireStrobe .sftx) .txFlushed s
  | txReady (a : Byte) (row : i = .txFrame a) (place : s.seq.cont = .txCounted ∨ s.seq.cont = .txFlushed) :
      Begins i s (wireStrobe .snop) (.polled .txReady) (sequenceStart s)
  | txWrite (a : Byte) (row : i = .txFrame a) (place : s.seq.cont = .polled .txReady) :
      Begins i s .wireTxFifoBurstWrite .txWritten s
  | txSend (a : Byte) (row : i = .txFrame a) (place : s.seq.cont = .txWritten) :
      Begins i s (wireStrobe .snop) (.polled .txSend) (sequenceStart s)
  | rxCount (a : Byte) (row : i = .rxFrame a) (place : s.seq.cont = .start) :
      Begins i s (regHeader s.cfg true false s.cfg.addrNumRxBytes) .rxCounted s
  | rxPoll (a : Byte) (row : i = .rxFrame a) (place : s.seq.cont = .rxCounted) :
      Begins i s (wireStrobe .snop) .rxPolled (storeCount s)
  | rxFlush (a : Byte) (row : i = .rxFrame a) (place : s.seq.cont = .rxPolled) : Begins i s (wireStrobe .sfrx) .rxFlushed s
  | rxRearm (a : Byte) (row : i = .rxFrame a) (place : s.seq.cont = .rxFlushed) : Begins i s (wireStrobe .srx) .rxRearmed s
  | rxRead (a : Byte) (row : i = .rxFrame a) (place : s.seq.cont = .rxPolled)
      (fits : s.csr.rxCount.toNat ≤ s.cfg.fifoDepth) : Begins i s .wireRxFifoBurstRead .rxDrained s

/-- Row `i` completes from `s` with this result, from the state `v` in which it wrote its registers and DBUF bytes. -/
inductive Ends (i : Instr) (s : State) : Result → State → Prop
  | plain (code : Result) (real : code ≠ .pending) : Ends i s code s
  | read (a : Byte) (row : i = .regRead a) : Ends i s .ok (dbufStore s 0 s.seq.ret)
  | mismatch (a : Byte) (row : i = .regWriteVerify a) :
      Ends i s .verifyMismatch (setErrcnt s (moduleOf s) (satInc (modRegs s (moduleOf s)).errcnt))
  | strobe (k : Strobe) (row : i = strobeInstr k) : Ends i s .ok (strobeEffect k s)
  | setState (g : Target) (row : i = setStateInstr g) : Ends i s .ok (setAsleep s (moduleOf s) false)
  | rxEmpty (a : Byte) (row : i = .rxFrame a) : Ends i s .rxEmpty (storeCount s)
  | rxMalformed (a : Byte) (row : i = .rxFrame a) : Ends i s .rxMalformed (placeFrame s.seq.ret s)
  | rxOk (a : Byte) (row : i = .rxFrame a) (l : Byte) : Ends i s .ok (deframe l (placeFrame s.seq.ret s))

/-- A step of a command row after CHECK. -/
inductive BodyStep (i : Instr) (s u : State) : Prop
  | begins (j : Instr) (c : Cont) (v : State) (goes : Begins i s j c v) (high : s.csN = sameForAll true)
      (eq : u = begunState j c v)
  | waits (r : SeqRun) (g : Target) (run : seqTarget i r = some g) (place : s.seq.cont = .polled r)
      (below : s.seq.iter ≠ s.csr.maxPolls) (eq : u = record { s with seq := { s.seq with cont := .acted r } } .wait)
  | ends (code : Result) (v : State) (done : Ends i s code v) (eq : u = complete code v)

/-! ### Every body follows the table -/

theorem bodyStep_of_sequenceStep {i : Instr} {r : SeqRun} {g : Target} (hg : seqTarget i r = some g) {s u : State}
    (h : SequenceStep r g s u) : BodyStep i s u := by
  rcases h with ⟨-, -, -, hu⟩ | ⟨hc, -, hne, ⟨k, -, high, hu⟩ | ⟨-, hu⟩⟩ | ⟨hc, high, hu⟩
  · exact .ends _ _ (.plain .timeout (by decide)) hu
  · exact .begins _ _ _ (.acts r g k hg hc hne) high hu
  · exact .waits r g hg hc hne hu
  · exact .begins _ _ _ (.pollsAgain r g hg hc) high hu

theorem bodyStep_of_regReadBody {a : Byte} {s u : State} (h : regReadBody s = .next u) : BodyStep (.regRead a) s u := by
  rcases regReadBody_next h with ⟨hc, high, hu⟩ | ⟨-, hu⟩
  · exact .begins _ _ _ (.read a rfl hc) high hu
  · exact .ends _ _ (.read a rfl) hu

theorem bodyStep_of_regWriteBody {a : Byte} {s u : State} (h : regWriteBody s = .next u) : BodyStep (.regWrite a) s u := by
  rcases regWriteBody_next h with ⟨hc, high, hu⟩ | ⟨-, hu⟩
  · exact .begins _ _ _ (.write a rfl hc) high hu
  · exact .ends _ _ (.plain .ok (by decide)) hu

theorem bodyStep_of_regWriteVerifyBody {a : Byte} {s u : State} (h : regWriteVerifyBody s = .next u) :
    BodyStep (.regWriteVerify a) s u := by
  rcases regWriteVerifyBody_next h with ⟨hc, high, hu⟩ | ⟨hc, high, hu⟩ | ⟨-, -, hu⟩ | ⟨-, -, hu⟩
  · exact .begins _ _ _ (.verifyWrite a rfl hc) high hu
  · exact .begins _ _ _ (.verifyRead a rfl hc) high hu
  · exact .ends _ _ (.plain .ok (by decide)) hu
  · exact .ends _ _ (.mismatch a rfl) hu

theorem bodyStep_of_strobeBody {k : Strobe} {s u : State} (h : strobeBody k s = .next u) : BodyStep (strobeInstr k) s u := by
  rcases strobeBody_next h with ⟨hc, high, hu⟩ | ⟨-, hu⟩
  · exact .begins _ _ _ (.strobe k rfl hc) high hu
  · exact .ends _ _ (.strobe k rfl) hu

theorem seqTarget_setStateInstr (g : Target) : seqTarget (setStateInstr g) .setState = some g := by cases g <;> rfl

theorem bodyStep_of_setStateBody {g : Target} {s u : State} (h : setStateBody g s = .next u) :
    BodyStep (setStateInstr g) s u := by
  rcases setStateBody_next h with ⟨hc, high, hu⟩ | ⟨-, -, hu⟩ | hseq
  · exact .begins _ _ _ (.setState g rfl hc) high hu
  · exact .ends _ _ (.setState g rfl) hu
  · exact bodyStep_of_sequenceStep (seqTarget_setStateInstr g) hseq

theorem bodyStep_of_txFrameBody {a : Byte} {s u : State} (h : txFrameBody s = .next u) : BodyStep (.txFrame a) s u := by
  rcases txFrameBody_next h with ⟨hc, high, hu⟩ | ⟨hc, -, high, hu⟩ | ⟨hc, -, high, hu⟩ | ⟨hc, -, high, hu⟩ | ⟨hc, high, hu⟩
    | ⟨hc, -, high, hu⟩ | ⟨hc, high, hu⟩ | ⟨-, -, hu⟩ | hseq | hseq | hseq
  · exact .begins _ _ _ (.txCount a rfl hc) high hu
  · exact .begins _ _ _ (.txReady a rfl (.inl hc)) high hu
  · exact .begins _ _ _ (.txIdle a rfl hc) high hu
  · exact .begins _ _ _ (.txFlush a rfl hc) high hu
  · exact .begins _ _ _ (.txReady a rfl (.inr hc)) high hu
  · exact .begins _ _ _ (.txWrite a rfl hc) high hu
  · exact .begins _ _ _ (.txSend a rfl hc) high hu
  · exact .ends _ _ (.plain .ok (by decide)) hu
  · exact bodyStep_of_sequenceStep rfl hseq
  · exact bodyStep_of_sequenceStep rfl hseq
  · exact bodyStep_of_sequenceStep rfl hseq

theorem bodyStep_of_rxFrameBody {a : Byte} {s u : State} (h : rxFrameBody s = .next u) : BodyStep (.rxFrame a) s u := by
  rcases rxFrameBody_next h with ⟨hc, high, hu⟩ | ⟨-, -, hu⟩ | ⟨hc, -, high, hu⟩ | ⟨hc, -, high, hu⟩ | ⟨-, -, -, hu⟩
    | ⟨hc, -, hfits, high, hu⟩ | ⟨hc, high, hu⟩ | ⟨-, hu⟩ | ⟨-, -, hu⟩ | ⟨-, -, hu⟩
  · exact .begins _ _ _ (.rxCount a rfl hc) high hu
  · exact .ends _ _ (.rxEmpty a rfl) hu
  · exact .begins _ _ _ (.rxPoll a rfl hc) high hu
  · exact .begins _ _ _ (.rxFlush a rfl hc) high hu
  · exact .ends _ _ (.plain .rxOversize (by decide)) hu
  · exact .begins _ _ _ (.rxRead a rfl hc hfits) high hu
  · exact .begins _ _ _ (.rxRearm a rfl hc) high hu
  · exact .ends _ _ (.plain .rxFifoErr (by decide)) hu
  · exact .ends _ _ (.rxMalformed a rfl) hu
  · exact .ends _ _ (.rxOk a rfl _) hu

theorem bodyStep_of_bodyOf {i : Instr} (hc : isCommand i = true) {s u : State} (h : bodyOf i s = .next u) :
    BodyStep i s u := by
  rcases instr_cases i with hw | ⟨a, rfl⟩ | ⟨a, rfl⟩ | ⟨a, rfl⟩ | ⟨k, rfl⟩ | ⟨g, rfl⟩ | ⟨a, rfl⟩ | ⟨a, rfl⟩
  · simp [isWire, hc] at hw
  · exact bodyStep_of_regReadBody h
  · exact bodyStep_of_regWriteBody h
  · exact bodyStep_of_regWriteVerifyBody h
  · exact bodyStep_of_strobeBody (bodyOf_strobeInstr k ▸ h)
  · exact bodyStep_of_setStateBody (bodyOf_setStateInstr g ▸ h)
  · exact bodyStep_of_txFrameBody h
  · exact bodyStep_of_rxFrameBody h

/-! ### The primitives of a transaction -/

/-- A step inside the transaction `x` with header bytes `hdr` (R61 to R65). -/
inductive Primitive (hdr : List Byte) (x : Txn) (s u : State) : Prop
  | selects (pos : x.pos = .select) (high : s.csN = sameForAll true)
      (eq : u = csLow { s with seq := { s.seq with txn := some { x with pos := .ready }, samples := 0 } } (moduleOf s))
  | isReady (pos : x.pos = .ready) (below : s.seq.samples < s.cfg.readyMaxSamples)
      (eq : u = setTxn (takeSample s) (some { x with pos := .hdr }))
  | notReady (pos : x.pos = .ready) (below : s.seq.samples < s.cfg.readyMaxSamples) (eq : u = takeSample s)
  | timesOut (pos : x.pos = .ready) (eq : u = complete .timeout s)
  | header (pos : x.pos = .hdr)
      (eq : u = setTxn (setLastStatus (exchange .hdr (hdr.headD 0) s) (moduleOf s) (misoByte s (hdr.headD 0)))
        (some { x with pos := if hdr.length = 2 then .addr2 else .data }))
  | addr2 (pos : x.pos = .addr2) (eq : u = setTxn (exchange .addr2 (hdr.tail.headD 0) s) (some { x with pos := .data }))
  | data (b : Byte) (rest : List Byte) (pos : x.pos = .data) (out : x.out = b :: rest)
      (eq : u = setTxn (exchange .data b s)
        (some { x with out := rest, got := if x.keep then x.got ++ [misoByte s b] else x.got }))
  | deselects (pos : x.pos = .data) (out : x.out = [])
      (eq : u = csHigh { s with seq := { s.seq with txn := none, ret := x.got } } (moduleOf s))

theorem primitive_of_txnStep {hdr : List Byte} {x : Txn} {s u : State} (h : txnStep hdr x s = .next u) :
    Primitive hdr x s u := by
  cases hpos : x.pos with
  | select =>
    rw [txnStep, hpos] at h
    obtain ⟨high, hu⟩ := selectStep_next h
    exact .selects hpos high hu
  | ready =>
    rw [txnStep_ready hpos] at h
    rcases readyStep_next h with ⟨hlt, ⟨-, hu⟩ | ⟨-, hu⟩⟩ | ⟨-, hu⟩
    · exact .isReady hpos hlt hu
    · exact .notReady hpos hlt hu
    · exact .timesOut hpos hu
  | hdr =>
    rw [txnStep_hdr hpos] at h
    exact .header hpos (headerStep_next h).2
  | addr2 =>
    rw [txnStep_addr2 hpos] at h
    exact .addr2 hpos (addr2Step_next h).2
  | data =>
    rw [txnStep_data hpos] at h
    rcases dataStep_next h with ⟨hout, hu⟩ | ⟨b, rest, hout, -, hu⟩
    · exact .deselects hpos hout hu
    · exact .data b rest hpos hout hu

/-! ### Every row, and the RSC -/

/-- A step of row `i` from `s`. -/
inductive ExecStep (i : Instr) (s u : State) : Prop
  | issues (row : isCommand i = true) (phase : s.seq.phase = .idle) (eq : u = issue (codeWord (encode s.cfg i)) s)
  | fails (row : isCommand i = true) (phase : s.seq.phase = .check) (code : Result) (check : checkOf i s = some code)
      (eq : u = complete code s)
  | passes (row : isCommand i = true) (phase : s.seq.phase = .check) (check : checkOf i s = none)
      (eq : u = { s with seq := { s.seq with phase := .run } })
  | runs (row : isCommand i = true) (phase : s.seq.phase = .run) (body : BodyStep i s u)
  | opens (row : isWire i = true) (none : s.seq.txn = none) (high : s.csN = sameForAll true)
      (eq : u = begunState i s.seq.cont s)
  | continues (row : isWire i = true) (x : Txn) (txn : s.seq.txn = some x)
      (prim : Primitive (codeBytes (encode s.cfg i)) x s u)

theorem execStep_of_exec {i : Instr} {s u : State} (h : exec i s = .next u) : ExecStep i s u := by
  rcases isCommand_or_isWire i with hc | hw
  · rw [exec_command hc] at h
    rcases runCommand_next h with ⟨hp, hu⟩ | ⟨hp, r, hr, hu⟩ | ⟨hp, hn, hu⟩ | ⟨hp, hbody⟩
    · exact .issues hc hp hu
    · exact .fails hc hp r hr hu
    · exact .passes hc hp hn hu
    · exact .runs hc hp (bodyStep_of_bodyOf hc hbody)
  · rw [exec_wire hw] at h
    rcases runHeader_next h with ⟨hn, h⟩ | ⟨x, hx, h⟩
    · have hbegin : beginTxn i s.seq.cont s = .next u := h
      obtain ⟨high, hu⟩ := beginTxn_next hbegin
      exact .opens hw hn high hu
    · exact .continues hw x hx (primitive_of_txnStep h)

/-- What a beginning row wrote before: nothing, the counters of a `Sequence` run, or the count of RX_FRAME. -/
theorem Begins.from_cases {i j : Instr} {s v : State} {c : Cont} (h : Begins i s j c v) :
    v = s ∨ ((∃ r g, seqTarget i r = some g) ∧ (v = sequenceStart s ∨ v = sequenceAgain s))
    ∨ (∃ a, i = .rxFrame a) ∧ v = storeCount s := by
  cases h
  case setState g row _ => exact .inr (.inl ⟨⟨_, g, row ▸ seqTarget_setStateInstr g⟩, .inl rfl⟩)
  case pollsAgain r g run _ => exact .inr (.inl ⟨⟨r, g, run⟩, .inr rfl⟩)
  case txIdle a row _ => exact .inr (.inl ⟨⟨.txIdle, .idle, row ▸ rfl⟩, .inl rfl⟩)
  case txReady a row _ => exact .inr (.inl ⟨⟨.txReady, .fstxon, row ▸ rfl⟩, .inl rfl⟩)
  case txSend a row _ => exact .inr (.inl ⟨⟨.txSend, .tx, row ▸ rfl⟩, .inl rfl⟩)
  case rxPoll a row _ => exact .inr (.inr ⟨⟨a, row⟩, rfl⟩)
  all_goals exact .inl rfl

end Sys2Proof.Proofs
end

section
/-! SUPPORT. What a step leaves unchanged (R35, R43, R44, R49, R52, R67, R102, R111): the history is appended to, and by header
bytes of R111's table only; the CSRs, module registers and DBUF bytes each row may write; the canonical form of the storages. -/

namespace Sys2Proof.Proofs

open Sys2Proof Sys2Proof.Machine Sys2Proof.Laws

/-! ### What the table's rows write before they begin or complete -/

/-- `v` differs from `s` in CSRs other than MOD, module registers, DBUF and counters only. -/
structure SameBus (s v : State) : Prop where
  cfg : v.cfg = s.cfg
  mod : v.csr.mod = s.csr.mod
  selects : v.csN = s.csN
  hist : v.hist = s.hist
  chips : v.chips = s.chips
  agenda : v.agenda = s.agenda
  hbRdata : v.hbRdata = s.hbRdata

theorem SameBus.refl (s : State) : SameBus s s := ⟨rfl, rfl, rfl, rfl, rfl, rfl, rfl⟩

theorem SameBus.moduleOf {s v : State} (h : SameBus s v) : moduleOf v = moduleOf s := by
  rw [Machine.moduleOf, Machine.moduleOf, h.mod]

theorem Begins.sameBus {i j : Instr} {s v : State} {c : Cont} (h : Begins i s j c v) : SameBus s v := by
  rcases h.from_cases with rfl | ⟨-, rfl | rfl⟩ | ⟨-, rfl⟩
  all_goals exact ⟨rfl, rfl, rfl, rfl, rfl, rfl, rfl⟩

theorem placeFrame_mod (f : List Byte) (s : State) : (placeFrame f s).csr.mod = s.csr.mod := by
  cases f with
  | nil => rfl
  | cons l rest => rw [placeFrame_cons, dbufStore_csr]

theorem Ends.sameBus {i : Instr} {s v : State} {code : Result} (h : Ends i s code v) : SameBus s v := by
  cases h with
  | plain => exact .refl s
  | read => constructor <;> simp
  | mismatch => exact ⟨rfl, rfl, rfl, rfl, rfl, rfl, rfl⟩
  | strobe k => rw [strobeEffect_frame]; exact ⟨rfl, rfl, rfl, rfl, rfl, rfl, rfl⟩
  | setState => exact ⟨rfl, rfl, rfl, rfl, rfl, rfl, rfl⟩
  | rxEmpty => exact ⟨rfl, rfl, rfl, rfl, rfl, rfl, rfl⟩
  | rxMalformed => exact ⟨by simp, placeFrame_mod _ _, by simp, by simp, by simp, by simp, by simp⟩
  | rxOk _ _ l =>
    exact ⟨by simp, by rw [deframe_csr]; exact placeFrame_mod _ _, by simp, by simp, by simp, by simp, by simp⟩

/-! ### The history (R67) -/

/-- The step only appended events, all of this kind. -/
def Appends (kind : Event → Prop) (s u : State) : Prop := ∃ es, u.hist = s.hist ++ es ∧ ∀ e ∈ es, kind e

theorem Appends.nothing {kind : Event → Prop} {s u : State} (h : u.hist = s.hist) : Appends kind s u :=
  ⟨[], by rw [h, List.append_nil], fun _ he => by cases he⟩

theorem Appends.one {kind : Event → Prop} {s u : State} {e : Event} (h : u.hist = s.hist ++ [e]) (he : kind e) :
    Appends kind s u := ⟨[e], h, fun _ hm => by rw [List.mem_singleton.mp hm]; exact he⟩

theorem Appends.from_same {kind : Event → Prop} {s v u : State} (h : Appends kind v u) (hv : v.hist = s.hist) :
    Appends kind s u := by
  obtain ⟨es, heq, hall⟩ := h
  exact ⟨es, by rw [heq, hv], hall⟩

theorem Appends.mono {k k' : Event → Prop} {s u : State} (h : Appends k s u) (hk : ∀ e, k e → k' e) : Appends k' s u := by
  obtain ⟨es, heq, hall⟩ := h
  exact ⟨es, heq, fun e he => hk e (hall e he)⟩

/-- The event is a header exchange of this row (R65), or no header exchange. -/
def HeaderOf (p : Params) (i : Instr) (e : Event) : Prop :=
  ∀ m h b, e = .xfer m .hdr h b → isWire i = true ∧ h = (codeBytes (encode p i)).headD 0

/-- Completion appends chip-select events and its own (R221). -/
theorem appends_complete (p : Params) (i : Instr) (code : Result) (s : State) :
    Appends (HeaderOf p i) s (complete code s) := by
  obtain ⟨es, heq, hall⟩ := hist_releaseAll s
  refine ⟨es ++ [.done code], by rw [complete_hist, heq, List.append_assoc], fun e he => ?_⟩
  rcases List.mem_append.mp he with he | he
  · obtain ⟨m, rfl⟩ := hall e he
    exact fun _ _ _ h => by cases h
  · rw [List.mem_singleton.mp he]
    exact fun _ _ _ h => by cases h

theorem Primitive.appends {p : Params} {i : Instr} {x : Txn} {s u : State} (hw : isWire i = true)
    (h : Primitive (codeBytes (encode p i)) x s u) : Appends (HeaderOf p i) s u := by
  cases h with
  | timesOut _ hu => rw [hu]; exact appends_complete p i _ s
  | header _ hu => rw [hu]; exact .one rfl fun m h b he => by cases he; exact ⟨hw, rfl⟩
  | selects _ _ hu | isReady _ _ hu | notReady _ _ hu | addr2 _ hu | data _ _ _ _ hu | deselects _ _ hu =>
    rw [hu]; exact .one rfl fun m h b he => by cases he

theorem BodyStep.appends {i : Instr} {s u : State} (p : Params) (h : BodyStep i s u) : Appends (HeaderOf p i) s u := by
  cases h with
  | begins j c v goes _ hu =>
    rw [hu]
    exact (Appends.one rfl fun _ _ _ he => by cases he).from_same goes.sameBus.hist
  | waits _ _ _ _ _ hu => rw [hu]; exact .one rfl fun _ _ _ he => by cases he
  | ends code v done hu => rw [hu]; exact (appends_complete p i code v).from_same done.sameBus.hist

theorem ExecStep.appends {i : Instr} {s u : State} (h : ExecStep i s u) : Appends (HeaderOf s.cfg i) s u := by
  cases h with
  | issues _ _ hu => rw [hu]; exact .one rfl fun _ _ _ he => by cases he
  | fails _ _ code _ hu => rw [hu]; exact appends_complete _ i code s
  | passes _ _ _ hu => exact .nothing (by rw [hu])
  | runs _ _ body => exact body.appends _
  | opens _ _ _ hu => rw [hu]; exact .one rfl fun _ _ _ he => by cases he
  | continues hw x _ prim => exact prim.appends hw

/-- A host write records the start of a command or nothing (R29, R67). -/
theorem csrWriteIdle_hist (s : State) (v : Byte) (r : Csr) :
    (csrWriteIdle s v r).hist = s.hist ∨ (csrWriteIdle s v r).hist = s.hist ++ [.cmd (s.csr.arg ++ v)] := by
  cases r
  case cmd => exact .inr rfl
  case status => rw [csrWriteIdle]; split <;> exact .inl rfl
  case errcnt => rw [csrWriteIdle, clearErrcnt]; split <;> exact .inl rfl
  case dbuf i => exact .inl (dbufPut_hist s i v)
  all_goals exact .inl rfl

theorem hostAccess_hist (op : HostOp) (s : State) :
    (hostAccess op s).hist = s.hist ∨ ∃ w, (hostAccess op s).hist = s.hist ++ [.cmd w] := by
  cases op with
  | read a => exact .inl rfl
  | write a v =>
    rw [hostAccess]
    rcases hostWrite_cases a v s with ⟨-, h⟩ | ⟨-, h⟩
    · exact .inl (by rw [h])
    · rw [h]
      exact (csrWriteIdle_hist s v _).imp_right fun h => ⟨_, h⟩

/-- The row that a step of the RSC runs, if it runs one. -/
def RowRun (s : State) (i : Instr) : Prop :=
  ((s.seq.phase = .check ∨ (s.seq.phase = .run ∧ s.seq.txn = none)) ∧ decode s.cfg (.cmd (commandWord s)) = .ok i)
  ∨ (s.seq.phase = .run ∧ ∃ x, s.seq.txn = some x ∧ decode s.cfg (.wire x.hdr) = .ok i)

/-- A step of the RSC: nothing, the completion of a word that is no row, or a step of the row it runs. -/
theorem rscStep_cases {s u : State} (h : rscStep s = .next u) :
    (s.seq.phase = .idle ∧ u = s)
    ∨ ((s.seq.phase = .check ∨ (s.seq.phase = .run ∧ s.seq.txn = none)) ∧
        ∃ why, decode s.cfg (.cmd (commandWord s)) = .error why ∧ u = complete (illegalResult why) s)
    ∨ (s.seq.phase ≠ .idle ∧ ∃ i, RowRun s i ∧ ExecStep i s u) := by
  rcases rscStep_next h with hidle | ⟨hphase, ⟨i, hd, hexec⟩ | hbad⟩ | ⟨hphase, x, i, hx, hd, hexec⟩
  · exact .inl hidle
  · refine .inr (.inr ⟨?_, i, .inl ⟨hphase, hd⟩, execStep_of_exec hexec⟩)
    rcases hphase with h | ⟨h, -⟩ <;> simp [h]
  · exact .inr (.inl ⟨hphase, hbad⟩)
  · exact .inr (.inr ⟨by simp [hphase], i, .inr ⟨hphase, x, hx, hd⟩, execStep_of_exec hexec⟩)

/-- Every step appends; the header bytes it records are those of the row the RSC runs. -/
theorem appends_step {s u : State} (h : step s = .next u) :
    Appends (fun e => ∀ m h b, e = .xfer m .hdr h b →
      ∃ i, RowRun s i ∧ isWire i = true ∧ h = (codeBytes (encode s.cfg i)).headD 0) s u := by
  obtain ⟨-, ⟨-, hrsc⟩ | ⟨op, rest, -, rfl⟩ | ⟨rest, -, rfl⟩ | ⟨lost, rest, -, rfl⟩⟩ := step_next h
  · rcases rscStep_cases hrsc with ⟨-, rfl⟩ | ⟨-, why, -, rfl⟩ | ⟨-, i, hrow, hexec⟩
    · exact .nothing rfl
    · refine ((appends_complete s.cfg .strobeSnop _ _).from_same rfl).mono fun e he m h b heq => ?_
      cases (he m h b heq).1
    · exact (hexec.appends.from_same rfl).mono fun e he m h b heq => ⟨i, hrow, he m h b heq⟩
  · rcases hostAccess_hist op (popTurn rest s) with hsame | ⟨w, hcmd⟩
    · exact .nothing hsame
    · exact .one hcmd fun _ _ _ he => by cases he
  · exact .nothing rfl
  · obtain ⟨es, heq, hall⟩ := hist_releaseAll (popTurn rest s)
    refine ⟨es ++ [.reset], by rw [blockReset_hist, heq, List.append_assoc]; rfl, fun e he => ?_⟩
    rcases List.mem_append.mp he with he | he
    · obtain ⟨m, rfl⟩ := hall e he
      exact fun _ _ _ h => by cases h
    · rw [List.mem_singleton.mp he]
      exact fun _ _ _ h => by cases h

/-- Settles O53. -/
theorem historyOnlyGrows : Obligations.HistoryOnlyGrows := by
  unfold Obligations.HistoryOnlyGrows
  intro s t h
  obtain ⟨es, heq, -⟩ := appends_step h
  exact ⟨es, heq⟩

/-! ### The header bytes sent (R111) -/

/-- By default, the first header byte of a well-formed header row is in R111's table. -/
theorem headerOfR111_of_wellFormed {i : Instr} (hw : isWire i = true) (hwf : wellFormed {} i = true) :
    headerOfR111 ((codeBytes (encode {} i)).headD 0) = true := by
  have hoff : ∀ a : BitVec 6, shortOffsetOk {} a = true → a.toNat ≤ 0x2F := by decide
  have hcount : ∀ a, isCountOffset {} a = false := fun a => rfl
  rcases wire_cases hw with ⟨r, b, a, rfl⟩ | ⟨r, b, off, rfl⟩ | rfl | rfl | ⟨k, rfl⟩
  · rw [wellFormed_wireShort, hcount] at hwf
    simp only [Bool.and_false, Bool.or_false, Bool.and_eq_true] at hwf
    obtain ⟨⟨hok, -⟩, -⟩ := hwf
    have ha := hoff a hok
    rw [encode_wireShort]
    simp [codeBytes, headerOfR111, ha]
  · rw [encode_wireExt]
    simp [codeBytes, extHeader, headerOfR111]
  · rfl
  · rfl
  · rw [codeBytes_wireStrobe]
    cases k <;> decide

/-- Settles O57: a header exchange is of the row whose header bytes are in progress, and what decodes is well-formed. -/
theorem sentHeadersAreInTheTable : Obligations.SentHeadersAreInTheTable := by
  unfold Obligations.SentHeadersAreInTheTable
  intro s t m h b hi hcfg hstep hmem
  obtain ⟨es, heq, hall⟩ := appends_step hstep
  rw [heq, List.drop_left] at hmem
  obtain ⟨i, hrow, hw, rfl⟩ := hall _ hmem m h b rfl
  have hd : ∃ c, decode s.cfg c = .ok i := by
    rcases hrow with ⟨-, hd⟩ | ⟨-, x, -, hd⟩ <;> exact ⟨_, hd⟩
  obtain ⟨c, hd⟩ := hd
  have hwf := (encodeInvertsDecode s.cfg c i hi.params hd).2
  rw [hcfg] at hwf ⊢
  exact headerOfR111_of_wellFormed hw hwf

/-! ### The CSRs (R35, R43, R44) -/

/-- What a step of row `i` may write of the CSRs. -/
structure CsrsKept (i : Instr) (c d : Csrs) : Prop where
  operands : d = { c with
    busy := d.busy, done := d.done, result := d.result, lastPolls := d.lastPolls
    rxCount := d.rxCount, rxLen := d.rxLen, rxAddr := d.rxAddr, rxRssi := d.rxRssi
    rxStatus2 := d.rxStatus2, pktValid := d.pktValid, trailing := d.trailing }
  rx : (∀ a, i ≠ .rxFrame a) →
    d.rxCount = c.rxCount ∧ d.rxLen = c.rxLen ∧ d.rxAddr = c.rxAddr ∧ d.rxRssi = c.rxRssi ∧ d.rxStatus2 = c.rxStatus2
      ∧ d.pktValid = c.pktValid ∧ d.trailing = c.trailing
  polls : (∀ g, i ≠ setStateInstr g) → (∀ a, i ≠ .txFrame a) → d.lastPolls = c.lastPolls

theorem CsrsKept.refl (i : Instr) (c : Csrs) : CsrsKept i c c :=
  ⟨rfl, fun _ => ⟨rfl, rfl, rfl, rfl, rfl, rfl, rfl⟩, fun _ _ => rfl⟩

/-- Completion writes RESULT and STATUS only. -/
theorem CsrsKept.completed {i : Instr} {c d : Csrs} (h : CsrsKept i c d) (r : Result) :
    CsrsKept i c { d with result := r, busy := false, done := true } := by
  obtain ⟨hop, hrx, hpolls⟩ := h
  exact ⟨by rw [hop], hrx, hpolls⟩

/-- The RX CSRs are RX_FRAME's (R44). -/
theorem CsrsKept.of_rxFrame {c d : Csrs} (a : Byte)
    (h : d = { c with
      rxCount := d.rxCount, rxLen := d.rxLen, rxAddr := d.rxAddr, rxRssi := d.rxRssi
      rxStatus2 := d.rxStatus2, pktValid := d.pktValid, trailing := d.trailing }) : CsrsKept (.rxFrame a) c d :=
  ⟨by rw [h], fun hne => absurd rfl (hne a), fun _ _ => by rw [h]⟩

/-- LAST_POLLS is that of the commands with a `Sequence` run (R43). -/
theorem CsrsKept.of_sequence {i : Instr} {r : SeqRun} {g : Target} (hg : seqTarget i r = some g) (c : Csrs) (n : Byte) :
    CsrsKept i c { c with lastPolls := n } := by
  refine ⟨rfl, fun _ => ⟨rfl, rfl, rfl, rfl, rfl, rfl, rfl⟩, fun hset htx => ?_⟩
  rcases seqTarget_cases hg with ⟨-, rfl⟩ | ⟨a, rfl, -⟩
  · exact absurd rfl (hset g)
  · exact absurd rfl (htx a)

theorem Begins.csrsKept {i j : Instr} {s v : State} {c : Cont} (h : Begins i s j c v) : CsrsKept i s.csr v.csr := by
  rcases h.from_cases with rfl | ⟨⟨r, g, hg⟩, rfl | rfl⟩ | ⟨⟨a, rfl⟩, rfl⟩
  · exact .refl _ _
  · exact .of_sequence hg _ _
  · exact .of_sequence hg _ _
  · exact .of_rxFrame a rfl

theorem placeFrame_csr_frame (f : List Byte) (s : State) :
    (placeFrame f s).csr = { s.csr with rxLen := (placeFrame f s).csr.rxLen, rxAddr := (placeFrame f s).csr.rxAddr } := by
  cases f with
  | nil => rfl
  | cons l rest => rw [placeFrame_cons, dbufStore_csr]

theorem Ends.csrsKept {i : Instr} {s v : State} {code : Result} (h : Ends i s code v) : CsrsKept i s.csr v.csr := by
  cases h with
  | plain => exact .refl _ _
  | read => rw [dbufStore_csr]; exact .refl _ _
  | mismatch => exact .refl _ _
  | strobe k => rw [strobeEffect_frame]; exact .refl _ _
  | setState => exact .refl _ _
  | rxEmpty a hrow => rw [hrow]; exact .of_rxFrame a rfl
  | rxMalformed a hrow => rw [hrow]; exact .of_rxFrame a (by rw [placeFrame_csr_frame])
  | rxOk a hrow l => rw [hrow]; exact .of_rxFrame a (by rw [deframe_csr, placeFrame_csr_frame])

theorem ExecStep.csrsKept {i : Instr} {s u : State} (hrun : s.seq.phase ≠ .idle) (h : ExecStep i s u) :
    CsrsKept i s.csr u.csr := by
  cases h with
  | issues _ hidle _ => exact absurd hidle hrun
  | fails _ _ code _ hu => rw [hu, complete_csr]; exact (CsrsKept.refl i _).completed code
  | passes _ _ _ hu => rw [hu]; exact .refl _ _
  | runs _ _ body =>
    cases body with
    | begins j c v goes _ hu => rw [hu]; exact goes.csrsKept
    | waits _ _ _ _ _ hu => rw [hu]; exact .refl _ _
    | ends code v done hu => rw [hu, complete_csr]; exact done.csrsKept.completed code
  | opens _ _ _ hu => rw [hu]; exact .refl _ _
  | continues _ x _ prim =>
    cases prim with
    | timesOut _ hu => rw [hu, complete_csr]; exact (CsrsKept.refl i _).completed _
    | selects _ _ hu | isReady _ _ hu | notReady _ _ hu | header _ hu | addr2 _ hu | data _ _ _ _ hu | deselects _ _ hu =>
      rw [hu]; exact .refl _ _

/-- The fields that are no RSC state (log entries 2, 6, 10) in a step of a row. -/
theorem ExecStep.outside {i : Instr} {s u : State} (h : ExecStep i s u) :
    u.cfg = s.cfg ∧ u.agenda = s.agenda ∧ u.hbRdata = s.hbRdata := by
  have hcomplete : ∀ (code : Result) (v : State), SameBus s v →
      (complete code v).cfg = s.cfg ∧ (complete code v).agenda = s.agenda ∧ (complete code v).hbRdata = s.hbRdata :=
    fun code v hv => ⟨(complete_cfg code v).trans hv.cfg, (complete_agenda code v).trans hv.agenda,
      (complete_hbRdata code v).trans hv.hbRdata⟩
  cases h with
  | issues _ _ hu => rw [hu]; exact ⟨rfl, rfl, rfl⟩
  | fails _ _ code _ hu => rw [hu]; exact hcomplete code s (.refl s)
  | passes _ _ _ hu => rw [hu]; exact ⟨rfl, rfl, rfl⟩
  | runs _ _ body =>
    cases body with
    | begins j c v goes _ hu =>
      have hv := goes.sameBus
      rw [hu]
      exact ⟨hv.cfg, hv.agenda, hv.hbRdata⟩
    | waits _ _ _ _ _ hu => rw [hu]; exact ⟨rfl, rfl, rfl⟩
    | ends code v done hu => rw [hu]; exact hcomplete code v done.sameBus
  | opens _ _ _ hu => rw [hu]; exact ⟨rfl, rfl, rfl⟩
  | continues _ x _ prim =>
    cases prim with
    | timesOut _ hu => rw [hu]; exact hcomplete _ s (.refl s)
    | selects _ _ hu | isReady _ _ hu | notReady _ _ hu | header _ hu | addr2 _ hu | data _ _ _ _ hu | deselects _ _ hu =>
      rw [hu]; exact ⟨rfl, rfl, rfl⟩

/-- Settles O55. -/
theorem execFrameCsrs : Obligations.ExecFrameCsrs := by
  unfold Obligations.ExecFrameCsrs
  intro i s t hrun hexec
  have hstep := execStep_of_exec hexec
  obtain ⟨hop, hrx, hpolls⟩ := hstep.csrsKept hrun
  exact ⟨hop, hrx, hpolls, hstep.outside⟩

/-- The operands of the running command (R35). -/
structure OperandsKept (c d : Csrs) : Prop where
  mod : d.mod = c.mod
  addrHi : d.addrHi = c.addrHi
  addrLo : d.addrLo = c.addrLo
  len : d.len = c.len
  arg : d.arg = c.arg
  maxPolls : d.maxPolls = c.maxPolls
  cmd : d.cmd = c.cmd

theorem CsrsKept.operandsKept {i : Instr} {c d : Csrs} (h : CsrsKept i c d) : OperandsKept c d := by
  rw [h.operands]
  exact ⟨rfl, rfl, rfl, rfl, rfl, rfl, rfl⟩

theorem operandsKept_rscStep {s u : State} (h : rscStep s = .next u) : OperandsKept s.csr u.csr := by
  rcases rscStep_cases h with ⟨-, rfl⟩ | ⟨-, why, -, rfl⟩ | ⟨hrun, i, -, hexec⟩
  · exact ⟨rfl, rfl, rfl, rfl, rfl, rfl, rfl⟩
  · rw [complete_csr]
    exact ⟨rfl, rfl, rfl, rfl, rfl, rfl, rfl⟩
  · exact (hexec.csrsKept hrun).operandsKept

/-- A host access to a busy machine sets at most OVR. -/
theorem hostAccess_of_busy {s : State} (hb : s.csr.busy = true) (op : HostOp) :
    OperandsKept s.csr (hostAccess op s).csr ∧ (hostAccess op s).dbuf = s.dbuf := by
  cases op with
  | read a => exact ⟨⟨rfl, rfl, rfl, rfl, rfl, rfl, rfl⟩, rfl⟩
  | write a v =>
    rw [hostAccess, hostWrite_of_busy hb]
    exact ⟨⟨rfl, rfl, rfl, rfl, rfl, rfl, rfl⟩, rfl⟩

/-- Settles O54, by whose turn the step is. -/
theorem operandsHeldWhileBusy : Obligations.OperandsHeldWhileBusy := by
  unfold Obligations.OperandsHeldWhileBusy
  intro s t hi hb hreset hstep
  have hkept : OperandsKept s.csr t.csr ∧ (rscTurn s = false → ∀ a, dbufAt t a = dbufAt s a) := by
    obtain ⟨-, ⟨hturn, hrsc⟩ | ⟨op, rest, -, rfl⟩ | ⟨rest, -, rfl⟩ | ⟨lost, rest, ha, rfl⟩⟩ := step_next hstep
    · have hop := operandsKept_rscStep hrsc
      exact ⟨hop, fun hf => by rw [hturn] at hf; cases hf⟩
    · obtain ⟨hop, hdbuf⟩ := hostAccess_of_busy (s := popTurn rest s) hb op
      exact ⟨hop, fun _ a => by rw [dbufAt, hdbuf]; rfl⟩
    · exact ⟨⟨rfl, rfl, rfl, rfl, rfl, rfl, rfl⟩, fun _ _ => rfl⟩
    · simp [resetTurn, ha] at hreset
  obtain ⟨⟨hmod, hhi, hlo, hlen, harg, hmax, hcmd⟩, hdbuf⟩ := hkept
  exact ⟨⟨hmod, hhi, hlo, hlen, harg, hmax, hcmd⟩, hdbuf⟩

/-! ### The module registers and DBUF (R49, R52, R65, R102) -/

/-- What a step of row `i` may write of the module registers and of DBUF. -/
structure RegsKept (i : Instr) (s u : State) : Prop where
  others : ∀ m, m ≠ moduleOf s → modRegs u m = modRegs s m
  errcnt : (∀ a, i ≠ .regWriteVerify a) → (modRegs u (moduleOf s)).errcnt = (modRegs s (moduleOf s)).errcnt
  asleep : i ≠ .strobeSres → i ≠ .strobeSpwd → (∀ g, i ≠ setStateInstr g) →
    (modRegs u (moduleOf s)).asleep = (modRegs s (moduleOf s)).asleep
  dbuf : (∀ a, i ≠ .regRead a) → (∀ a, i ≠ .rxFrame a) → u.dbuf = s.dbuf
  status : (modRegs u (moduleOf s)).lastStatus ≠ (modRegs s (moduleOf s)).lastStatus →
    ∃ h, u.hist = s.hist ++ [.xfer (moduleOf s) .hdr h (modRegs u (moduleOf s)).lastStatus]

/-- A step that writes no module register. -/
theorem RegsKept.of_mods {i : Instr} {s u : State} (hm : u.mods = s.mods)
    (hd : (∀ a, i ≠ .regRead a) → (∀ a, i ≠ .rxFrame a) → u.dbuf = s.dbuf) : RegsKept i s u where
  others m _ := modRegs_congr hm m
  errcnt _ := by rw [modRegs_congr hm]
  asleep _ _ _ := by rw [modRegs_congr hm]
  dbuf := hd
  status hne := absurd (by rw [modRegs_congr hm]) hne

/-- A mismatch in REG_WRITE_VERIFY writes the one error count (R135). -/
theorem RegsKept.of_setErrcnt {i : Instr} {a : Byte} (hrow : i = .regWriteVerify a) {s u : State} {c : Byte}
    (hm : u.mods = (setErrcnt s (moduleOf s) c).mods) (hd : u.dbuf = s.dbuf) : RegsKept i s u := by
  have hregs : ∀ m, modRegs u m = _ := fun m => (modRegs_congr hm m).trans (modRegs_setErrcnt s (moduleOf s) m c)
  exact {
    others := fun m hne => by rw [hregs, if_neg hne]
    errcnt := fun hne => absurd hrow (hne a)
    asleep := fun _ _ _ => by rw [hregs, if_pos rfl]
    dbuf := fun _ _ => hd
    status := fun hne => absurd (by rw [hregs, if_pos rfl]) hne }

/-- SRES, SPWD and SET_STATE write the one asleep flag (R152, R160, R178). -/
theorem RegsKept.of_setAsleep {i : Instr} (hrow : i = .strobeSres ∨ i = .strobeSpwd ∨ ∃ g, i = setStateInstr g)
    {s u : State} {b : Bool} (hm : u.mods = (setAsleep s (moduleOf s) b).mods) (hd : u.dbuf = s.dbuf) : RegsKept i s u := by
  have hregs : ∀ m, modRegs u m = _ := fun m => (modRegs_congr hm m).trans (modRegs_setAsleep s (moduleOf s) m b)
  refine {
    others := fun m hne => by rw [hregs, if_neg hne]
    errcnt := fun _ => by rw [hregs, if_pos rfl]
    asleep := fun h1 h2 h3 => ?_
    dbuf := fun _ _ => hd
    status := fun hne => absurd (by rw [hregs, if_pos rfl]) hne }
  rcases hrow with h | h | ⟨g, h⟩
  · exact absurd h h1
  · exact absurd h h2
  · exact absurd h (h3 g)

/-- The status byte of the one module (R49). -/
theorem modRegs_setLastStatus (s : State) (m k : ModIdx) (b : Byte) :
    modRegs (setLastStatus s m b) k = if k = m then { modRegs s m with lastStatus := b } else modRegs s k := by
  rw [modRegs, setLastStatus_mods, bankGet_bankSet]
  rfl

/-- A header exchange writes the one status byte, to the byte it records (R65). -/
theorem RegsKept.of_header {i : Instr} {s u : State} {h b : Byte} (hm : u.mods = (setLastStatus s (moduleOf s) b).mods)
    (hd : u.dbuf = s.dbuf) (hh : u.hist = s.hist ++ [.xfer (moduleOf s) .hdr h b]) : RegsKept i s u := by
  have hregs : ∀ m, modRegs u m = _ := fun m => (modRegs_congr hm m).trans (modRegs_setLastStatus s (moduleOf s) m b)
  exact {
    others := fun m hne => by rw [hregs, if_neg hne]
    errcnt := fun _ => by rw [hregs, if_pos rfl]
    asleep := fun _ _ _ => by rw [hregs, if_pos rfl]
    dbuf := fun _ _ => hd
    status := fun _ => ⟨h, by rw [hregs, if_pos rfl, hh]⟩ }

theorem RegsKept.complete {i : Instr} {s : State} (code : Result) : RegsKept i s (complete code s) :=
  .of_mods (complete_mods code s) fun _ _ => complete_dbuf code s

theorem Begins.regsKept {i j : Instr} {s v : State} {c : Cont} (h : Begins i s j c v) : RegsKept i s (begunState j c v) := by
  rcases h.from_cases with rfl | ⟨-, rfl | rfl⟩ | ⟨-, rfl⟩
  all_goals exact .of_mods rfl fun _ _ => rfl

/-- The strobes other than SRES and SPWD have no effect in the RSC (R153 to R159, R161). -/
theorem strobeEffect_cases (k : Strobe) (s : State) :
    ((k = .sres ∨ k = .spwd) ∧ ∃ b, strobeEffect k s = setAsleep s (moduleOf s) b) ∨ strobeEffect k s = s := by
  cases k
  case sres => exact .inl ⟨.inl rfl, false, rfl⟩
  case spwd => exact .inl ⟨.inr rfl, true, rfl⟩
  all_goals exact .inr rfl

theorem Ends.regsKept {i : Instr} {s v : State} {code : Result} (h : Ends i s code v) :
    RegsKept i s (Machine.complete code v) := by
  cases h with
  | plain => exact .complete code
  | read a hrow => exact .of_mods (by simp) fun hne _ => absurd hrow (hne a)
  | mismatch a hrow => exact .of_setErrcnt hrow (complete_mods _ _) (complete_dbuf _ _)
  | strobe k hrow =>
    rcases strobeEffect_cases k s with ⟨hk, b, heq⟩ | heq
    · rw [heq]
      refine .of_setAsleep ?_ (complete_mods _ _) (complete_dbuf _ _)
      rcases hk with rfl | rfl
      · exact .inl hrow
      · exact .inr (.inl hrow)
    · rw [heq]
      exact .complete _
  | setState g hrow => exact .of_setAsleep (.inr (.inr ⟨g, hrow⟩)) (complete_mods _ _) (complete_dbuf _ _)
  | rxEmpty a hrow => exact .of_mods (by simp) fun _ hne => absurd hrow (hne a)
  | rxMalformed a hrow => exact .of_mods (by simp) fun _ hne => absurd hrow (hne a)
  | rxOk a hrow l => exact .of_mods (by simp) fun _ hne => absurd hrow (hne a)

theorem ExecStep.regsKept {i : Instr} {s u : State} (h : ExecStep i s u) : RegsKept i s u := by
  cases h with
  | issues _ _ hu => rw [hu]; exact .of_mods rfl fun _ _ => rfl
  | fails _ _ code _ hu => rw [hu]; exact .complete code
  | passes _ _ _ hu => rw [hu]; exact .of_mods rfl fun _ _ => rfl
  | runs _ _ body =>
    cases body with
    | begins j c v goes _ hu => rw [hu]; exact goes.regsKept
    | waits _ _ _ _ _ hu => rw [hu]; exact .of_mods rfl fun _ _ => rfl
    | ends code v done hu => rw [hu]; exact done.regsKept
  | opens _ _ _ hu => rw [hu]; exact .of_mods rfl fun _ _ => rfl
  | continues _ x _ prim =>
    cases prim with
    | timesOut _ hu => rw [hu]; exact .complete _
    | header _ hu => rw [hu]; exact .of_header rfl rfl rfl
    | selects _ _ hu | isReady _ _ hu | notReady _ _ hu | addr2 _ hu | data _ _ _ _ hu | deselects _ _ hu =>
      rw [hu]; exact .of_mods rfl fun _ _ => rfl

/-- Settles O56. -/
theorem execFrameModulesAndDbuf : Obligations.ExecFrameModulesAndDbuf := by
  unfold Obligations.ExecFrameModulesAndDbuf
  intro i s t hexec
  obtain ⟨hothers, herr, hasleep, hdbuf, hstatus⟩ := (execStep_of_exec hexec).regsKept
  exact ⟨hothers, herr, hasleep, fun h1 h2 a => by rw [dbufAt, hdbuf h1 h2, dbufAt], hstatus⟩

/-! ### The canonical form of the storages (log entry 11) -/

/-- `memoriesWf`, chip by chip. -/
structure Canonical (s : State) : Prop where
  dbuf : Memory.wf s.dbuf = true
  chips : ∀ m, chipWf (bankGet s.chips m) = true

theorem canonical_iff (s : State) : memoriesWf s = true ↔ Canonical s := by
  simp only [memoriesWf, Bool.and_eq_true]
  constructor
  · rintro ⟨⟨⟨⟨hd, h0⟩, h1⟩, h2⟩, h3⟩
    exact ⟨hd, fun m => by fin_cases m <;> assumption⟩
  · rintro ⟨hd, hc⟩
    exact ⟨⟨⟨⟨hd, hc 0⟩, hc 1⟩, hc 2⟩, hc 3⟩

theorem chipWf_bankSet {chips : Bank Chip} {m : ModIdx} {c : Chip} (h : ∀ k, chipWf (bankGet chips k) = true)
    (hc : chipWf c = true) (k : ModIdx) : chipWf (bankGet (bankSet chips m c) k) = true := by
  rw [bankGet_bankSet]
  split
  · exact hc
  · exact h k

theorem chipWf_sample {c : Chip} (h : chipWf c = true) (hist : List Event) (m : ModIdx) :
    chipWf (chipSample hist m c).2 = true := by
  match c with
  | .oracle => rfl
  | .refDev d => exact h
  | .script [] _ => rfl
  | .script (_ :: _) _ => rfl

/-- An exchange writes at most one register of a RefDev (R89). -/
theorem wf_refWriteReg (p : Params) {d : RefDev} (h : Memory.wf d.regs = true) (addr : Word16) (v : Byte) :
    Memory.wf (refWriteReg p d addr v).regs = true := by
  unfold refWriteReg
  split
  · exact h
  · exact wf_memWrite h _ _

theorem wf_refRegData (p : Params) {d : RefDev} (h : Memory.wf d.regs = true) (read : Bool) (addr : Word16) (out : Byte) :
    Memory.wf (refRegData p d read addr out).2.regs = true := by
  unfold refRegData
  split
  · exact h
  · exact wf_refWriteReg p h addr out

theorem wf_refFifoData (p : Params) {d : RefDev} (h : Memory.wf d.regs = true) (read : Bool) (out : Byte) :
    Memory.wf (refFifoData p d read out).2.regs = true := by
  unfold refFifoData refFifoPop refFifoPush
  repeat' split
  all_goals exact h

theorem wf_refAfterHeader (p : Params) {d : RefDev} (h : Memory.wf d.regs = true) (hd : Byte) (rest : List Byte)
    (out : Byte) : Memory.wf (refAfterHeader p d hd rest out).2.regs = true := by
  unfold refAfterHeader refShortData
  split
  · split
    · exact h
    · exact wf_refRegData p h _ _ _
  · split
    · exact wf_refFifoData p h _ _
    · split
      · exact h
      · exact wf_refRegData p h _ _ _

theorem chipWf_exchange {c : Chip} (h : chipWf c = true) (p : Params) (hist : List Event) (m : ModIdx) (out : Byte) :
    chipWf (chipExchange p hist m out c).2 = true := by
  match c with
  | .oracle => rfl
  | .refDev d =>
    rw [chipExchange_refDev]
    change Memory.wf (refExchange p d out).2.regs = true
    unfold refExchange
    split
    · exact h
    · exact wf_refAfterHeader p h _ _ _
  | .script _ [] => rfl
  | .script _ (_ :: _) => rfl

theorem regs_refTick (d : RefDev) : (refTick d).regs = d.regs := by
  unfold refTick
  repeat' split
  all_goals rfl

/-- A strobe clears the registers or leaves them (R91). -/
theorem regs_refStrobe (d : RefDev) (k : Strobe) : (refStrobe d k).regs = [] ∨ (refStrobe d k).regs = d.regs := by
  unfold refStrobe
  split
  case h_1 => exact .inl rfl
  all_goals
    right
    repeat' split
    all_goals rfl

theorem chipWf_deselect {c : Chip} (h : chipWf c = true) (p : Params) : chipWf (chipDeselect p c) = true := by
  match c with
  | .oracle => rfl
  | .script _ _ => rfl
  | .refDev d =>
    change Memory.wf (refDeselect p d).regs = true
    have hd : Memory.wf d.regs = true := h
    unfold refDeselect
    split
    · next k _ =>
      rcases regs_refStrobe (refTick d) k with hk | hk
      · simp only [hk]; rfl
      · simp only [hk, regs_refTick, hd]
    · simp only [regs_refTick, hd]

theorem Canonical.of_chips {s u : State} (h : Canonical s) (hd : Memory.wf u.dbuf = true) (hc : u.chips = s.chips) :
    Canonical u := ⟨hd, by rw [hc]; exact h.chips⟩

theorem Canonical.of_chip {s u : State} (h : Canonical s) {m : ModIdx} {c : Chip} (hd : u.dbuf = s.dbuf)
    (hc : u.chips = bankSet s.chips m c) (hwf : chipWf c = true) : Canonical u :=
  ⟨by rw [hd]; exact h.dbuf, by rw [hc]; exact chipWf_bankSet h.chips hwf⟩

theorem Canonical.csHigh {s : State} (h : Canonical s) (m : ModIdx) : Canonical (csHigh s m) :=
  h.of_chip rfl rfl (chipWf_deselect (h.chips m) s.cfg)

theorem Canonical.releaseAll {s : State} (h : Canonical s) : Canonical (releaseAll s) := by
  have hone : ∀ {t : State} (m : ModIdx), Canonical t → Canonical (releaseCs t m) := fun m ht => by
    unfold releaseCs
    split
    · exact ht
    · exact ht.csHigh m
  exact hone 3 (hone 2 (hone 1 (hone 0 h)))

theorem Canonical.complete {s : State} (h : Canonical s) (code : Result) : Canonical (complete code s) :=
  h.releaseAll.of_chips (by rw [complete_dbuf]; exact h.dbuf) (complete_chips code s)

/-- What a row stores in DBUF before it completes keeps the form. -/
theorem Ends.wf_dbuf {i : Instr} {s v : State} {code : Result} (h : Ends i s code v) (hd : Memory.wf s.dbuf = true) :
    Memory.wf v.dbuf = true := by
  cases h with
  | plain => exact hd
  | read => exact wf_dbufStore hd _ _
  | mismatch => exact hd
  | strobe k => rw [strobeEffect_frame]; exact hd
  | setState => exact hd
  | rxEmpty => exact hd
  | rxMalformed => exact wf_placeFrame hd _
  | rxOk _ _ l => exact wf_deframe (wf_placeFrame hd _) l

theorem Begins.dbuf {i j : Instr} {s v : State} {c : Cont} (h : Begins i s j c v) : v.dbuf = s.dbuf := by
  rcases h.from_cases with rfl | ⟨-, rfl | rfl⟩ | ⟨-, rfl⟩
  all_goals rfl

theorem Primitive.canonical {hdr : List Byte} {x : Txn} {s u : State} (hs : Canonical s) (h : Primitive hdr x s u) :
    Canonical u := by
  have hsample := chipWf_sample (hs.chips (moduleOf s)) s.hist (moduleOf s)
  have hexchange := fun out => chipWf_exchange (hs.chips (moduleOf s)) s.cfg s.hist (moduleOf s) out
  cases h with
  | selects _ _ hu => rw [hu]; exact hs.of_chips hs.dbuf rfl
  | isReady _ _ hu => rw [hu]; exact hs.of_chip rfl rfl hsample
  | notReady _ _ hu => rw [hu]; exact hs.of_chip rfl rfl hsample
  | timesOut _ hu => rw [hu]; exact hs.complete _
  | header _ hu => rw [hu]; exact hs.of_chip rfl rfl (hexchange _)
  | addr2 _ hu => rw [hu]; exact hs.of_chip rfl rfl (hexchange _)
  | data b _ _ _ hu => rw [hu]; exact hs.of_chip rfl rfl (hexchange b)
  | deselects _ _ hu =>
    rw [hu]
    exact Canonical.csHigh (s := { s with seq := { s.seq with txn := none, ret := x.got } }) ⟨hs.dbuf, hs.chips⟩ _

theorem ExecStep.canonical {i : Instr} {s u : State} (hs : Canonical s) (h : ExecStep i s u) : Canonical u := by
  cases h with
  | issues _ _ hu => rw [hu]; exact hs.of_chips hs.dbuf rfl
  | fails _ _ code _ hu => rw [hu]; exact hs.complete code
  | passes _ _ _ hu => rw [hu]; exact hs.of_chips hs.dbuf rfl
  | runs _ _ body =>
    cases body with
    | begins j c v goes _ hu =>
      rw [hu]
      exact hs.of_chips (by change Memory.wf v.dbuf = true; rw [goes.dbuf]; exact hs.dbuf) goes.sameBus.chips
    | waits _ _ _ _ _ hu => rw [hu]; exact hs.of_chips hs.dbuf rfl
    | ends code v done hu =>
      rw [hu]
      exact (hs.of_chips (done.wf_dbuf hs.dbuf) done.sameBus.chips).complete code
  | opens _ _ _ hu => rw [hu]; exact hs.of_chips hs.dbuf rfl
  | continues _ x _ prim => exact prim.canonical hs

theorem canonical_rscStep {s u : State} (hs : Canonical s) (h : rscStep s = .next u) : Canonical u := by
  rcases rscStep_cases h with ⟨-, rfl⟩ | ⟨-, why, -, rfl⟩ | ⟨-, i, -, hexec⟩
  · exact hs
  · exact hs.complete _
  · exact hexec.canonical hs

/-- A host write leaves the chips and keeps the form of DBUF. -/
theorem csrWriteIdle_storage {s : State} (hd : Memory.wf s.dbuf = true) (v : Byte) (r : Csr) :
    Memory.wf (csrWriteIdle s v r).dbuf = true ∧ (csrWriteIdle s v r).chips = s.chips := by
  cases r
  case status => rw [csrWriteIdle]; split <;> exact ⟨hd, rfl⟩
  case errcnt => rw [csrWriteIdle, clearErrcnt]; split <;> exact ⟨hd, rfl⟩
  case dbuf i => exact ⟨wf_dbufPut hd i v, dbufPut_chips s i v⟩
  all_goals exact ⟨hd, rfl⟩

theorem Canonical.hostAccess {s : State} (h : Canonical s) (op : HostOp) : Canonical (hostAccess op s) := by
  cases op with
  | read a => exact h.of_chips h.dbuf rfl
  | write a v =>
    rw [Machine.hostAccess]
    rcases hostWrite_cases a v s with ⟨-, heq⟩ | ⟨-, heq⟩
    · rw [heq]; exact h.of_chips h.dbuf rfl
    · rw [heq]
      obtain ⟨hd, hc⟩ := csrWriteIdle_storage h.dbuf v (csrAt s.cfg a)
      exact h.of_chips hd hc

/-- Settles O52, by whose turn the step is. -/
theorem memoriesStayCanonical : Obligations.MemoriesStayCanonical := by
  unfold Obligations.MemoriesStayCanonical
  intro s t hs hstep
  rw [canonical_iff] at hs ⊢
  have hpop : ∀ rest, Canonical (popTurn rest s) := fun rest => hs.of_chips hs.dbuf rfl
  obtain ⟨-, ⟨-, hrsc⟩ | ⟨op, rest, -, rfl⟩ | ⟨rest, -, rfl⟩ | ⟨lost, rest, -, rfl⟩⟩ := step_next hstep
  · exact canonical_rscStep (hpop s.agenda.tail) hrsc
  · exact (hpop rest).hostAccess op
  · exact hs.of_chips hs.dbuf rfl
  · exact (hpop rest).releaseAll.of_chips rfl (blockReset_chips _)

end Sys2Proof.Proofs
end

section
/-! SUPPORT. The invariant through every step (R51, R54): an idle state has it by its own fields, a running one when the running
command stays sound (`Running`). Each row of the table keeps it, and from it no step stops. -/

namespace Sys2Proof.Proofs

open Sys2Proof Sys2Proof.Machine Sys2Proof.Laws

/-! ### The invariant of an idle machine -/

/-- An idle machine with nothing in progress has the invariant. -/
theorem inv_of_idle {u : State} (hp : paramsOk u.cfg = true) (hb : u.csr.busy = false) (hr : u.csr.result ≠ .pending)
    (hseq : u.seq = Seq.reset) (high : u.csN = sameForAll true) (hd : Memory.wf u.dbuf = true)
    (hc : memBelow u.cfg.dbufCap u.dbuf = true) : Inv u where
  params := hp
  busy_phase := by simp [hb, hseq, Seq.reset]
  busy_done := by simp [hb]
  pending_busy := by simp [hb, hr]
  selects := by simp [selectsDue, hseq, Seq.reset, high]
  idle_clear _ := hseq
  check_clear h := by rw [hseq] at h; cases h
  header := by simp [headerKnown, hseq, Seq.reset]
  command h := by rw [hseq] at h; cases h
  polls := by simp [pollsSound, hseq, Seq.reset, BitVec.le_def]
  samples := by rw [hseq]; exact Nat.zero_le _
  dbuf_wf := hd
  dbuf_cap := hc

theorem inv_complete {v : State} (hp : paramsOk v.cfg = true) {code : Result} (hr : code ≠ .pending)
    (hd : Memory.wf v.dbuf = true) (hc : memBelow v.cfg.dbufCap v.dbuf = true) : Inv (complete code v) :=
  inv_of_idle (by rw [complete_cfg]; exact hp) (by rw [complete_csr]) (by rw [complete_csr]; exact hr) rfl (complete_csN _ _)
    (by rw [complete_dbuf]; exact hd) (by rw [complete_cfg, complete_dbuf]; exact hc)

/-! ### The invariant of a running command -/

/-- The running command: the row of its word, which passed CHECK and stands at a place of its pseudocode. -/
structure Command (i : Instr) (s : State) : Prop where
  row : decode s.cfg (.cmd (commandWord s)) = .ok i
  check : checkOf i s = none
  fits : contFits i s.seq.cont = true

theorem commandSound_iff (s : State) : commandSound s = true ↔ ∃ i, Command i s := by
  unfold commandSound
  constructor
  · intro h
    cases hd : decode s.cfg (.cmd (commandWord s)) with
    | error why => simp only [hd] at h; cases h
    | ok i =>
      simp only [hd, Bool.and_eq_true, decide_eq_true_eq] at h
      exact ⟨i, hd, h.1, h.2⟩
  · rintro ⟨i, hd, hcheck, hfits⟩
    simp only [hd, hcheck, hfits, decide_true, Bool.and_self]

/-- `s` and `u` agree in all that CHECK reads (R225). -/
structure SameOperands (s u : State) : Prop where
  cfg : u.cfg = s.cfg
  operands : OperandsKept s.csr u.csr
  asleep : (modRegs u (moduleOf s)).asleep = (modRegs s (moduleOf s)).asleep

theorem SameOperands.moduleOf {s u : State} (h : SameOperands s u) : moduleOf u = moduleOf s := by
  rw [Machine.moduleOf, Machine.moduleOf, h.operands.mod]

theorem SameOperands.commandWord {s u : State} (h : SameOperands s u) : commandWord u = commandWord s := by
  rw [Machine.commandWord, Machine.commandWord, h.operands.arg, h.operands.cmd]

theorem SameOperands.checkOf {s u : State} (h : SameOperands s u) (i : Instr) : checkOf i u = checkOf i s := by
  have hmod : moduleCheck u = moduleCheck s := by rw [moduleCheck, moduleCheck, h.operands.mod, h.cfg]
  have hlen : lenOperand u = lenOperand s := by rw [lenOperand, lenOperand, h.operands.len]
  have haddr : addrOperand u = addrOperand s := by rw [addrOperand, addrOperand, h.operands.addrHi, h.operands.addrLo]
  have hreg : checkRegister u = checkRegister s := by rw [checkRegister, checkRegister, hmod, h.cfg, haddr, hlen]
  have htx : checkTxFrame u = checkTxFrame s := by
    rw [checkTxFrame, checkTxFrame, hmod, h.cfg, hlen, h.moduleOf, h.asleep]
  have honly : checkModuleOnly u = checkModuleOnly s := by rw [checkModuleOnly, checkModuleOnly, hmod]
  cases i <;> assumption

theorem Command.congr {i : Instr} {s u : State} (h : Command i s) (hs : SameOperands s u)
    (hfits : contFits i u.seq.cont = true) : Command i u :=
  ⟨by rw [hs.cfg, hs.commandWord]; exact h.row, by rw [hs.checkOf]; exact h.check, hfits⟩

/-- `u` still runs the command of `s`, between or inside its transactions. -/
structure Running (s u : State) : Prop where
  same : SameOperands s u
  busy : u.csr.busy = s.csr.busy
  done : u.csr.done = s.csr.done
  result : u.csr.result = s.csr.result
  phase : u.seq.phase = .run
  selects : u.csN = selectsDue u
  header : headerKnown u = true
  polls : pollsSound u = true
  samples : u.seq.samples ≤ u.cfg.readyMaxSamples
  dbuf : u.dbuf = s.dbuf

theorem Running.inv {s u : State} (h : Running s u) (hi : Inv s) (hrun : s.seq.phase ≠ .idle) {i : Instr}
    (hc : Command i u) : Inv u where
  params := by rw [h.same.cfg]; exact hi.params
  busy_phase := by rw [h.busy, h.phase, hi.busy_phase]; simp [hrun]
  busy_done := by rw [h.busy, h.done]; exact hi.busy_done
  pending_busy := by rw [h.result, h.busy]; exact hi.pending_busy
  selects := h.selects
  idle_clear hidle := by rw [h.phase] at hidle; cases hidle
  check_clear hcheck := by rw [h.phase] at hcheck; cases hcheck
  header := h.header
  command _ := (commandSound_iff u).mpr ⟨i, hc⟩
  polls := h.polls
  samples := h.samples
  dbuf_wf := by rw [h.dbuf]; exact hi.dbuf_wf
  dbuf_cap := by rw [h.same.cfg, h.dbuf]; exact hi.dbuf_cap

/-! ### The results of CHECK -/

/-- No check answers PENDING (R225). -/
theorem checkOf_ne_pending {i : Instr} {s : State} {r : Result} (h : checkOf i s = some r) : r ≠ .pending := by
  have hmod : ∀ {r}, moduleCheck s = some r → r = .badArg := fun h => by
    unfold moduleCheck at h; split at h <;> cases h; rfl
  have hfail : ∀ {a r : Result}, a ≠ .pending → Machine.failure a = some r → r ≠ .pending := fun ha h => by
    unfold Machine.failure at h; split at h <;> cases h; exact ha
  have haddr : addrCheck s.cfg (addrOperand s) ≠ .pending := by unfold addrCheck; split_ifs <;> decide
  have hlen : lenCheck s.cfg (lenOperand s) ≠ .pending := by unfold lenCheck; split_ifs <;> decide
  have hfirst : ∀ {l : List (Option Result)} {r}, firstFailure l = some r → some r ∈ l := by
    intro l r h
    induction l with
    | nil => cases h
    | cons o l ih =>
      cases o with
      | none => exact List.mem_cons_of_mem _ (ih h)
      | some q => cases h; exact List.mem_cons_self
  have honly : checkModuleOnly s = some r → r ≠ .pending := fun h => by
    have hm := hfirst h
    simp only [List.mem_cons, List.not_mem_nil, or_false] at hm
    rw [hmod hm.symm]; decide
  have hreg : checkRegister s = some r → r ≠ .pending := fun h => by
    have hm := hfirst h
    simp only [List.mem_cons, List.not_mem_nil, or_false] at hm
    rcases hm with hm | hm | hm
    · rw [hmod hm.symm]; decide
    · exact hfail haddr hm.symm
    · exact hfail hlen hm.symm
  have htx : checkTxFrame s = some r → r ≠ .pending := fun h => by
    have hm := hfirst h
    simp only [List.mem_cons, List.not_mem_nil, or_false] at hm
    rcases hm with hm | hm | hm
    · rw [hmod hm.symm]; decide
    · split at hm <;> cases hm; decide
    · split at hm <;> cases hm; decide
  cases i
  case regRead | regWrite | regWriteVerify => exact hreg h
  case txFrame => exact htx h
  all_goals exact honly h

theorem illegalResult_ne_pending (why : Reject) : illegalResult why ≠ .pending := by cases why <;> decide

theorem Ends.ne_pending {i : Instr} {s v : State} {code : Result} (h : Ends i s code v) : code ≠ .pending := by
  cases h
  case plain hreal => exact hreal
  all_goals decide

/-- A command whose CHECK passed has an address that the check accepts, where it has one (R130, R225). -/
theorem addrCheck_of_checkRegister {s : State} (h : checkRegister s = none) :
    addrCheck s.cfg (addrOperand s) = .ok := by
  have hm : s.csr.mod.toNat < s.cfg.nModules := by
    by_contra hge
    rw [checkRegister, moduleCheck_of_ge (Nat.not_lt.mp hge)] at h
    cases h
  rw [checkRegister_of_lt hm] at h
  by_contra hne
  rw [if_pos hne] at h
  cases h

/-! ### A transaction begins -/

/-- The places of a `Sequence` run are places of the command that has it (R171, R190). -/
theorem contFits_sequence {i : Instr} {r : SeqRun} {g : Target} (h : seqTarget i r = some g) :
    contFits i (.polled r) = true ∧ contFits i (.acted r) = true := by
  rcases seqTarget_cases h with ⟨rfl, rfl⟩ | ⟨a, rfl, ⟨rfl, -⟩ | ⟨rfl, -⟩ | ⟨rfl, -⟩⟩
  · cases g <;> decide
  all_goals exact ⟨rfl, rfl⟩

/-- The place after a transaction begun is one of the row's. -/
theorem Begins.fits {i j : Instr} {s v : State} {c : Cont} (h : Begins i s j c v) : contFits i c = true := by
  cases h
  case strobe k row _ => rw [row]; cases k <;> rfl
  case setState g row _ => rw [row]; exact (contFits_sequence (seqTarget_setStateInstr g)).1
  case acts r g k run _ _ => exact (contFits_sequence run).2
  case pollsAgain r g run _ => exact (contFits_sequence run).1
  case rxRead a row _ _ => rw [row]; rfl
  case read a row _ | write a row _ | verifyWrite a row _ | verifyRead a row _ | txCount a row _ | txIdle a row _
    | txFlush a row _ | txReady a row _ | txWrite a row _ | txSend a row _ | rxCount a row _ | rxPoll a row _
    | rxFlush a row _ | rxRearm a row _ => rw [row]; rfl

theorem isOk_of_eq_ok {e : Except Reject Instr} {i : Instr} (h : e = .ok i) : e.isOk = true := by rw [h]; rfl

/-- A header row begun by a command decodes again. -/
def HeaderDecodes (p : Params) (j : Instr) : Prop := (decode p (.wire (codeBytes (encode p j)))).isOk = true

theorem headerDecodes_wireStrobe {p : Params} (hp : paramsOk p = true) (k : Strobe) : HeaderDecodes p (wireStrobe k) := by
  have h := decode_wireStrobe hp k
  rw [encode_wireStrobe] at h
  unfold HeaderDecodes
  rw [codeBytes_wireStrobe]
  exact isOk_of_eq_ok h

theorem headerDecodes_regHeader {p : Params} (hp : paramsOk p = true) {r b : Bool} {addr : Word16}
    (h : AccessMade p r b addr) : HeaderDecodes p (regHeader p r b addr) := by
  obtain ⟨i, hi⟩ := decode_regHeader hp h
  rw [encode_regHeader] at hi
  unfold HeaderDecodes
  rw [codeBytes_regHeader]
  exact isOk_of_eq_ok hi

theorem Begins.headerDecodes {i j : Instr} {s v : State} {c : Cont} (h : Begins i s j c v) (hp : paramsOk s.cfg = true)
    (hcheck : checkOf i s = none) : HeaderDecodes s.cfg j := by
  cases h
  case read a row _ => subst row; exact headerDecodes_regHeader hp (.inl (addrCheck_of_checkRegister hcheck))
  case write a row _ => subst row; exact headerDecodes_regHeader hp (.inl (addrCheck_of_checkRegister hcheck))
  case verifyWrite a row _ => subst row; exact headerDecodes_regHeader hp (.inl (addrCheck_of_checkRegister hcheck))
  case verifyRead a row _ => subst row; exact headerDecodes_regHeader hp (.inl (addrCheck_of_checkRegister hcheck))
  case txCount => exact headerDecodes_regHeader hp (.inr ⟨rfl, rfl, .inl rfl⟩)
  case rxCount => exact headerDecodes_regHeader hp (.inr ⟨rfl, rfl, .inr rfl⟩)
  case txWrite => exact isOk_of_eq_ok (decode_fifoHeader hp false)
  case rxRead => exact isOk_of_eq_ok (decode_fifoHeader hp true)
  all_goals exact headerDecodes_wireStrobe hp _

/-! The counters of a `Sequence` run (R172, R176, R177). -/

theorem pollsSound_iff (s : State) :
    pollsSound s = true ↔ s.seq.iter ≤ s.csr.maxPolls
      ∧ (∀ r, s.seq.cont = .polled r → s.csr.lastPolls = s.seq.iter)
      ∧ (∀ r, s.seq.cont = .acted r → s.csr.lastPolls = s.seq.iter ∧ s.seq.iter < s.csr.maxPolls) := by
  unfold pollsSound
  rw [Bool.and_eq_true, decide_eq_true_eq]
  cases s.seq.cont <;> simp

theorem lt_of_le_of_ne_byte {a b : Byte} (h : a ≤ b) (hne : a ≠ b) : a < b := by bv_omega

theorem zero_le_byte (a : Byte) : 0 ≤ a := by bv_omega

theorem succ_le_of_lt_byte {a b : Byte} (h : a < b) : a + 1 ≤ b := by bv_omega

theorem Begins.pollsSound {i j : Instr} {s v : State} {c : Cont} (h : Begins i s j c v) (hs : pollsSound s = true) :
    pollsSound (begunState j c v) = true := by
  obtain ⟨hle, hpolled, hacted⟩ := (pollsSound_iff s).mp hs
  rw [pollsSound_iff]
  cases h
  case acts r g k run place below =>
    exact ⟨hle, fun _ he => (by cases he), fun _ _ => ⟨hpolled r place, lt_of_le_of_ne_byte hle below⟩⟩
  case pollsAgain r g run place =>
    exact ⟨succ_le_of_lt_byte (hacted r place).2, fun _ _ => rfl, fun _ he => by cases he⟩
  case setState | txIdle | txReady | txSend =>
    exact ⟨zero_le_byte _, fun _ _ => rfl, fun _ he => by cases he⟩
  all_goals exact ⟨hle, fun _ he => (by cases he), fun _ he => by cases he⟩

theorem Begins.flags {i j : Instr} {s v : State} {c : Cont} (h : Begins i s j c v) :
    v.csr.busy = s.csr.busy ∧ v.csr.done = s.csr.done ∧ v.csr.result = s.csr.result ∧ v.mods = s.mods
      ∧ v.seq.phase = s.seq.phase := by
  rcases h.from_cases with rfl | ⟨-, rfl | rfl⟩ | ⟨-, rfl⟩
  all_goals exact ⟨rfl, rfl, rfl, rfl, rfl⟩

/-- The state after a command began a transaction. -/
theorem Begins.running {i j : Instr} {s v : State} {c : Cont} (h : Begins i s j c v) (hi : Inv s)
    (hrun : s.seq.phase = .run) (hcheck : checkOf i s = none) (high : s.csN = sameForAll true) :
    Running s (begunState j c v) := by
  obtain ⟨hbusy, hdone, hresult, hmods, hphase⟩ := h.flags
  have hv := h.sameBus
  exact {
    same := ⟨hv.cfg, h.csrsKept.operandsKept, by rw [modRegs_congr (u := begunState j c v) hmods]⟩
    busy := hbusy
    done := hdone
    result := hresult
    phase := hphase.trans hrun
    selects := by
      change bankSet v.csN (moduleOf v) false = bankSet (sameForAll true) (moduleOf v) false
      rw [hv.selects, high]
    header := by
      change HeaderDecodes v.cfg j
      rw [hv.cfg]
      exact h.headerDecodes hi.params hcheck
    polls := h.pollsSound hi.polls
    samples := Nat.zero_le _
    dbuf := h.dbuf }

/-- The state after a settle wait. -/
theorem running_of_wait {s : State} (hi : Inv s) (hrun : s.seq.phase = .run) {r : SeqRun}
    (hc : s.seq.cont = .polled r) (hne : s.seq.iter ≠ s.csr.maxPolls) :
    Running s (record { s with seq := { s.seq with cont := .acted r } } .wait) where
  same := ⟨rfl, ⟨rfl, rfl, rfl, rfl, rfl, rfl, rfl⟩, rfl⟩
  busy := rfl
  done := rfl
  result := rfl
  phase := hrun
  selects := hi.selects
  header := hi.header
  polls := by
    obtain ⟨hle, hpolled, -⟩ := (pollsSound_iff s).mp hi.polls
    exact (pollsSound_iff _).mpr
      ⟨hle, fun _ he => (by cases he), fun _ _ => ⟨hpolled r hc, lt_of_le_of_ne_byte hle hne⟩⟩
  samples := hi.samples
  dbuf := rfl

/-! ### A primitive of a transaction -/

theorem headerKnown_of_txn {s : State} {x : Txn} (hx : s.seq.txn = some x) :
    headerKnown s = (decode s.cfg (.wire x.hdr)).isOk := by
  rw [headerKnown, hx]

/-- `u` is inside the same transaction, at another place than CsAssert. -/
theorem running_of_txn {s u : State} {x y : Txn} (hi : Inv s) (hrun : s.seq.phase = .run) (hx : s.seq.txn = some x)
    (same : SameOperands s u) (hcsr : u.csr = s.csr) (hseq : u.seq = { s.seq with samples := u.seq.samples, txn := some y })
    (hhdr : y.hdr = x.hdr) (hpos : y.pos ≠ .select) (hsel : u.csN = bankSet (sameForAll true) (moduleOf s) false)
    (hsamples : u.seq.samples ≤ s.cfg.readyMaxSamples) (hdbuf : u.dbuf = s.dbuf) : Running s u where
  same := same
  busy := by rw [hcsr]
  done := by rw [hcsr]
  result := by rw [hcsr]
  phase := by rw [hseq]; exact hrun
  selects := by
    rw [hsel, selectsDue, hseq, same.moduleOf]
    exact (if_neg hpos).symm
  header := by
    have hy : u.seq.txn = some y := by rw [hseq]
    rw [headerKnown_of_txn hy, same.cfg, hhdr, ← headerKnown_of_txn hx]
    exact hi.header
  polls := by
    have h := (pollsSound_iff s).mp hi.polls
    rw [pollsSound_iff, hseq, hcsr]
    exact h
  samples := by rw [same.cfg]; exact hsamples
  dbuf := hdbuf

theorem SameOperands.of_csr_mods {s u : State} (hcfg : u.cfg = s.cfg) (hcsr : u.csr = s.csr) (hmods : u.mods = s.mods) :
    SameOperands s u :=
  ⟨hcfg, by rw [hcsr]; exact ⟨rfl, rfl, rfl, rfl, rfl, rfl, rfl⟩, by rw [modRegs_congr hmods]⟩

/-- A primitive ends the command, or leaves it running. -/
theorem Primitive.running {hdr : List Byte} {x : Txn} {s u : State} (h : Primitive hdr x s u) (hi : Inv s)
    (hrun : s.seq.phase = .run) (hx : s.seq.txn = some x) : u = complete .timeout s ∨ Running s u := by
  cases h with
  | timesOut _ hu => exact .inl hu
  | selects pos high hu =>
    subst hu
    exact .inr (running_of_txn hi hrun hx (.of_csr_mods rfl rfl rfl) rfl rfl rfl (by simp)
      (by rw [csLow_csN]; exact congrArg (bankSet · _ _) high) (Nat.zero_le _) rfl)
  | isReady pos below hu =>
    subst hu
    exact .inr (running_of_txn hi hrun hx (.of_csr_mods rfl rfl rfl) rfl rfl rfl (by simp)
      (csN_of_txn (s := s) hi hx (by simp [pos])) below rfl)
  | notReady pos below hu =>
    subst hu
    exact .inr (running_of_txn (y := x) hi hrun hx (.of_csr_mods rfl rfl rfl) rfl (by rw [takeSample_seq, ← hx]) rfl
      (by simp [pos]) (csN_of_txn (s := s) hi hx (by simp [pos])) below rfl)
  | header pos hu =>
    subst hu
    refine .inr (running_of_txn hi hrun hx ⟨rfl, ⟨rfl, rfl, rfl, rfl, rfl, rfl, rfl⟩, ?_⟩ rfl rfl rfl ?_
      (csN_of_txn (s := s) hi hx (by simp [pos])) hi.samples rfl)
    · have hregs := modRegs_setLastStatus (exchange .hdr (hdr.headD 0) s) (moduleOf s) (moduleOf s)
        (misoByte s (hdr.headD 0))
      rw [if_pos rfl] at hregs
      have hasleep := congrArg ModRegs.asleep hregs
      exact hasleep
    · simp only
      split <;> decide
  | addr2 pos hu =>
    subst hu
    exact .inr (running_of_txn hi hrun hx (.of_csr_mods rfl rfl rfl) rfl rfl rfl (by simp)
      (csN_of_txn (s := s) hi hx (by simp [pos])) hi.samples rfl)
  | data b rest pos out hu =>
    subst hu
    exact .inr (running_of_txn hi hrun hx (.of_csr_mods rfl rfl rfl) rfl rfl rfl (by simp [pos])
      (csN_of_txn (s := s) hi hx (by simp [pos])) hi.samples rfl)
  | deselects pos out hu =>
    subst hu
    have hlow := csN_of_txn hi hx (by simp [pos])
    refine .inr ⟨.of_csr_mods rfl rfl rfl, rfl, rfl, rfl, hrun, ?_, rfl, ?_, hi.samples, rfl⟩
    · rw [csHigh_csN]
      change bankSet s.csN (moduleOf s) true = sameForAll true
      rw [hlow, bankSet_bankSet_same]
      simpa using bankSet_self (sameForAll true) (moduleOf s)
    · exact (pollsSound_iff _).mpr ((pollsSound_iff s).mp hi.polls)

/-! ### Every step of the RSC -/

/-- Between transactions every chip select is high. -/
theorem csN_of_noTxn {s : State} (hi : Inv s) (hn : s.seq.txn = none) : s.csN = sameForAll true := by
  rw [hi.selects, selectsDue, hn]

/-- The running command of a state with the invariant. -/
theorem command_of_inv {s : State} (hi : Inv s) (hrun : s.seq.phase = .run) : ∃ i, Command i s :=
  (commandSound_iff s).mp (hi.command hrun)

theorem isCommand_of_decode {p : Params} {w : Word16} {i : Instr} (h : decode p (.cmd w) = .ok i) : isCommand i = true :=
  isCommand_of_encode_eq_cmd (encode_of_decodeCmd p h)

theorem Command.isCommand {i : Instr} {s : State} (h : Command i s) : isCommand i = true := isCommand_of_decode h.row

/-- In RUN between transactions the row that runs is the running command. -/
theorem Command.row_eq {i j : Instr} {s : State} (h : Command i s) (hd : decode s.cfg (.cmd (commandWord s)) = .ok j) :
    j = i := by
  have heq := hd.symm.trans h.row
  injection heq

theorem RowRun.wire_or_command {s : State} {i : Instr} (hi : Inv s) (h : RowRun s i) :
    (isCommand i = true ∧ (s.seq.phase = .check ∨ (s.seq.phase = .run ∧ s.seq.txn = none))
      ∧ decode s.cfg (.cmd (commandWord s)) = .ok i)
    ∨ (isWire i = true ∧ s.seq.phase = .run ∧ ∃ x, s.seq.txn = some x) := by
  rcases h with ⟨hphase, hd⟩ | ⟨hrun, x, hx, hd⟩
  · exact .inl ⟨isCommand_of_decode hd, hphase, hd⟩
  · exact .inr ⟨isWire_of_encode_eq_wire (encodeInvertsDecode s.cfg _ i hi.params hd).1, hrun, x, hx⟩

theorem not_wire_of_command {i : Instr} (h : isCommand i = true) : isWire i ≠ true := by
  rw [isWire, h]; decide

/-- What a step of the row the RSC runs leaves: an idle machine, or the command still running. -/
inductive Outcome (s u : State) : Prop
  /-- The command completed, after the state `v`, in which it had written its registers and DBUF bytes. -/
  | ended (code : Result) (v : State) (real : code ≠ .pending) (bus : SameBus s v) (wf : Memory.wf v.dbuf = true)
      (cap : memBelow v.cfg.dbufCap v.dbuf = true) (eq : u = complete code v)
  | running (i : Instr) (running : Running s u) (command : Command i u)

theorem Ends.memBelow {i : Instr} {s v : State} {code : Result} (h : Ends i s code v)
    (hc : memBelow s.cfg.dbufCap s.dbuf = true) : memBelow v.cfg.dbufCap v.dbuf = true := by
  rw [h.sameBus.cfg]
  cases h with
  | plain => exact hc
  | read => exact memBelow_dbufStore hc _ _
  | mismatch => exact hc
  | strobe k => rw [strobeEffect_frame]; exact hc
  | setState => exact hc
  | rxEmpty => exact hc
  | rxMalformed => exact memBelow_placeFrame hc _
  | rxOk _ _ l =>
    have h := memBelow_deframe (s := placeFrame s.seq.ret s) (by rw [placeFrame_cfg]; exact memBelow_placeFrame hc _) l
    rwa [placeFrame_cfg] at h

theorem Outcome.complete {s : State} (hi : Inv s) {code : Result} (hr : code ≠ .pending) :
    Outcome s (complete code s) := .ended code s hr (.refl s) hi.dbuf_wf hi.dbuf_cap rfl

theorem BodyStep.outcome {i : Instr} {s u : State} (h : BodyStep i s u) (hi : Inv s) (hrun : s.seq.phase = .run)
    (hc : Command i s) : Outcome s u := by
  cases h with
  | begins j c v goes high hu =>
    subst hu
    have hrunning := goes.running hi hrun hc.check high
    exact .running i hrunning (hc.congr hrunning.same goes.fits)
  | waits r g run place below hu =>
    subst hu
    have hrunning := running_of_wait hi hrun place below
    exact .running i hrunning (hc.congr hrunning.same (contFits_sequence run).2)
  | ends code v done hu =>
    exact .ended code v done.ne_pending done.sameBus (done.wf_dbuf hi.dbuf_wf) (done.memBelow hi.dbuf_cap) hu

/-- A passed CHECK leads to the first place of the pseudocode (R225). -/
theorem outcome_of_passed {i : Instr} {s : State} (hi : Inv s) (hphase : s.seq.phase = .check)
    (hd : decode s.cfg (.cmd (commandWord s)) = .ok i) (hcheck : checkOf i s = none) :
    Outcome s { s with seq := { s.seq with phase := .run } } := by
  have hclear := hi.check_clear hphase
  have hsame : SameOperands s { s with seq := { s.seq with phase := .run } } := .of_csr_mods rfl rfl rfl
  refine .running i ⟨hsame, rfl, rfl, rfl, rfl, hi.selects, hi.header, ?_, hi.samples, rfl⟩ ⟨hd, hcheck, ?_⟩
  · exact (pollsSound_iff _).mpr ((pollsSound_iff s).mp hi.polls)
  · change contFits i s.seq.cont = true
    rw [hclear]
    rfl

theorem Primitive.outcome {hdr : List Byte} {x : Txn} {s u : State} (h : Primitive hdr x s u) (hi : Inv s)
    (hrun : s.seq.phase = .run) (hx : s.seq.txn = some x) : Outcome s u := by
  rcases h.running hi hrun hx with rfl | hrunning
  · exact .complete hi (by decide)
  · obtain ⟨i, hc⟩ := command_of_inv hi hrun
    refine .running i hrunning (hc.congr hrunning.same ?_)
    have hcont : u.seq.cont = s.seq.cont ∨ u = Machine.complete .timeout s := by
      cases h with
      | timesOut _ hu => exact .inr hu
      | selects _ _ hu | isReady _ _ hu | notReady _ _ hu | header _ hu | addr2 _ hu | data _ _ _ _ hu | deselects _ _ hu =>
        rw [hu]; exact .inl rfl
    rcases hcont with hcont | rfl
    · rw [hcont]; exact hc.fits
    · exact absurd hrunning.phase (by simp [Seq.reset])

/-- Every step of the RSC while a command runs. -/
theorem outcome_of_rscStep {s u : State} (hi : Inv s) (hrun : s.seq.phase ≠ .idle) (h : rscStep s = .next u) :
    Outcome s u := by
  rcases rscStep_cases h with ⟨hidle, -⟩ | ⟨-, why, -, rfl⟩ | ⟨-, i, hrow, hexec⟩
  · exact absurd hidle hrun
  · exact .complete hi (illegalResult_ne_pending why)
  · rcases hrow.wire_or_command hi with ⟨hcmd, -, hd⟩ | ⟨hwire, hphase, x, hx⟩
    · cases hexec with
      | issues _ hidle _ => exact absurd hidle hrun
      | fails _ _ code check hu => rw [hu]; exact .complete hi (checkOf_ne_pending check)
      | passes _ hp check hu => rw [hu]; exact outcome_of_passed hi hp hd check
      | runs _ hp body =>
        obtain ⟨j, hc⟩ := command_of_inv hi hp
        obtain rfl := hc.row_eq hd
        exact body.outcome hi hp hc
      | opens hw _ _ _ => exact absurd hw (not_wire_of_command hcmd)
      | continues hw _ _ _ => exact absurd hw (not_wire_of_command hcmd)
    · cases hexec with
      | issues hc _ _ => exact absurd hwire (not_wire_of_command hc)
      | fails hc _ _ _ _ => exact absurd hwire (not_wire_of_command hc)
      | passes hc _ _ _ => exact absurd hwire (not_wire_of_command hc)
      | runs hc _ _ => exact absurd hwire (not_wire_of_command hc)
      | opens _ hn _ _ => rw [hx] at hn; cases hn
      | continues _ y hy prim => exact prim.outcome hi hphase hy

theorem Outcome.inv {s u : State} (h : Outcome s u) (hi : Inv s) (hrun : s.seq.phase ≠ .idle) : Inv u := by
  cases h with
  | ended code v real bus wf cap eq =>
    rw [eq]
    exact inv_complete (by rw [bus.cfg]; exact hi.params) real wf cap
  | running i running command => exact running.inv hi hrun command

theorem inv_rscStep {s u : State} (hi : Inv s) (h : rscStep s = .next u) : Inv u := by
  by_cases hidle : s.seq.phase = .idle
  · rw [rscStep_idle hidle] at h
    injection h with h
    exact h ▸ hi
  · exact (outcome_of_rscStep hi hidle h).inv hi hidle

/-! ### Every step of the other agents -/

/-- The agenda and the host's read data are no part of the invariant. -/
theorem inv_with_turns {s : State} (hi : Inv s) (rest : List Turn) (b : Byte) :
    Inv { s with agenda := rest, hbRdata := b } :=
  ⟨hi.params, hi.busy_phase, hi.busy_done, hi.pending_busy, hi.selects, hi.idle_clear, hi.check_clear, hi.header, hi.command,
    hi.polls, hi.samples, hi.dbuf_wf, hi.dbuf_cap⟩

/-- Nor is OVR. -/
theorem inv_with_ovr {s : State} (hi : Inv s) (b : Bool) : Inv { s with csr := { s.csr with ovr := b } } :=
  ⟨hi.params, hi.busy_phase, hi.busy_done, hi.pending_busy, hi.selects, hi.idle_clear, hi.check_clear, hi.header, hi.command,
    hi.polls, hi.samples, hi.dbuf_wf, hi.dbuf_cap⟩

/-- A command starts from an idle sequencer (R29). -/
theorem inv_startCommand {s : State} (hi : Inv s) (hidle : s.seq.phase = .idle) (v : Byte) : Inv (startCommand v s) := by
  have hseq := hi.idle_clear hidle
  exact {
    params := hi.params
    busy_phase := by simp
    busy_done := by simp
    pending_busy := by simp
    selects := by simp [selectsDue, hseq, Seq.reset, csN_of_idle hi hidle]
    idle_clear := fun h => by cases h
    check_clear := fun _ => by rw [startCommand_seq, hseq]
    header := by simp [headerKnown, hseq, Seq.reset]
    command := fun h => by cases h
    polls := by simp [pollsSound, hseq, Seq.reset, BitVec.le_def]
    samples := hi.samples
    dbuf_wf := hi.dbuf_wf
    dbuf_cap := hi.dbuf_cap }

/-- What a host write to an idle machine leaves, when it starts no command. -/
structure QuietWrite (s u : State) : Prop where
  cfg : u.cfg = s.cfg
  busy : u.csr.busy = s.csr.busy
  result : u.csr.result = s.csr.result
  seq : u.seq = s.seq
  selects : u.csN = s.csN
  wf : Memory.wf s.dbuf = true → Memory.wf u.dbuf = true
  cap : memBelow s.cfg.dbufCap s.dbuf = true → memBelow s.cfg.dbufCap u.dbuf = true

theorem csrWriteIdle_start_or_quiet (s : State) (v : Byte) (r : Csr) :
    csrWriteIdle s v r = startCommand v s ∨ QuietWrite s (csrWriteIdle s v r) := by
  cases r
  case cmd => exact .inl rfl
  case status => rw [csrWriteIdle]; split <;> exact .inr ⟨rfl, rfl, rfl, rfl, rfl, id, id⟩
  case errcnt => rw [csrWriteIdle, clearErrcnt]; split <;> exact .inr ⟨rfl, rfl, rfl, rfl, rfl, id, id⟩
  case dbuf i =>
    exact .inr ⟨dbufPut_cfg s i v, by rw [csrWriteIdle, dbufPut_csr], by rw [csrWriteIdle, dbufPut_csr], dbufPut_seq s i v,
      dbufPut_csN s i v, fun h => wf_dbufPut h i v, fun h => memBelow_dbufPut h i v⟩
  all_goals exact .inr ⟨rfl, rfl, rfl, rfl, rfl, id, id⟩

theorem inv_hostAccess {s : State} (hi : Inv s) (op : HostOp) : Inv (hostAccess op s) := by
  cases op with
  | read a => exact inv_with_turns hi s.agenda _
  | write a v =>
    rw [hostAccess]
    rcases hostWrite_cases a v s with ⟨-, heq⟩ | ⟨hb, heq⟩
    · rw [heq]
      exact inv_with_ovr hi true
    · rw [heq]
      have hidle : s.seq.phase = .idle := by
        by_contra hne
        rw [hi.busy_phase.mpr hne] at hb
        cases hb
      rcases csrWriteIdle_start_or_quiet s v (csrAt s.cfg a) with h | ⟨hcfg, hbusy, hresult, hseq, hsel, hwf, hcap⟩
      · rw [h]
        exact inv_startCommand hi hidle v
      · refine inv_of_idle (by rw [hcfg]; exact hi.params) (hbusy.trans hb) ?_ (hseq.trans (hi.idle_clear hidle))
          (hsel.trans (csN_of_idle hi hidle)) (hwf hi.dbuf_wf) (by rw [hcfg]; exact hcap hi.dbuf_cap)
        rw [hresult]
        intro hp
        rw [hi.pending_busy.mp hp] at hb
        cases hb

/-- Settles O49, by whose turn the step is: the RSC ends the command or keeps it running, a host access keeps an idle machine
idle or starts a command, a poll reads, and a block reset leaves an idle machine. -/
theorem stepKeepsInv : Obligations.StepKeepsInv := by
  unfold Obligations.StepKeepsInv
  intro s t hi hstep
  have hpop : ∀ rest, Inv (popTurn rest s) := fun rest => inv_with_turns hi rest s.hbRdata
  obtain ⟨-, ⟨-, hrsc⟩ | ⟨op, rest, -, rfl⟩ | ⟨rest, -, rfl⟩ | ⟨lost, rest, -, rfl⟩⟩ := step_next hstep
  · exact inv_rscStep (hpop s.agenda.tail) hrsc
  · exact inv_hostAccess (hpop rest) op
  · exact inv_with_turns hi _ _
  · exact inv_of_idle (by exact hi.params) rfl (by simp [Csrs.reset]) rfl rfl rfl rfl

/-! ### No step stops -/

/-- At a place of its pseudocode, with every chip select high, a command's body answers (R54). -/
theorem bodyOf_answers {i : Instr} (hc : isCommand i = true) {s : State} (hfits : contFits i s.seq.cont = true)
    (high : s.csN = sameForAll true) : ∃ u, bodyOf i s = .next u := by
  have hbegin : ∀ (j : Instr) (c : Cont) (v : State), v.csN = s.csN → ∃ u, beginTxn j c v = .next u :=
    fun j c v hv => ⟨_, beginTxn_of_high (hv.trans high)⟩
  have hpoll : ∀ (r : SeqRun) (g : Target) (done : State → Host.Outcome State Fault Refusal), (∃ u, done s = .next u) →
      ∃ u, afterPoll r g done s = .next u := by
    intro r g done hdone
    unfold afterPoll
    split
    · exact hdone
    · split
      · exact ⟨_, rfl⟩
      · split
        · exact hbegin _ _ _ rfl
        · exact ⟨_, rfl⟩
  rcases instr_cases i with hw | ⟨a, rfl⟩ | ⟨a, rfl⟩ | ⟨a, rfl⟩ | ⟨k, rfl⟩ | ⟨g, rfl⟩ | ⟨a, rfl⟩ | ⟨a, rfl⟩
  · exact absurd hw (not_wire_of_command hc)
  · have hplace : s.seq.cont = .start ∨ s.seq.cont = .readBack := by simpa [contFits] using hfits
    rcases hplace with h | h <;> simp only [bodyOf, regReadBody, h]
    · exact hbegin _ _ _ rfl
    · exact ⟨_, rfl⟩
  · have hplace : s.seq.cont = .start ∨ s.seq.cont = .written := by simpa [contFits] using hfits
    rcases hplace with h | h <;> simp only [bodyOf, regWriteBody, h]
    · exact hbegin _ _ _ rfl
    · exact ⟨_, rfl⟩
  · have hplace : s.seq.cont = .start ∨ s.seq.cont = .verifyWritten ∨ s.seq.cont = .verifyRead := by
      simpa [contFits] using hfits
    rcases hplace with h | h | h <;> simp only [bodyOf, regWriteVerifyBody, h]
    · exact hbegin _ _ _ rfl
    · exact hbegin _ _ _ rfl
    · exact ⟨_, rfl⟩
  · have hplace : s.seq.cont = .start ∨ s.seq.cont = .strobed := by cases k <;> simpa [contFits, strobeInstr] using hfits
    rcases hplace with h | h <;> simp only [bodyOf_strobeInstr, strobeBody, h]
    · exact hbegin _ _ _ rfl
    · exact ⟨_, rfl⟩
  · have hplace : s.seq.cont = .start ∨ s.seq.cont = .polled .setState ∨ s.seq.cont = .acted .setState := by
      cases g <;> simpa [contFits, inSequence, setStateInstr] using hfits
    rcases hplace with h | h | h <;> simp only [bodyOf_setStateInstr, setStateBody, h]
    · exact hbegin _ _ _ rfl
    · exact hpoll _ _ _ ⟨_, rfl⟩
    · exact hbegin _ _ _ rfl
  · simp only [contFits, inSequence, Bool.or_eq_true, decide_eq_true_eq] at hfits
    rcases hfits with h | (((((h | h) | h) | h | h) | h | h) | h | h) <;> simp only [bodyOf, txFrameBody, h]
    · exact hbegin _ _ _ rfl
    · split <;> exact hbegin _ _ _ rfl
    · exact hbegin _ _ _ rfl
    · exact hbegin _ _ _ rfl
    · exact hpoll _ _ _ (hbegin _ _ _ rfl)
    · exact hbegin _ _ _ rfl
    · exact hpoll _ _ _ (hbegin _ _ _ rfl)
    · exact hbegin _ _ _ rfl
    · exact hpoll _ _ _ ⟨_, rfl⟩
    · exact hbegin _ _ _ rfl
  · simp only [contFits, Bool.or_eq_true, decide_eq_true_eq] at hfits
    rcases hfits with h | ((((h | h) | h) | h) | h) <;> simp only [bodyOf, rxFrameBody, h]
    · exact hbegin _ _ _ rfl
    · split
      · exact ⟨_, rfl⟩
      · exact hbegin _ _ _ rfl
    · split
      · exact hbegin _ _ _ rfl
      · split
        · exact ⟨_, rfl⟩
        · exact hbegin _ _ _ rfl
    · exact hbegin _ _ _ rfl
    · exact ⟨_, rfl⟩
    · exact ⟨_, rfl⟩

/-- Inside a transaction the chip selects are as its primitives require (R61, R64). -/
theorem txnStep_answers {s : State} {x : Txn} (hi : Inv s) (hx : s.seq.txn = some x) (hdr : List Byte) :
    ∃ u, txnStep hdr x s = .next u := by
  have hlow : x.pos ≠ .select → selected s = true := fun hpos =>
    selected_of_low (by rw [csN_of_txn hi hx hpos, bankGet_bankSet_same])
  cases hpos : x.pos with
  | select =>
    have high : s.csN = sameForAll true := by
      rw [hi.selects, selectsDue, hx]
      exact if_pos hpos
    rw [txnStep, hpos]
    exact ⟨_, selectStep_of_high high⟩
  | ready =>
    rw [txnStep_ready hpos, readyStep]
    split <;> exact ⟨_, rfl⟩
  | hdr => exact ⟨_, by rw [txnStep_hdr hpos, headerStep, if_pos (hlow (by simp [hpos]))]⟩
  | addr2 => exact ⟨_, by rw [txnStep_addr2 hpos, addr2Step, if_pos (hlow (by simp [hpos]))]⟩
  | data =>
    rw [txnStep_data hpos, dataStep]
    split
    · exact ⟨_, rfl⟩
    · rw [if_pos (hlow (by simp [hpos]))]
      exact ⟨_, rfl⟩

theorem rscStep_answers {s : State} (hi : Inv s) : ∃ u, rscStep s = .next u := by
  cases hphase : s.seq.phase with
  | idle => exact ⟨s, rscStep_idle hphase⟩
  | check =>
    cases hd : decode s.cfg (.cmd (commandWord s)) with
    | error why => exact ⟨runIllegal why s, by simp only [rscStep, fetch, hphase, fetchCommand, hd]⟩
    | ok i =>
      rw [rscStep_check hphase hd]
      obtain ⟨hfail, hpass⟩ := exec_check (isCommand_of_decode hd) hphase
      cases hr : checkOf i s with
      | none => exact ⟨_, hpass hr⟩
      | some r => exact ⟨_, hfail r hr⟩
  | run =>
    cases hx : s.seq.txn with
    | none =>
      obtain ⟨i, hc⟩ := command_of_inv hi hphase
      rw [rscStep_between hphase hx hc.row, exec_of_run hc.isCommand hphase]
      exact bodyOf_answers hc.isCommand hc.fits (csN_of_noTxn hi hx)
    | some x =>
      have hknown := hi.header
      rw [headerKnown, hx] at hknown
      cases hd : decode s.cfg (.wire x.hdr) with
      | error why => simp only [hd] at hknown; cases hknown
      | ok i =>
        have hw := isWire_of_encode_eq_wire (encodeInvertsDecode s.cfg _ i hi.params hd).1
        rw [rscStep_txn hphase hx hd, exec_of_txn hw hx]
        exact txnStep_answers hi hx _

/-- Settles O50: only the RSC could stop, and from the invariant it does not. -/
theorem invMeansNoStop : Obligations.InvMeansNoStop := by
  unfold Obligations.InvMeansNoStop
  intro s hi
  unfold SafeStep
  cases ha : s.agenda with
  | nil =>
    obtain ⟨u, hu⟩ := rscStep_answers hi
    exact ⟨u, by simp only [step, ha, checked_ok hi.params, hu]⟩
  | cons turn rest =>
    cases turn with
    | rsc =>
      obtain ⟨u, hu⟩ := rscStep_answers (inv_with_turns hi rest s.hbRdata)
      exact ⟨u, by simp only [step, ha, checked_ok hi.params]; exact hu⟩
    | host op => exact ⟨_, step_host hi.params ha⟩
    | poll => exact ⟨pollStatus rest s, by simp only [step, ha, checked_ok hi.params]⟩
    | reset lost => exact ⟨blockReset (popTurn rest s), by simp only [step, ha, checked_ok hi.params]⟩

end Sys2Proof.Proofs
end

section
/-! SUPPORT. Whole transactions (R61 to R65) against a chip with given answers, as runs of a step function that takes the
transaction's primitives: the ready wait and the data phase by induction on their length. Then the commands that are one or three of
them, run by the machine from issue to DONE (R132, R133, R151, R196). -/

namespace Sys2Proof.Proofs

open Sys2Proof Sys2Proof.Machine Sys2Proof.Laws

/-! ### Runs of a step function -/

/-- `k` steps of `f` lead from one state to another. -/
inductive Reaches (f : State → Host.Outcome State Fault Refusal) : Nat → State → State → Prop
  | here (s : State) : Reaches f 0 s s
  | next {k : Nat} {s u t : State} (first : f s = .next u) (rest : Reaches f k u t) : Reaches f (k + 1) s t

theorem Reaches.trans {f : State → Host.Outcome State Fault Refusal} {m n : Nat} {s u t : State} (h : Reaches f m s u)
    (h' : Reaches f n u t) : Reaches f (m + n) s t := by
  induction h with
  | here s => rw [Nat.zero_add]; exact h'
  | next first _ ih => rw [Nat.add_right_comm]; exact .next first (ih h')

theorem Reaches.one {f : State → Host.Outcome State Fault Refusal} {s t : State} (h : f s = .next t) : Reaches f 1 s t :=
  .next h (.here t)

theorem Reaches.cast {f : State → Host.Outcome State Fault Refusal} {m n : Nat} {s t : State} (h : Reaches f m s t)
    (hn : m = n) : Reaches f n s t := hn ▸ h

theorem Reaches.execSteps {i : Instr} {k : Nat} {s t : State} (h : Reaches (exec i) k s t) : execSteps i k s = .next t := by
  induction h with
  | here s => rfl
  | next first _ ih => rw [Machine.execSteps, first]; exact ih

theorem run_of_next {M : Host.Core} {k : Nat} {s u : M.State} (h : M.step s = .next u) : M.run (k + 1) s = M.run k u := by
  rw [Host.Core.run, h]

theorem Reaches.runSteps {k : Nat} {s t : State} (h : Reaches step k s t) : runSteps k s = .next t := by
  change Host.Core.run Sys2Proof.core k s = .next t
  induction h with
  | here s => rfl
  | next first _ ih => exact (run_of_next (M := Sys2Proof.core) first).trans ih

/-! ### A transaction in progress -/

/-- `s` with the transaction `x` in progress after `n` samples; chip, module registers and events since `s` as given. -/
def during (s : State) (x : Txn) (n : Nat) (c : Chip) (mods : Bank ModRegs) (es : List Event) : State :=
  { s with
    seq := { s.seq with samples := n, txn := some x }
    csN := bankSet (sameForAll true) (moduleOf s) false
    mods := mods
    chips := bankSet s.chips (moduleOf s) c
    hist := s.hist ++ es }

/-- `s` after a transaction that returned `ret`. -/
def afterTxn (s : State) (n : Nat) (ret : List Byte) (c : Chip) (mods : Bank ModRegs) (es : List Event) : State :=
  { s with
    seq := { s.seq with samples := n, txn := none, ret := ret }
    csN := sameForAll true
    mods := mods
    chips := bankSet s.chips (moduleOf s) c
    hist := s.hist ++ es }

/-- Where a transaction with header `hdr` is in progress, a step of `f` is its next primitive. -/
def TakesPrimitives (f : State → Host.Outcome State Fault Refusal) (s : State) (hdr : List Byte) : Prop :=
  ∀ x n c mods es, x.hdr = hdr → f (during s x n c mods es) = txnStep hdr x (during s x n c mods es)

section transaction
variable {f : State → Host.Outcome State Fault Refusal} {s : State} {hdr : List Byte} {x : Txn} {n : Nat}
  {mods : Bank ModRegs} {es : List Event} {rs : List Bool} {bs : List Byte} {b : Byte}

theorem chip_during (s : State) (x : Txn) (n : Nat) (c : Chip) (mods : Bank ModRegs) (es : List Event) :
    bankGet (during s x n c mods es).chips (moduleOf (during s x n c mods es)) = c :=
  bankGet_bankSet_same _ _ _

theorem low_during (s : State) (x : Txn) (n : Nat) (c : Chip) (mods : Bank ModRegs) (es : List Event) :
    bankGet (during s x n c mods es).csN (moduleOf (during s x n c mods es)) = false :=
  bankGet_bankSet_same _ _ _

theorem sampled_during (s : State) (x : Txn) (n : Nat) (mods : Bank ModRegs) (es : List Event) (r : Bool) (rs : List Bool)
    (bs : List Byte) :
    chipSample (during s x n (.script (r :: rs) bs) mods es).hist (moduleOf (during s x n (.script (r :: rs) bs) mods es))
      (bankGet (during s x n (.script (r :: rs) bs) mods es).chips (moduleOf (during s x n (.script (r :: rs) bs) mods es)))
      = (r, .script rs bs) := by
  rw [chip_during, chipSample_script]

theorem exchanged_during (s : State) (x : Txn) (n : Nat) (mods : Bank ModRegs) (es : List Event) (rs : List Bool) (b : Byte)
    (bs : List Byte) (o : Byte) :
    chipExchange (during s x n (.script rs (b :: bs)) mods es).cfg (during s x n (.script rs (b :: bs)) mods es).hist
      (moduleOf (during s x n (.script rs (b :: bs)) mods es)) o
      (bankGet (during s x n (.script rs (b :: bs)) mods es).chips (moduleOf (during s x n (.script rs (b :: bs)) mods es)))
      = (b, .script rs bs) := by
  rw [chip_during, chipExchange_script]

/-- One given ready sample (R63). -/
theorem sample_during (hf : TakesPrimitives f s hdr) (hx : x.hdr = hdr) (hpos : x.pos = .ready)
    (hn : n < s.cfg.readyMaxSamples) (r : Bool) :
    f (during s x n (.script (r :: rs) bs) mods es) = .next
      (during s { x with pos := if r then .hdr else .ready } (n + 1) (.script rs bs) mods (es ++ [.ready (moduleOf s) r])) := by
  rw [hf x n _ mods es hx, txnStep_ready hpos, readyStep_of_lt rfl hpos
    (sampled_during s x n mods es r rs bs) (by exact hn)]
  simp only [during, moduleOf, bankSet_bankSet_same, List.append_assoc]

/-- The ready wait: `k` false samples, then a true one. -/
theorem reaches_ready (hf : TakesPrimitives f s hdr) (hx : x.hdr = hdr) (hpos : x.pos = .ready) (k : Nat)
    (hk : n + k + 1 ≤ s.cfg.readyMaxSamples) :
    Reaches f (k + 1) (during s x n (.script (List.replicate k false ++ true :: rs) bs) mods es)
      (during s { x with pos := .hdr } (n + k + 1) (.script rs bs) mods
        (es ++ (List.replicate k (.ready (moduleOf s) false) ++ [.ready (moduleOf s) true]))) := by
  induction k generalizing n es with
  | zero => exact .one (sample_during hf hx hpos (by omega) true)
  | succ k ih =>
    have hfirst := sample_during (rs := List.replicate k false ++ true :: rs) (bs := bs) (mods := mods) (es := es)
      hf hx hpos (show n < s.cfg.readyMaxSamples by omega) false
    have hsame : ({ x with pos := if false then .hdr else .ready } : Txn) = x := by rw [← hpos]; rfl
    rw [hsame] at hfirst
    have hrest := ih (n := n + 1) (es := es ++ [.ready (moduleOf s) false]) (by omega)
    rw [List.append_assoc] at hrest
    rw [show n + (k + 1) + 1 = n + 1 + k + 1 by omega]
    exact .next hfirst hrest

/-- The header exchange (R65). -/
theorem header_during {h : Byte} {rest : List Byte} (hf : TakesPrimitives f s (h :: rest)) (hx : x.hdr = h :: rest)
    (hpos : x.pos = .hdr) :
    f (during s x n (.script rs (b :: bs)) s.mods es) = .next
      (during s { x with pos := if (h :: rest).length = 2 then .addr2 else .data } n (.script rs bs) (modsAfter s b)
        (es ++ [.xfer (moduleOf s) .hdr h b])) := by
  rw [hf x n _ s.mods es hx, txnStep_hdr hpos, headerStep_of_answer x rest (low_during s x n _ s.mods es)
    (exchanged_during s x n s.mods es rs b bs h)]
  simp only [during, modsAfter, moduleOf, bankSet_bankSet_same, List.append_assoc]
  rfl

/-- The exchange of the second header byte (R65). -/
theorem addr2_during {h a : Byte} (hf : TakesPrimitives f s [h, a]) (hx : x.hdr = [h, a]) (hpos : x.pos = .addr2) :
    f (during s x n (.script rs (b :: bs)) mods es) = .next
      (during s { x with pos := .data } n (.script rs bs) mods (es ++ [.xfer (moduleOf s) .addr2 a b])) := by
  rw [hf x n _ mods es hx, txnStep_addr2 hpos, addr2Step_of_answer x h (low_during s x n _ mods es)
    (exchanged_during s x n mods es rs b bs a)]
  simp only [during, moduleOf, bankSet_bankSet_same, List.append_assoc]

/-- One data exchange (R65). -/
theorem data_during {o : Byte} {out : List Byte} (hf : TakesPrimitives f s hdr) (hx : x.hdr = hdr) (hpos : x.pos = .data)
    (hout : x.out = o :: out) :
    f (during s x n (.script rs (b :: bs)) mods es) = .next
      (during s { x with out := out, got := if x.keep then x.got ++ [b] else x.got } n (.script rs bs) mods
        (es ++ [.xfer (moduleOf s) .data o b])) := by
  rw [hf x n _ mods es hx, txnStep_data hpos, dataStep_of_answer hout (low_during s x n _ mods es)
    (exchanged_during s x n mods es rs b bs o)]
  simp only [during, moduleOf, bankSet_bankSet_same, List.append_assoc]

/-- The events of the data phase (R67). -/
def dataEvents (m : ModIdx) (out miso : List Byte) : List Event :=
  (List.zip out miso).map fun y => .xfer m .data y.1 y.2

/-- The data phase, byte by byte. -/
theorem reaches_data {out miso : List Byte} (hf : TakesPrimitives f s hdr) (hx : x.hdr = hdr) (hpos : x.pos = .data)
    (hout : x.out = out) (hlen : miso.length = out.length) :
    Reaches f out.length (during s x n (.script rs (miso ++ bs)) mods es)
      (during s { x with out := [], got := if x.keep then x.got ++ miso else x.got } n (.script rs bs) mods
        (es ++ dataEvents (moduleOf s) out miso)) := by
  induction out generalizing x es miso with
  | nil =>
    obtain rfl := List.length_eq_zero_iff.mp hlen
    have hsame : ({ x with out := [], got := if x.keep then x.got ++ [] else x.got } : Txn) = x := by
      rw [List.append_nil, ite_self, ← hout]
    rw [hsame]
    simp only [dataEvents, List.zip_nil_left, List.map_nil, List.append_nil]
    exact .here _
  | cons o out ih =>
    cases miso with
    | nil => cases hlen
    | cons b miso =>
      have hfirst := data_during (rs := rs) (bs := miso ++ bs) (b := b) (n := n) (mods := mods) (es := es) hf hx hpos hout
      have hrest := ih (x := { x with out := out, got := if x.keep then x.got ++ [b] else x.got })
        (es := es ++ [.xfer (moduleOf s) .data o b]) hx hpos rfl (Nat.succ.inj hlen)
      have hgot : (if x.keep then (if x.keep then x.got ++ [b] else x.got) ++ miso else (if x.keep then x.got ++ [b] else x.got))
          = if x.keep then x.got ++ b :: miso else x.got := by
        cases x.keep <;> simp
      rw [hgot, List.append_assoc] at hrest
      exact .next hfirst hrest

/-- CsDeassert (R65). -/
theorem deselect_during {c : Chip} (hf : TakesPrimitives f s hdr) (hx : x.hdr = hdr) (hpos : x.pos = .data)
    (hout : x.out = []) :
    f (during s x n c mods es) = .next
      (afterTxn s n x.got (chipDeselect s.cfg c) mods (es ++ [.cs (moduleOf s) true])) := by
  rw [hf x n c mods es hx, txnStep_data hpos, dataStep_of_nil hout, chip_during]
  have hhigh : bankSet (sameForAll true) (moduleOf s) true = sameForAll true := by
    simpa using bankSet_self (sameForAll true) (moduleOf s)
  simp only [during, afterTxn, moduleOf] at hhigh ⊢
  simp only [bankSet_bankSet_same, List.append_assoc, hhigh]

/-- The exchanges of the header bytes: one, or two (R65). -/
theorem reaches_header {miso : List Byte} (hf : TakesPrimitives f s hdr) (hx : x.hdr = hdr) (hpos : x.pos = .hdr)
    (hbytes : hdr.length = 1 ∨ hdr.length = 2) (hlen : miso.length = hdr.length) :
    Reaches f hdr.length (during s x n (.script rs (miso ++ bs)) s.mods es)
      (during s { x with pos := .data } n (.script rs bs) (modsAfter s (miso.headD 0))
        (es ++ (List.zip [Role.hdr, Role.addr2] (List.zip hdr miso)).map fun y => .xfer (moduleOf s) y.1 y.2.1 y.2.2)) := by
  rcases hbytes with h1 | h2
  · obtain ⟨h, rfl⟩ := List.length_eq_one_iff.mp h1
    obtain ⟨b, rfl⟩ := List.length_eq_one_iff.mp hlen
    exact .one (header_during hf hx hpos)
  · obtain ⟨h, a, rfl⟩ := List.length_eq_two.mp h2
    obtain ⟨b, b', rfl⟩ := List.length_eq_two.mp hlen
    have hsecond := addr2_during (x := { x with pos := .addr2 }) (n := n) (rs := rs) (bs := bs) (b := b')
      (mods := modsAfter s b) (es := es ++ [.xfer (moduleOf s) .hdr h b]) hf hx rfl
    rw [List.append_assoc] at hsecond
    exact .next (header_during hf hx hpos) (.one hsecond)

/-- The events of the exchanges: those of the header bytes, then those of the data phase. -/
theorem xferEvents_eq {m : ModIdx} {data pre miso : List Byte} (hbytes : hdr.length = 1 ∨ hdr.length = 2)
    (hlen : pre.length = hdr.length) (hmiso : miso.length = data.length) :
    xferEvents m hdr data (pre ++ miso) =
      ((List.zip [Role.hdr, Role.addr2] (List.zip hdr pre)).map fun y => .xfer m y.1 y.2.1 y.2.2)
        ++ dataEvents m data miso := by
  have hdata : (List.zip (List.replicate data.length Role.data) (List.zip data miso)).map
      (fun y => Event.xfer m y.1 y.2.1 y.2.2) = dataEvents m data miso := by
    clear hlen hbytes
    induction data generalizing miso with
    | nil => rfl
    | cons o data ih =>
      cases miso with
      | nil => cases hmiso
      | cons b miso => exact congrArg (Event.xfer m .data o b :: ·) (ih (Nat.succ.inj hmiso))
  rw [← hdata]
  rcases hbytes with h1 | h2
  · obtain ⟨h, rfl⟩ := List.length_eq_one_iff.mp h1
    obtain ⟨b, rfl⟩ := List.length_eq_one_iff.mp hlen
    rfl
  · obtain ⟨h, a, rfl⟩ := List.length_eq_two.mp h2
    obtain ⟨b, b', rfl⟩ := List.length_eq_two.mp hlen
    rfl

/-- A whole transaction after its CsAssert. -/
theorem reaches_txn {data miso : List Byte} {keep : Bool} {k : Nat} (hf : TakesPrimitives f s hdr)
    (hbytes : hdr.length = 1 ∨ hdr.length = 2) (hlen : miso.length = hdr.length + data.length)
    (hk : k + 1 ≤ s.cfg.readyMaxSamples) :
    Reaches f ((k + 1) + hdr.length + data.length + 1)
      (during s ⟨hdr, data, keep, [], .ready⟩ 0 (.script (List.replicate k false ++ true :: rs) (miso ++ bs)) s.mods
        [.cs (moduleOf s) false])
      (afterTxn s (k + 1) (if keep then miso.drop hdr.length else []) (.script rs bs) (modsAfter s (miso.headD 0))
        (txnEvents (moduleOf s) k hdr data miso)) := by
  have hpre : (miso.take hdr.length).length = hdr.length := by rw [List.length_take]; omega
  have hpost : (miso.drop hdr.length).length = data.length := by rw [List.length_drop]; omega
  have hhead : (miso.take hdr.length).headD 0 = miso.headD 0 := by
    cases miso with
    | nil => rcases hbytes with h | h <;> rw [h] at hlen <;> simp at hlen <;> omega
    | cons b miso => rcases hbytes with h | h <;> rw [h] <;> rfl
  have hready := reaches_ready (x := ⟨hdr, data, keep, [], .ready⟩) (n := 0) (rs := rs) (bs := miso ++ bs) (mods := s.mods)
    (es := [.cs (moduleOf s) false]) hf rfl rfl k (by omega)
  have hheader := reaches_header (x := ⟨hdr, data, keep, [], .hdr⟩) (n := 0 + k + 1) (rs := rs)
    (bs := miso.drop hdr.length ++ bs) (es := [.cs (moduleOf s) false]
      ++ (List.replicate k (.ready (moduleOf s) false) ++ [.ready (moduleOf s) true])) hf rfl rfl hbytes hpre
  rw [← List.append_assoc (miso.take hdr.length), List.take_append_drop, hhead] at hheader
  have hdata := reaches_data (x := ⟨hdr, data, keep, [], .data⟩) (n := 0 + k + 1) (rs := rs) (bs := bs)
    (mods := modsAfter s (miso.headD 0)) (miso := miso.drop hdr.length)
    (es := ([.cs (moduleOf s) false] ++ (List.replicate k (.ready (moduleOf s) false) ++ [.ready (moduleOf s) true]))
      ++ (List.zip [Role.hdr, Role.addr2] (List.zip hdr (miso.take hdr.length))).map
        fun y => .xfer (moduleOf s) y.1 y.2.1 y.2.2) hf rfl rfl rfl hpost
  have hends := hready.trans (hheader.trans (hdata.trans (.one (deselect_during hf rfl rfl rfl))))
  have hxfer := xferEvents_eq (m := moduleOf s) hbytes hpre hpost
  rw [List.take_append_drop] at hxfer
  rw [txnEvents, hxfer, show (k + 1) + hdr.length + data.length + 1 = k + 1 + (hdr.length + (data.length + 1)) by omega]
  simpa only [List.nil_append, chipDeselect_script, List.append_assoc, List.cons_append, Nat.zero_add] using hends

end transaction

/-! ### A transaction of a row, and one of the machine -/

/-- The state after CsAssert, in the form of the transaction lemmas. -/
theorem begunState_eq_during {j : Instr} {c : Cont} {s : State} (high : s.csN = sameForAll true) :
    begunState j c s =
      during { s with seq := { s.seq with cont := c } } ⟨codeBytes (encode s.cfg j), wireData j s, wireKeep j, [], .ready⟩ 0
        (bankGet s.chips (moduleOf s)) s.mods [.cs (moduleOf s) false] := by
  have hchips : bankSet s.chips (moduleOf s) (bankGet s.chips (moduleOf s)) = s.chips := bankSet_self _ _
  simp only [during, moduleOf] at hchips ⊢
  simp only [hchips, begunState, csLow, record, moduleOf, high]

theorem exec_takesPrimitives {i : Instr} (hw : isWire i = true) (s : State) :
    TakesPrimitives (exec i) s (codeBytes (encode s.cfg i)) := fun x _ _ _ _ _ => exec_of_txn (x := x) hw rfl

/-- Settles O28: CsAssert, then the transaction's primitives. -/
theorem wholeTransaction : Obligations.WholeTransaction := by
  unfold Obligations.WholeTransaction
  intro i s k hdr miso hw high hn hhdr hlen hk hans
  subst hhdr
  have hfirst : exec i s = .next (begunState i s.seq.cont s) := by
    rw [exec_wire hw, runHeader, hn]
    exact beginTxn_of_high (c := s.seq.cont) high
  have hrest := reaches_txn (keep := wireKeep i) (rs := []) (bs := []) (exec_takesPrimitives hw s) (length_header s.cfg hw)
    hlen hk
  rw [List.append_nil, ← hans] at hrest
  rw [begunState_eq_during high] at hfirst
  have hall := (Reaches.next hfirst hrest).execSteps
  rw [show 1 + (k + 1) + (codeBytes (encode s.cfg i)).length + (wireData i s).length + 1
    = (k + 1) + (codeBytes (encode s.cfg i)).length + (wireData i s).length + 1 + 1 by omega, hall, afterTxn, high]

/-- Inside a transaction whose header decodes, a step of the machine is its next primitive (R15, R62). -/
theorem step_takesPrimitives {s : State} (hp : paramsOk s.cfg = true) (ha : s.agenda = []) (hr : s.seq.phase = .run)
    {hdr : List Byte} (hd : (decode s.cfg (.wire hdr)).isOk = true) : TakesPrimitives step s hdr := by
  intro x n c mods es hx
  cases hi : decode s.cfg (.wire hdr) with
  | error why => rw [hi] at hd; cases hd
  | ok i =>
    have hcode := (encodeInvertsDecode s.cfg _ i hp hi).1
    have hstep : step (during s x n c mods es) = rscStep (during s x n c mods es) := by
      have hagenda : (during s x n c mods es).agenda = [] := ha
      simp only [step, hagenda]
      exact checked_ok hp _
    rw [hstep, rscStep_txn (s := during s x n c mods es) (t := x) hr rfl (by rw [hx]; exact hi),
      exec_of_txn (x := x) (isWire_of_encode_eq_wire hcode) rfl]
    change txnStep (codeBytes (encode s.cfg i)) x _ = _
    rw [hcode]
    rfl

/-- A transaction of the machine, from its CsAssert on, against a chip with given answers. -/
theorem reaches_machineTxn {s : State} {j : Instr} (c : Cont) {hdr data : List Byte} {keep : Bool} (hp : paramsOk s.cfg = true)
    (ha : s.agenda = []) (hr : s.seq.phase = .run) (high : s.csN = sameForAll true) (hw : isWire j = true)
    (hd : HeaderDecodes s.cfg j) (hhdr : codeBytes (encode s.cfg j) = hdr) (hdata : wireData j s = data)
    (hkeep : wireKeep j = keep) {k : Nat} {miso : List Byte} {rs : List Bool} {bs : List Byte}
    (hlen : miso.length = hdr.length + data.length) (hk : k + 1 ≤ s.cfg.readyMaxSamples)
    (hchip : bankGet s.chips (moduleOf s) = .script (List.replicate k false ++ true :: rs) (miso ++ bs)) :
    Reaches step ((k + 1) + hdr.length + data.length + 1) (begunState j c s)
      (afterTxn { s with seq := { s.seq with cont := c } } (k + 1) (if keep then miso.drop hdr.length else []) (.script rs bs)
        (modsAfter s (miso.headD 0)) (txnEvents (moduleOf s) k hdr data miso)) := by
  subst hhdr hdata hkeep
  have hf : TakesPrimitives step { s with seq := { s.seq with cont := c } } (codeBytes (encode s.cfg j)) :=
    step_takesPrimitives (s := { s with seq := { s.seq with cont := c } }) hp ha hr hd
  rw [begunState_eq_during high, hchip]
  exact reaches_txn hf (length_header s.cfg hw) hlen hk

/-! ### From issue to the first place of the pseudocode (R29, R225) -/

/-- The state two steps after the host's issue of the word `w`. -/
def started (w : Word16) (s : State) : State := { issue w s with seq := { Seq.reset with phase := .run } }

/-- A machine that has run a command past CHECK, with no turn decided. -/
structure Going (i : Instr) (s : State) : Prop where
  params : paramsOk s.cfg = true
  agenda : s.agenda = []
  phase : s.seq.phase = .run
  high : s.csN = sameForAll true
  row : decode s.cfg (.cmd (commandWord s)) = .ok i

/-- The first step runs CHECK; when it passes, the command stands at its first place. -/
theorem reaches_started {s : State} {i : Instr} {w : Word16} (hi : Inv s) (hb : s.csr.busy = false) (ha : s.agenda = [])
    (hd : decode s.cfg (.cmd w) = .ok i) (hcheck : checkOf i (issue w s) = none) :
    Reaches step 1 (issue w s) (started w s) ∧ Going i (started w s) := by
  have hidle : s.seq.phase = .idle := by
    by_contra hne
    rw [hi.busy_phase.mpr hne] at hb
    cases hb
  have hword : commandWord (issue w s) = w := cmdArg_append_cmdLow w
  have hrsc : step (issue w s) = rscStep (issue w s) := by
    simp only [step, issue_agenda, ha, issue_cfg, checked_ok hi.params]
  refine ⟨.one ?_, ⟨hi.params, ha, rfl, (csN_of_idle hi hidle : s.csN = _), ?_⟩⟩
  · rw [hrsc, rscStep_check (i := i) rfl (by rw [hword]; exact hd), (exec_check (isCommand_of_decode hd) rfl).2 hcheck]
    have hseq := hi.idle_clear hidle
    simp only [started, issue_seq, hseq]
  · change decode s.cfg (.cmd (commandWord (issue w s))) = .ok i
    rw [hword]
    exact hd

/-- Between two transactions a step of a going machine is its command's. -/
theorem Going.step_eq {i : Instr} {s : State} (h : Going i s) (hn : s.seq.txn = none) : step s = exec i s := by
  have hrsc : Machine.step s = rscStep s := by simp only [Machine.step, h.agenda, checked_ok h.params]
  rw [hrsc, rscStep_between h.phase hn h.row]

/-- After a transaction the machine goes on. -/
theorem Going.afterTxn {i : Instr} {s : State} (h : Going i s) (c : Cont) (n : Nat) (ret : List Byte) (ch : Chip)
    (mods : Bank ModRegs) (es : List Event) :
    Going i (afterTxn { s with seq := { s.seq with cont := c } } n ret ch mods es) :=
  ⟨h.params, h.agenda, h.phase, rfl, h.row⟩

/-- The status byte of the last transaction is the one that stays. -/
theorem modsAfter_of_modsAfter {s t : State} {b : Byte} (hm : t.mods = modsAfter s b) (hmod : moduleOf t = moduleOf s)
    (b' : Byte) : modsAfter t b' = modsAfter s b' := by
  have ht : modsAfter t b' = bankSet t.mods (moduleOf t) { bankGet t.mods (moduleOf t) with lastStatus := b' } := rfl
  have hs : modsAfter s b = bankSet s.mods (moduleOf s) { bankGet s.mods (moduleOf s) with lastStatus := b } := rfl
  rw [ht, hm, hmod, hs, bankGet_bankSet_same, bankSet_bankSet_same]
  rfl

theorem lastStatus_of_modsAfter {u v : State} {b : Byte} (hm : v.mods = modsAfter u b) (hmod : moduleOf v = moduleOf u) :
    (modRegs v (moduleOf v)).lastStatus = b := by
  rw [modRegs_congr (s := setLastStatus u (moduleOf u) b) hm, modRegs_setLastStatus, if_pos hmod]

/-! ### One register access (R132, R133) -/

/-- One transaction of a register command, from its first place: begin, run, and the place after it. -/
theorem reaches_access {i : Instr} {s : State} (h : Going i s) {read : Bool} {c : Cont} {addr : Word16} {n k : Nat}
    {miso : List Byte} (hbody : exec i s = beginAccess read c s) (hn : s.seq.txn = none)
    (haddr : s.csr.addrHi ++ s.csr.addrLo = addr) (hok : addrCheck s.cfg addr = .ok) (hlen : s.csr.len.toNat = n)
    (h1 : 1 ≤ n) (hk : k + 1 ≤ s.cfg.readyMaxSamples) (hmiso : miso.length = headerLength s.cfg addr + n)
    (hans : answers s (List.replicate k false ++ [true]) miso) :
    Reaches step (k + headerLength s.cfg addr + n + 3) s
      (afterTxn { s with seq := { s.seq with cont := c } } (k + 1)
        (if read then miso.drop (headerLength s.cfg addr) else []) (.script [] []) (modsAfter s (miso.headD 0))
        (txnEvents (moduleOf s) k (headerOfAccess s.cfg read (decide (1 < n)) addr)
          (if read then List.replicate n 0 else dbufTake s n) miso)) := by
  have hheader : ∀ r b, (headerOfAccess s.cfg r b addr).length = headerLength s.cfg addr := fun r b => by
    unfold headerLength headerOfAccess
    split_ifs <;> rfl
  have hsize : (if burst (lenOperand s) then lenOperand s else 1) = n := by
    unfold burst lenOperand
    by_cases hb : 1 < s.csr.len.toNat
    · rw [if_pos (decide_eq_true hb), hlen]
    · rw [if_neg (by simpa using hb)]; omega
  have hburst : burst (lenOperand s) = decide (1 < n) := by rw [burst, lenOperand, hlen]
  have hdata : wireData (regHeader s.cfg read (burst (lenOperand s)) addr) s
      = if read then List.replicate n 0 else dbufTake s n := by
    rw [wireData_regHeader, hsize]
  have hdatalen : (if read then List.replicate n 0 else dbufTake s n).length = n := by
    cases read <;> simp
  have hfirst : step s = .next (begunState (regHeader s.cfg read (burst (lenOperand s)) addr) c s) := by
    rw [h.step_eq hn, hbody, beginAccess, addrOperand, haddr]
    exact beginTxn_of_high h.high
  have hrest := reaches_machineTxn c (rs := []) (bs := []) (miso := miso) h.params h.agenda h.phase h.high
    (isWire_regHeader s.cfg read (burst (lenOperand s)) addr) (headerDecodes_regHeader h.params (.inl hok))
    (codeBytes_regHeader _ _ _ _) hdata (wireKeep_regHeader _ _ _ _) (by rw [hdatalen, hheader, hmiso]) hk
    (by rw [List.append_nil]; exact hans)
  rw [hheader, hdatalen, hburst] at hrest
  rw [hburst] at hfirst
  exact (Reaches.next hfirst hrest).cast (by omega)

/-- A register command that passes CHECK and makes one access (R131, R225). -/
theorem checkRegister_issue {s : State} {w : Word16} {addr : Word16} (hm : s.csr.mod.toNat < s.cfg.nModules)
    (haddr : s.csr.addrHi ++ s.csr.addrLo = addr) (hok : addrCheck s.cfg addr = .ok)
    (h1 : 1 ≤ s.csr.len.toNat) (hcap : s.csr.len.toNat ≤ s.cfg.dbufCap) : checkRegister (issue w s) = none := by
  have hlen : lenCheck s.cfg s.csr.len.toNat = .ok := if_pos ⟨h1, hcap⟩
  rw [checkRegister_of_lt (by exact hm)]
  change (if addrCheck s.cfg (s.csr.addrHi ++ s.csr.addrLo) ≠ .ok then _
    else if lenCheck s.cfg s.csr.len.toNat ≠ .ok then _ else none) = none
  rw [haddr, hok, hlen]
  rfl

/-- Settles O34: CHECK, the access, and the completion that stores what was read. -/
theorem wholeRegRead : Obligations.WholeRegRead := by
  unfold Obligations.WholeRegRead
  intro s arg addr n k miso hi hb ha hm haddr hok hlen h1 hcap hk hmiso hans
  subst hlen
  obtain ⟨hcheck, hgo⟩ := reaches_started (i := .regRead arg) hi hb ha (decode_cmdWord s.cfg 1 arg)
    (checkRegister_issue hm haddr hok h1 hcap)
  have hbody : exec (.regRead arg) (started (cmdWord 1 arg) s) = beginAccess true .readBack (started (cmdWord 1 arg) s) := by
    rw [exec_of_run (i := .regRead arg) rfl rfl]
    rfl
  have hacc := reaches_access (s := started (cmdWord 1 arg) s) hgo hbody rfl haddr hok rfl h1 hk hmiso hans
  generalize hv : afterTxn _ _ _ _ _ _ = v at hacc
  have hgo' : Going (.regRead arg) v := hv ▸ hgo.afterTxn _ _ _ _ _ _
  have hret : v.seq.ret = miso.drop (headerLength s.cfg addr) := by rw [← hv]; rfl
  have hretlen : v.seq.ret.length = s.csr.len.toNat := by rw [hret, List.length_drop, hmiso]; omega
  have hat : AtPlace .readBack v := ⟨hgo'.phase, by rw [← hv]; rfl, hgo'.high⟩
  have hcfg : v.cfg = s.cfg := by rw [← hv]; rfl
  have hdbuf : v.dbuf = s.dbuf := by rw [← hv]; rfl
  obtain ⟨t, hexec, hdone⟩ := regReadCompletes v arg (by rw [hdbuf]; exact hi.dbuf_wf) hat
    (by rw [hretlen, hcfg]; exact hcap)
  have hlast : step v = .next t := by rw [hgo'.step_eq (by rw [← hv]; rfl), hexec]
  refine ⟨t, ((hcheck.trans (hacc.trans (.one hlast))).cast ?_).runSteps, ?_, ?_, fun a => ?_, hdone.seq, ?_, ?_⟩
  · change 1 + (k + headerLength s.cfg addr + s.csr.len.toNat + 3 + 1) = _
    omega
  · rw [hdone.csr, ← hv]
    change { (issue (cmdWord 1 arg) s).csr with result := .ok, busy := false, done := true } = _
    rw [issue_csr, cmdArg_cmdWord, cmdLow_cmdWord]
    rfl
  · rw [hdone.mods, ← hv]
    rfl
  · rw [hdone.dbuf, hretlen, hret]
    have hget : (miso.drop (headerLength s.cfg addr)).getD a 0 = miso.getD (headerLength s.cfg addr + a) 0 := by
      simp [List.getD_eq_getElem?_getD, List.getElem?_drop]
    rw [hget, dbufAt, hdbuf]
    rfl
  · rw [hdone.selects]
    exact hgo'.high
  · rw [hdone.hist, ← hv]
    change ((s.hist ++ [.cmd (cmdArg (cmdWord 1 arg) ++ cmdLow (cmdWord 1 arg))]) ++ _) ++ _ = _
    rw [cmdArg_append_cmdLow]
    rfl

/-- Settles O35: CHECK, the access, and completion. -/
theorem wholeRegWrite : Obligations.WholeRegWrite := by
  unfold Obligations.WholeRegWrite
  intro s arg addr n k miso hi hb ha hm haddr hok hlen h1 hcap hk hmiso hans
  subst hlen
  obtain ⟨hcheck, hgo⟩ := reaches_started (i := .regWrite arg) hi hb ha (decode_cmdWord s.cfg 2 arg)
    (checkRegister_issue hm haddr hok h1 hcap)
  have hbody : exec (.regWrite arg) (started (cmdWord 2 arg) s) = beginAccess false .written (started (cmdWord 2 arg) s) := by
    rw [exec_of_run (i := .regWrite arg) rfl rfl]
    rfl
  have hacc := reaches_access (s := started (cmdWord 2 arg) s) hgo hbody rfl haddr hok rfl h1 hk hmiso hans
  generalize hv : afterTxn _ _ _ _ _ _ = v at hacc
  have hgo' : Going (.regWrite arg) v := hv ▸ hgo.afterTxn _ _ _ _ _ _
  have hat : AtPlace .written v := ⟨hgo'.phase, by rw [← hv]; rfl, hgo'.high⟩
  have hdbuf : v.dbuf = s.dbuf := by rw [← hv]; rfl
  obtain ⟨t, hexec, hdone⟩ := regWriteCompletes v arg hat
  have hlast : step v = .next t := by rw [hgo'.step_eq (by rw [← hv]; rfl), hexec]
  refine ⟨t, ((hcheck.trans (hacc.trans (.one hlast))).cast ?_).runSteps, ?_, ?_, fun a => ?_, hdone.seq, ?_, ?_⟩
  · change 1 + (k + headerLength s.cfg addr + s.csr.len.toNat + 3 + 1) = _
    omega
  · rw [hdone.csr, ← hv]
    change { (issue (cmdWord 2 arg) s).csr with result := .ok, busy := false, done := true } = _
    rw [issue_csr, cmdArg_cmdWord, cmdLow_cmdWord]
    rfl
  · rw [hdone.mods, ← hv]
    rfl
  · rw [hdone.dbuf, dbufAt, hdbuf]
    rfl
  · rw [hdone.selects]
    exact hgo'.high
  · rw [hdone.hist, ← hv]
    change ((s.hist ++ [.cmd (cmdArg (cmdWord 2 arg) ++ cmdLow (cmdWord 2 arg))]) ++ txnEvents (moduleOf s) k _
      (dbufTake (started (cmdWord 2 arg) s) s.csr.len.toNat) miso) ++ _ = _
    rw [cmdArg_append_cmdLow, dbufTake_congr (s := s) (t := started (cmdWord 2 arg) s) rfl]
    rfl

/-! ### One strobe (R151) -/

/-- One strobe's transaction, from the place that begins it. -/
theorem reaches_strobe {i : Instr} {s v : State} (h : Going i v) {q : Strobe} {c : Cont} {k : Nat} {b : Byte}
    {rs : List Bool} {bs : List Byte} (hfirst : step s = .next (begunState (wireStrobe q) c v))
    (hk : k + 1 ≤ v.cfg.readyMaxSamples) (hans : answers v (List.replicate k false ++ true :: rs) (b :: bs)) :
    Reaches step (k + 4) s
      (afterTxn { v with seq := { v.seq with cont := c } } (k + 1) [] (.script rs bs) (modsAfter v b)
        (txnEvents (moduleOf v) k [v.cfg.strobeCode q] [] [b])) := by
  have hrest := reaches_machineTxn c (miso := [b]) (rs := rs) (bs := bs) h.params h.agenda h.phase h.high
    (isWire_wireStrobe q) (headerDecodes_wireStrobe h.params q) (codeBytes_wireStrobe v.cfg q) (wireData_wireStrobe q v)
    (wireKeep_wireStrobe q) rfl hk hans
  exact .next hfirst hrest

/-- A STROBE word's low byte is its opcode (R101). -/
theorem cmdLow_strobe {p : Params} {q : Strobe} {w : Word16} (h : encode p (strobeInstr q) = .cmd w) : cmdLow w = 4 := by
  cases q <;> cases h <;> decide

/-- Settles O37: CHECK, the strobe, and completion with its effect. -/
theorem wholeStrobe : Obligations.WholeStrobe := by
  unfold Obligations.WholeStrobe
  intro q s k b w hi hb ha hm hw hk hans
  have hd : decode s.cfg (.cmd w) = .ok (strobeInstr q) := by
    rw [← hw]
    exact decodeInvertsEncode s.cfg _ hi.params (wellFormed_of_isCommand (isCommand_strobeInstr q) _)
  obtain ⟨hcheck, hgo⟩ := reaches_started hi hb ha hd
    (by rw [checkOf_moduleOnly (.inl ⟨q, rfl⟩), checkModuleOnly_of_lt (by exact hm)])
  have hfirst : step (started w s) = .next (begunState (wireStrobe q) .strobed (started w s)) := by
    rw [hgo.step_eq rfl, exec_strobe_start ⟨rfl, rfl, hgo.high⟩, beginTxn_of_high hgo.high]
  have htxn := reaches_strobe hgo (rs := []) (bs := []) hfirst hk hans
  generalize hv : afterTxn _ _ _ _ _ _ = v at htxn
  have hgo' : Going (strobeInstr q) v := hv ▸ hgo.afterTxn _ _ _ _ _ _
  have hat : AtPlace .strobed v := ⟨hgo'.phase, by rw [← hv]; rfl, hgo'.high⟩
  obtain ⟨t, hexec, hdone, hother, hown⟩ := (strobeBeginsAndCompletes q v).2 hat
  have hlast : step v = .next t := by rw [hgo'.step_eq (by rw [← hv]; rfl), hexec]
  have hmodule : moduleOf v = moduleOf s := by rw [← hv]; rfl
  have hregs : ∀ m, modRegs v m = _ := fun m =>
    (modRegs_congr (u := v) (by rw [← hv]; rfl) m).trans (modRegs_setLastStatus s (moduleOf s) m b)
  refine ⟨t, ((hcheck.trans (htxn.trans (.one hlast))).cast (by omega)).runSteps, ?_, fun a => ?_, ?_, fun m hne => ?_, ?_⟩
  · rw [hdone.csr, ← hv, ← cmdLow_strobe hw]
    rfl
  · rw [hdone.dbuf, ← hv]
    rfl
  · rw [hdone.hist, ← hv]
    change ((s.hist ++ [.cmd (cmdArg w ++ cmdLow w)]) ++ _) ++ _ = _
    rw [cmdArg_append_cmdLow]
    rfl
  · rw [hother m (by rw [hmodule]; exact hne), hregs, if_neg hne]
  · rw [← hmodule, hown, hmodule, hregs, if_pos rfl]

/-! ### RX_FRAME of one frame (R196, R210) -/

/-- `v` is what a transaction of the command `i`, begun at `u` for place `c`, left against a chip with given answers: it returned
`ret`, the header exchange answered `b`, and `rs`, `bs` are the answers still to come. -/
structure AfterTransaction (i : Instr) (u : State) (c : Cont) (ret : List Byte) (b : Byte) (rs : List Bool) (bs : List Byte)
    (v : State) : Prop where
  going : Going i v
  place : AtPlace c v
  between : v.seq.txn = none
  ret : v.seq.ret = ret
  csr : v.csr = u.csr
  cfg : v.cfg = u.cfg
  dbuf : v.dbuf = u.dbuf
  mods : v.mods = modsAfter u b
  answers : answers v rs bs

theorem AfterTransaction.module {i : Instr} {u v : State} {c : Cont} {ret : List Byte} {b : Byte} {rs : List Bool}
    {bs : List Byte} (h : AfterTransaction i u c ret b rs bs v) : moduleOf v = moduleOf u := by
  rw [moduleOf, h.csr]
  rfl

/-- The status byte of the command's module is the header's answer (R65). -/
theorem AfterTransaction.status {i : Instr} {u v : State} {c : Cont} {ret : List Byte} {b : Byte} {rs : List Bool}
    {bs : List Byte} (h : AfterTransaction i u c ret b rs bs v) : (modRegs v (moduleOf v)).lastStatus = b :=
  lastStatus_of_modsAfter h.mods h.module

/-- A step that begins the transaction of the header row `j`, and the transaction. -/
theorem reaches_afterTransaction {i j : Instr} {s u : State} {c : Cont} {hdr data : List Byte} {keep : Bool} {k : Nat}
    {miso : List Byte} {rs : List Bool} {bs : List Byte} (h : Going i u) (hfirst : step s = beginTxn j c u)
    (hw : isWire j = true) (hd : HeaderDecodes u.cfg j) (hhdr : codeBytes (encode u.cfg j) = hdr) (hdata : wireData j u = data)
    (hkeep : wireKeep j = keep) (hlen : miso.length = hdr.length + data.length) (hk : k + 1 ≤ u.cfg.readyMaxSamples)
    (hans : answers u (List.replicate k false ++ true :: rs) (miso ++ bs)) :
    ∃ v, Reaches step (k + miso.length + 3) s v
      ∧ AfterTransaction i u c (if keep then miso.drop hdr.length else []) (miso.headD 0) rs bs v := by
  have hrest := reaches_machineTxn c h.params h.agenda h.phase h.high hw hd hhdr hdata hkeep hlen hk hans
  rw [beginTxn_of_high h.high] at hfirst
  exact ⟨_, (Reaches.next hfirst hrest).cast (by omega), h.afterTxn _ _ _ _ _ _, ⟨h.phase, rfl, rfl⟩, rfl, rfl, rfl, rfl, rfl,
    rfl, bankGet_bankSet_same _ _ _⟩

/-- Storing the count leaves the command going (R197). -/
theorem Going.storeCount {i : Instr} {s : State} (h : Going i s) : Going i (storeCount s) :=
  ⟨h.params, h.agenda, h.phase, h.high, h.row⟩

section rxFrame
variable {arg : Byte} {s : State}

/-- RX_FRAME's count read (R197). -/
theorem reaches_rxCounted {pre : List Byte} {n : Byte} {k : Nat} {rs : List Bool} {bs : List Byte} (h : Going (.rxFrame arg) s)
    (hat : AtPlace .start s) (hn : s.seq.txn = none) (hpre : pre.length = headerLength s.cfg s.cfg.addrNumRxBytes)
    (hk : k + 1 ≤ s.cfg.readyMaxSamples) (hans : answers s (List.replicate k false ++ true :: rs) ((pre ++ [n]) ++ bs)) :
    ∃ v, Reaches step (k + pre.length + 4) s v
      ∧ AfterTransaction (.rxFrame arg) s .rxCounted [n] ((pre ++ [n]).headD 0) rs bs v := by
  obtain ⟨v, hrun, hv⟩ := reaches_afterTransaction h (by rw [h.step_eq hn, exec_rxFrame_start hat, beginCountRead])
    (isWire_regHeader s.cfg true false _) (headerDecodes_regHeader h.params (.inr ⟨rfl, rfl, .inr rfl⟩))
    (codeBytes_regHeader _ _ _ _) (wireData_regHeader _ _ _ _ _) (wireKeep_regHeader _ _ _ _)
    (by rw [List.length_append, hpre]; rfl) hk hans
  have hdrop : (pre ++ [n]).drop (headerOfAccess s.cfg true false s.cfg.addrNumRxBytes).length = [n] :=
    List.drop_left' hpre
  rw [if_pos rfl, hdrop] at hv
  exact ⟨v, hrun.cast (by rw [List.length_append]; rfl), hv⟩

/-- RX_FRAME's poll after a count that is not 0 (R199). -/
theorem reaches_rxPolled {b : Byte} {k : Nat} {rs : List Bool} {bs : List Byte} (h : Going (.rxFrame arg) s)
    (hat : AtPlace .rxCounted s) (hn : s.seq.txn = none) (hcount : countRead s ≠ 0) (hk : k + 1 ≤ s.cfg.readyMaxSamples)
    (hans : answers s (List.replicate k false ++ true :: rs) (b :: bs)) :
    ∃ v, Reaches step (k + 4) s v ∧ AfterTransaction (.rxFrame arg) (storeCount s) .rxPolled [] b rs bs v :=
  reaches_afterTransaction (miso := [b]) h.storeCount
    (by rw [h.step_eq hn, exec_rxFrame_counted hat, if_neg hcount, beginPoll]) (isWire_wireStrobe .snop)
    (headerDecodes_wireStrobe (p := (storeCount s).cfg) h.params .snop) (codeBytes_wireStrobe _ .snop)
    (wireData_wireStrobe .snop _) (wireKeep_wireStrobe .snop) rfl hk hans

/-- RX_FRAME's burst read of the FIFO (R201). -/
theorem reaches_rxDrained {b : Byte} {f : List Byte} {k : Nat} {rs : List Bool} {bs : List Byte} (h : Going (.rxFrame arg) s)
    (hat : AtPlace .rxPolled s) (hn : s.seq.txn = none) (hpoll : polledIs s .rxFifoErr = false)
    (hdepth : s.csr.rxCount.toNat ≤ s.cfg.fifoDepth) (hf : f.length = s.csr.rxCount.toNat)
    (hk : k + 1 ≤ s.cfg.readyMaxSamples) (hans : answers s (List.replicate k false ++ true :: rs) ((b :: f) ++ bs)) :
    ∃ v, Reaches step (k + f.length + 4) s v ∧ AfterTransaction (.rxFrame arg) s .rxDrained f b rs bs v :=
  reaches_afterTransaction (miso := b :: f) (hdr := [hdrByte true true s.cfg.fifoAddr])
    (data := List.replicate s.csr.rxCount.toNat 0) (keep := true) h
    (by rw [h.step_eq hn, exec_rxFrame_polled hat, if_neg (by simp [hpoll]), if_neg (Nat.not_lt.mpr hdepth)]) rfl
    (isOk_of_eq_ok (decode_fifoHeader h.params true) : HeaderDecodes s.cfg .wireRxFifoBurstRead) rfl rfl rfl
    (by rw [List.length_replicate, List.length_cons, hf, Nat.add_comm]; rfl) hk hans

/-- The three transactions of RX_FRAME on a FIFO with a count that is not 0, whose poll shows no FIFO error (R196). -/
theorem reaches_frameRead {pre f : List Byte} {c b2 b3 : Byte} {k1 k2 k3 : Nat} (h : Going (.rxFrame arg) s)
    (hat : AtPlace .start s) (hn : s.seq.txn = none) (hpre : pre.length = headerLength s.cfg s.cfg.addrNumRxBytes)
    (hk1 : k1 + 1 ≤ s.cfg.readyMaxSamples) (hk2 : k2 + 1 ≤ s.cfg.readyMaxSamples) (hk3 : k3 + 1 ≤ s.cfg.readyMaxSamples)
    (hc : c ≠ 0) (hdepth : c.toNat ≤ s.cfg.fifoDepth) (hf : f.length = c.toNat)
    (hpoll : stateIs s.cfg b2 .rxFifoErr = false)
    (hans : answers s
      (List.replicate k1 false ++ true :: (List.replicate k2 false ++ true :: (List.replicate k3 false ++ [true])))
      (pre ++ [c] ++ [b2] ++ b3 :: f)) :
    ∃ v, Reaches step (f.length + pre.length + k1 + k2 + k3 + 12) s v
      ∧ AfterTransaction (.rxFrame arg) { s with csr := { s.csr with rxCount := c, pktValid := false, trailing := false } }
          .rxDrained f b3 [] [] v := by
  rw [List.append_assoc (pre ++ [c])] at hans
  obtain ⟨v1, hrun1, h1⟩ := reaches_rxCounted h hat hn hpre hk1 hans
  obtain ⟨v2, hrun2, h2⟩ := reaches_rxPolled h1.going h1.place h1.between
    (by rw [countRead_of_ret h1.ret]; exact hc) (by rw [h1.cfg]; exact hk2) h1.answers
  have hcsr2 : v2.csr = { s.csr with rxCount := c, pktValid := false, trailing := false } := by
    rw [h2.csr, storeCount_of_ret h1.ret, ← h1.csr]
  have hcfg2 : v2.cfg = s.cfg := h2.cfg.trans h1.cfg
  have hpoll2 : polledIs v2 .rxFifoErr = false := by
    rw [polledIs, hcfg2, h2.status]
    exact hpoll
  obtain ⟨v3, hrun3, h3⟩ := reaches_rxDrained (f := f) (rs := []) (bs := []) h2.going h2.place h2.between hpoll2
    (by rw [hcsr2, hcfg2]; exact hdepth) (by rw [hcsr2]; exact hf) (by rw [hcfg2]; exact hk3)
    (by rw [List.append_nil]; exact h2.answers)
  have hmods : v3.mods = modsAfter s b3 := by
    rw [h3.mods, modsAfter_of_modsAfter h2.mods h2.module]
    exact modsAfter_of_modsAfter (t := v1) h1.mods h1.module b3
  exact ⟨v3, (hrun1.trans (hrun2.trans hrun3)).cast (by omega), h3.going, h3.place, h3.between, h3.ret, h3.csr.trans hcsr2,
    h3.cfg.trans hcfg2, h3.dbuf.trans (h2.dbuf.trans h1.dbuf), hmods, h3.answers⟩

end rxFrame

/-- Settles O48: CHECK, the three transactions, and the deframing of what the FIFO answered. -/
theorem wholeRxFrame : Obligations.WholeRxFrame := by
  unfold Obligations.WholeRxFrame
  intro s arg a s1 s2 b2 b3 pre payload f n k1 k2 k3 hi hb ha hm hpre hk1 hk2 hk3 hpay hmax hdepth hf hpoll hans
  have hcap := (maxPayload_of_paramsOk hi.params).1
  have hwindow := dbufCap_of_paramsOk hi.params
  have hl : (n + 1).toNat = n.toNat + 1 := toNat_wireLength hi.params hmax
  have hn4 : (n + 4).toNat = n.toNat + 4 := by
    rw [BitVec.toNat_add]
    exact Nat.mod_eq_of_lt (show n.toNat + 4 < 256 by omega)
  have hflen : f.length = (n + 4).toNat := by
    rw [hf, hn4, ← hpay]
    simp [frameBytes]
  obtain ⟨hcheck, hgo⟩ := reaches_started (i := .rxFrame arg) hi hb ha (decode_cmdWord s.cfg 7 arg)
    (checkModuleOnly_of_lt (by exact hm))
  obtain ⟨v, hrun, hv⟩ := reaches_frameRead (s := started (cmdWord 7 arg) s) hgo ⟨rfl, rfl, hgo.high⟩ rfl hpre hk1 hk2 hk3
    (by intro h0; rw [h0] at hn4; cases hn4) (hn4.trans_le hdepth) hflen hpoll hans
  have hret : v.seq.ret = (n + 1) :: a :: (payload ++ [s1, s2]) := hv.ret.trans hf
  have hcount : v.csr.rxCount.toNat = n.toNat + 4 := by rw [hv.csr, hn4]
  have hcfg : v.cfg = s.cfg := hv.cfg
  have hdbuf : v.dbuf = s.dbuf := hv.dbuf
  obtain ⟨t, hexec, hdone, -⟩ := rxFrameDeframes arg v (n + 1) a (payload ++ [s1, s2]) hv.going.params
    (by rw [hdbuf]; exact hi.dbuf_wf) hv.place hret (by rw [hcount, List.length_append, hpay]; rfl)
    (by rw [hcount, hcfg]; exact hdepth) (by omega) (by omega)
  have hlast : step v = .next t := by rw [hv.going.step_eq hv.between, hexec]
  have hrssi : (payload ++ [s1, s2]).getD ((n + 1).toNat - 1) 0 = s1 := by
    rw [List.getD_append_right _ _ _ _ (by omega), hl, hpay]
    simp
  have hstatus : (payload ++ [s1, s2]).getD (n + 1).toNat 0 = s2 := by
    rw [List.getD_append_right _ _ _ _ (by omega), hl, hpay]
    simp
  have htrailing : decide ((n + 1).toNat + 3 < v.csr.rxCount.toNat) = false := decide_eq_false (by omega)
  refine ⟨t, ((hcheck.trans (hrun.trans (.one hlast))).cast (by omega)).runSteps, ?_, fun j hj => ?_, ?_, ?_, fun j hj => ?_,
    hdone.mods.trans hv.mods⟩
  · have hcsr := hdone.csr
    rw [hrssi, hstatus, BitVec.add_sub_cancel, htrailing, hv.csr] at hcsr
    rw [hcsr]
    change { (issue (cmdWord 7 arg) s).csr with
      rxCount := n + 4, rxLen := n, rxAddr := a, rxRssi := s1, rxStatus2 := s2, pktValid := true, trailing := false,
      result := .ok, busy := false, done := true } = _
    rw [issue_csr, cmdArg_cmdWord, cmdLow_cmdWord]
    rfl
  · rw [hdone.dbuf, if_neg (by omega), if_pos (by omega), List.getD_append _ _ _ _ (by omega)]
  · rw [hdone.dbuf, if_pos hl.symm]
  · rw [hdone.dbuf, if_neg (by omega), if_pos (by omega), ← hl, hstatus]
  · rw [hdone.dbuf, if_neg (by omega), if_neg (by omega), dbufAt, hdbuf]
    rfl

end Sys2Proof.Proofs
end

section
/-! SUPPORT. The reference device (R84 to R96) in the extended space: the registers a burst write leaves, and what a burst read of
them returns, byte by byte. -/

namespace Sys2Proof.Proofs

open Sys2Proof Sys2Proof.Machine Sys2Proof.Laws

/-! ### The reference device in the extended space (R88, R89, R95) -/

/-- The RegisterAddress of the `j`-th byte of an extended access at `off`. -/
def extAddr (p : Params) (off : Byte) (j : Nat) : Word16 := p.extPrefix ++ (off + BitVec.ofNat 8 j)

/-- The registers from `off` on hold `bytes`. -/
def Holds (p : Params) (off : Byte) (m : Memory) (bytes : List Byte) : Prop :=
  ∀ j, j < bytes.length → memRead m (extAddr p off j).toNat = bytes.getD j 0

/-- The range of `n` bytes at `off` lies in the extended space and holds no count register. -/
structure PlainRange (p : Params) (off : Byte) (n : Nat) : Prop where
  fits : off.toNat + n ≤ 256
  plain : ∀ j, j < n → extAddr p off j ≠ p.addrNumTxBytes ∧ extAddr p off j ≠ p.addrNumRxBytes

theorem toNat_extAddr {p : Params} {off : Byte} {j : Nat} (h : off.toNat + j < 256) :
    (extAddr p off j).toNat = p.extPrefix.toNat * 256 + (off.toNat + j) := by
  have hoff : (off + BitVec.ofNat 8 j).toNat = off.toNat + j := by
    rw [BitVec.toNat_add, BitVec.toNat_ofNat, Nat.mod_eq_of_lt (a := j) (by omega)]
    exact Nat.mod_eq_of_lt (by omega)
  rw [extAddr, BitVec.toNat_append, hoff, Nat.shiftLeft_eq, ← Nat.shiftLeft_eq, ← Nat.shiftLeft_add_eq_or_of_lt h,
    Nat.shiftLeft_eq]

theorem offsetIsPrefix_extPrefix {p : Params} (hp : paramsOk p = true) :
    offsetIsPrefix p (p.extPrefix.extractLsb' 0 6) = true := by
  have hbound := extPrefix_of_paramsOk hp
  simp only [offsetIsPrefix, BitVec.extractLsb'_toNat, Nat.shiftRight_zero, beq_iff_eq]
  omega

section device
variable {p : Params} {d : RefDev} {r b : Bool} {off : Byte} {data : List Byte}

/-- A data exchange of an extended access is one of the register at its place (R88, R89). -/
theorem refExchange_ext (hp : paramsOk p = true) (hcur : d.cur = extHeader p r b off ++ data) (out : Byte) :
    refExchange p d out =
      ((refRegData p d r (extAddr p off data.length) out).1,
        { (refRegData p d r (extAddr p off data.length) out).2 with cur := extHeader p r b off ++ (data ++ [out]) }) := by
  simp only [refExchange, hcur, extHeader, List.cons_append, List.nil_append, refAfterHeader, hdrA_hdrByte,
    offsetIsPrefix_extPrefix hp, hdrR_hdrByte, if_true]
  rfl

/-- The two header bytes of an extended access leave the registers as they are. -/
theorem refBytes_extHeader (hp : paramsOk p = true) (hcur : d.cur = []) (r b : Bool) (off : Byte) :
    ∃ b1 b2 e, (∀ rest, refBytes p d (extHeader p r b off ++ rest) = (b1 :: b2 :: (refBytes p e rest).1, (refBytes p e rest).2))
      ∧ e.cur = extHeader p r b off ++ [] ∧ e.regs = d.regs := by
  refine ⟨refStatus p d, refStatus p { d with cur := [hdrByte r b (p.extPrefix.extractLsb' 0 6)], hdrState := some d.state },
    { d with cur := extHeader p r b off ++ [], hdrState := some d.state }, fun rest => ?_, rfl, rfl⟩
  simp only [extHeader, List.cons_append, List.nil_append, refBytes, refExchange, hcur, refAfterHeader, hdrA_hdrByte,
    offsetIsPrefix_extPrefix hp, if_true, List.append_nil]

/-! ### A burst write, then a burst read -/

/-- One data exchange of a write adds its byte to those the registers hold (R89). -/
theorem holds_write {n : Nat} (hrange : PlainRange p off n) (hn : data.length < n) (hwf : Memory.wf d.regs = true)
    (hold : Holds p off d.regs data) (out : Byte) :
    Memory.wf (refWriteReg p d (extAddr p off data.length) out).regs = true
      ∧ Holds p off (refWriteReg p d (extAddr p off data.length) out).regs (data ++ [out]) := by
  have hfits := hrange.fits
  obtain ⟨htx, hrx⟩ := hrange.plain data.length hn
  refine ⟨wf_refWriteReg p hwf _ _, fun j hj => ?_⟩
  have hj' : j < data.length + 1 := by simpa using hj
  rw [refWriteReg, if_neg (not_or.mpr ⟨htx, hrx⟩), memRead_memWrite hwf, toNat_extAddr (by omega), toNat_extAddr (by omega)]
  by_cases hlast : j = data.length
  · subst hlast
    simp
  · rw [if_neg (by omega), List.getD_append _ _ _ _ (by omega), ← hold j (by omega), toNat_extAddr (by omega)]

/-- The data phase of a burst write leaves the registers holding what it sent. -/
theorem holds_refBytes (hp : paramsOk p = true) {n : Nat} (hrange : PlainRange p off n) (bytes : List Byte)
    (hn : data.length + bytes.length ≤ n) (hcur : d.cur = extHeader p false b off ++ data) (hwf : Memory.wf d.regs = true)
    (hold : Holds p off d.regs data) :
    (refBytes p d bytes).2.cur = extHeader p false b off ++ (data ++ bytes)
      ∧ Holds p off (refBytes p d bytes).2.regs (data ++ bytes) := by
  induction bytes generalizing d data with
  | nil =>
    rw [List.append_nil]
    exact ⟨hcur, hold⟩
  | cons out bytes ih =>
    rw [List.length_cons] at hn
    obtain ⟨hwf', hold'⟩ := holds_write hrange (by omega) hwf hold out
    have hex := refExchange_ext hp hcur out
    have hnext := ih (d := (refExchange p d out).2) (data := data ++ [out]) (by rw [List.length_append]; simp; omega)
      (by rw [hex]) (by rw [hex]; exact hwf') (by rw [hex]; exact hold')
    rw [List.append_assoc] at hnext
    exact hnext

/-- The data phase of a burst read returns what the registers hold. -/
theorem refBytes_of_holds (hp : paramsOk p = true) {bytes : List Byte} (hrange : PlainRange p off bytes.length) (k : Nat)
    (hk : data.length + k = bytes.length) (hcur : d.cur = extHeader p true b off ++ data) (hold : Holds p off d.regs bytes) :
    (refBytes p d (List.replicate k 0)).1 = bytes.drop data.length := by
  induction k generalizing d data with
  | zero => rw [List.drop_of_length_le (by omega)]; rfl
  | succ k ih =>
    obtain ⟨htx, hrx⟩ := hrange.plain data.length (by omega)
    have hex := refExchange_ext hp hcur 0
    have hbyte : (refExchange p d 0).1 = bytes.getD data.length 0 := by
      rw [hex]
      change refReadReg p d (extAddr p off data.length) = _
      rw [refReadReg, if_neg htx, if_neg hrx, hold _ (by omega)]
    have hnext := ih (d := (refExchange p d 0).2) (data := data ++ [0]) (by rw [List.length_append]; simp; omega)
      (by rw [hex]) (by rw [hex]; exact hold)
    rw [List.replicate_succ, refBytes, hbyte, hnext, List.length_append, List.getD_eq_getElem _ _ (by omega : data.length < _)]
    exact List.getElem_cons_drop _

/-- The end of an extended access keeps the registers: its bytes are no strobe (R87). -/
theorem regs_refDeselect_ext (hcur : d.cur = extHeader p r b off ++ data) : (refDeselect p d).regs = d.regs :=
  (refDeselect_storage p (by rw [hcur]; rfl)).1

end device

/-- Settles O59: the write leaves the registers holding the bytes, and the read returns them. -/
theorem refDevEchoes : Obligations.RefDevEchoes := by
  unfold Obligations.RefDevEchoes
  intro p d off bytes bw br hp hwf hcur hfits hplain
  have hrange : PlainRange p off bytes.length := ⟨hfits, hplain⟩
  obtain ⟨b1, b2, e, hwrite, hecur, heregs⟩ := refBytes_extHeader hp hcur false bw off
  obtain ⟨hwcur, hold⟩ := holds_refBytes hp hrange bytes (by simp) hecur (by rw [heregs]; exact hwf)
    (fun j hj => absurd hj (Nat.not_lt_zero j))
  have hregs := regs_refDeselect_ext hwcur
  have hd : (refTxn p d (extHeader p false bw off ++ bytes)).2 = refDeselect p (refBytes p e bytes).2 := by
    rw [refTxn, hwrite]
  obtain ⟨c1, c2, g, hread, hgcur, hgregs⟩ := refBytes_extHeader (d := refDeselect p (refBytes p e bytes).2) hp rfl true br off
  have hback := refBytes_of_holds hp hrange bytes.length (by simp) hgcur (by rw [hgregs, hregs]; exact hold)
  rw [hd, refTxn, hread]
  exact hback

end Sys2Proof.Proofs
end

section
/-! SUPPORT. SET_STATE against the reference device (R84 to R96, R172): a strobe's transaction with it, what each strobe leaves of
it, and the `Sequence` run from each kind of chip state. -/

namespace Sys2Proof.Proofs

open Sys2Proof Sys2Proof.Machine Sys2Proof.Laws

/-! ### A strobe's transaction with the reference device -/

section transaction
variable {f : State → Host.Outcome State Fault Refusal} {s : State} {hdr : List Byte} {x : Txn} {n : Nat}
  {mods : Bank ModRegs} {es : List Event} {d : RefDev}

/-- The reference device is ready at the first sample (R85). -/
theorem sample_during_refDev (hf : TakesPrimitives f s hdr) (hx : x.hdr = hdr) (hpos : x.pos = .ready)
    (hn : n < s.cfg.readyMaxSamples) :
    f (during s x n (.refDev d) mods es) = .next
      (during s { x with pos := .hdr } (n + 1) (.refDev d) mods (es ++ [.ready (moduleOf s) true])) := by
  have hanswer : chipSample (during s x n (.refDev d) mods es).hist (moduleOf (during s x n (.refDev d) mods es))
      (bankGet (during s x n (.refDev d) mods es).chips (moduleOf (during s x n (.refDev d) mods es)))
      = (true, .refDev d) := by rw [chip_during]; rfl
  rw [hf x n _ mods es hx, txnStep_ready hpos, readyStep_of_lt rfl hpos hanswer hn]
  simp only [during, moduleOf, bankSet_bankSet_same, List.append_assoc]
  rfl

/-- Its answer to a header byte is its status byte (R86). -/
theorem header_during_refDev {h : Byte} (hf : TakesPrimitives f s [h]) (hx : x.hdr = [h]) (hpos : x.pos = .hdr)
    (hcur : d.cur = []) :
    f (during s x n (.refDev d) s.mods es) = .next
      (during s { x with pos := .data } n (.refDev { d with cur := [h], hdrState := some d.state })
        (modsAfter s (refStatus s.cfg d)) (es ++ [.xfer (moduleOf s) .hdr h (refStatus s.cfg d)])) := by
  have hanswer : chipExchange (during s x n (.refDev d) s.mods es).cfg (during s x n (.refDev d) s.mods es).hist
      (moduleOf (during s x n (.refDev d) s.mods es)) h
      (bankGet (during s x n (.refDev d) s.mods es).chips (moduleOf (during s x n (.refDev d) s.mods es)))
      = (refStatus s.cfg d, .refDev { d with cur := [h], hdrState := some d.state }) := by
    rw [chip_during, chipExchange_refDev, refExchange, hcur]
    rfl
  rw [hf x n _ s.mods es hx, txnStep_hdr hpos, headerStep_of_answer x [] (low_during s x n _ s.mods es) hanswer]
  simp only [during, modsAfter, moduleOf, bankSet_bankSet_same, List.append_assoc]
  rfl

end transaction

/-- The reference device after the whole transaction of the byte `h` (R87, R91, R92). -/
def afterByte (p : Params) (d : RefDev) (h : Byte) : RefDev := refDeselect p { d with cur := [h], hdrState := some d.state }

/-- `v` is what the transaction of one strobe of the command `i`, begun at `u` for place `c`, left when the device `d` answered
it. -/
structure AfterStrobe (i : Instr) (u : State) (q : Strobe) (c : Cont) (d : RefDev) (v : State) : Prop where
  going : Going i v
  place : AtPlace c v
  between : v.seq.txn = none
  iter : v.seq.iter = u.seq.iter
  csr : v.csr = u.csr
  cfg : v.cfg = u.cfg
  status : (modRegs v (moduleOf v)).lastStatus = refStatus u.cfg d
  chip : bankGet v.chips (moduleOf v) = .refDev (afterByte u.cfg d (u.cfg.strobeCode q))

theorem reaches_refStrobe {i : Instr} {s u : State} {q : Strobe} {c : Cont} {d : RefDev} (h : Going i u)
    (hfirst : step s = beginTxn (wireStrobe q) c u) (hsamples : 0 < u.cfg.readyMaxSamples)
    (hchip : bankGet u.chips (moduleOf u) = .refDev d) (hcur : d.cur = []) :
    ∃ v, Reaches step 4 s v ∧ AfterStrobe i u q c d v := by
  have hf : TakesPrimitives step { u with seq := { u.seq with cont := c } } [u.cfg.strobeCode q] := by
    have hdec := headerDecodes_wireStrobe h.params q
    rw [HeaderDecodes, codeBytes_wireStrobe] at hdec
    exact step_takesPrimitives (s := { u with seq := { u.seq with cont := c } }) h.params h.agenda h.phase hdec
  rw [beginTxn_of_high h.high, begunState_eq_during h.high, hchip, codeBytes_wireStrobe, wireData_wireStrobe] at hfirst
  have hsample := sample_during_refDev (x := ⟨[u.cfg.strobeCode q], [], wireKeep (wireStrobe q), [], .ready⟩) (n := 0) (d := d)
    (mods := u.mods) (es := [.cs (moduleOf u) false]) hf rfl rfl hsamples
  have hheader := header_during_refDev (x := ⟨[u.cfg.strobeCode q], [], wireKeep (wireStrobe q), [], .hdr⟩) (n := 1) (d := d)
    (es := [.cs (moduleOf u) false] ++ [.ready (moduleOf u) true]) hf rfl rfl hcur
  have hend := deselect_during (x := ⟨[u.cfg.strobeCode q], [], wireKeep (wireStrobe q), [], .data⟩) (n := 1)
    (c := .refDev { d with cur := [u.cfg.strobeCode q], hdrState := some d.state })
    (mods := modsAfter { u with seq := { u.seq with cont := c } } (refStatus u.cfg d))
    (es := [.cs (moduleOf u) false] ++ [.ready (moduleOf u) true]
      ++ [.xfer (moduleOf u) .hdr (u.cfg.strobeCode q) (refStatus u.cfg d)]) hf rfl rfl rfl
  refine ⟨_, .next hfirst (.next hsample (.next hheader (.one hend))), h.afterTxn _ _ _ _ _ _, ⟨h.phase, rfl, rfl⟩, rfl, rfl,
    rfl, rfl, lastStatus_of_modsAfter (u := u) rfl rfl, bankGet_bankSet_same _ _ _⟩

/-! ### What a strobe leaves of the reference device, by default parameters -/

theorem refTxnStrobe_default (q : Strobe) : refTxnStrobe {} [({} : Params).strobeCode q] = some q := by
  cases q <;> decide

theorem afterByte_default (d : RefDev) (q : Strobe) :
    afterByte {} d (({} : Params).strobeCode q) =
      { refStrobe (refTick { d with cur := [({} : Params).strobeCode q], hdrState := some d.state }) q with
        cur := [], hdrState := none } := by
  rw [afterByte, refDeselect, refTxnStrobe_default]

/-- The states the chip stays in without a strobe (R46). -/
def isStable : ChipState → Bool
  | .idle | .rx | .tx | .fstxon => true
  | _ => false

theorem stable_cases {c : ChipState} (h : isStable c = true) : c = .idle ∨ c = .rx ∨ c = .tx ∨ c = .fstxon := by
  cases c <;> simp_all [isStable]

theorem isTransient_of_stable {c : ChipState} (h : isStable c = true) : isTransient c = false := by
  rcases stable_cases h with rfl | rfl | rfl | rfl <;> rfl

theorem transient_cases {c : ChipState} (h : isTransient c = true) : c = .calibrate ∨ c = .settling := by
  cases c <;> simp_all [isTransient]

/-- No target is a transient state (R104). -/
theorem ne_target_of_transient {c : ChipState} (h : isTransient c = true) (g : Target) : c ≠ targetState g := by
  rcases transient_cases h with rfl | rfl <;> cases g <;> exact ChipState.noConfusion

/-- A poll outside the transient states leaves the state (R91, R92). -/
theorem state_poll_of_settled {d : RefDev} (h : isTransient d.state = false) :
    (afterByte {} d (({} : Params).strobeCode .snop)).state = d.state := by
  rw [afterByte_default]
  simp [refStrobe, refTick, h]

/-- R91's table where the state sequencer uses it: away from its target, the target's strobe in a stable state. -/
theorem state_refStrobe_of_stable {d : RefDev} {g : Target} (h : isStable d.state = true) (hne : d.state ≠ targetState g) :
    (refStrobe d (strobeFor g)).state = targetState g := by
  cases g with
  | idle => cases hs : d.state <;> simp_all [refStrobe, strobeFor, targetState, isStable]
  | rx => cases hs : d.state <;> simp_all [refStrobe, strobeFor, targetState, isStable]
  | tx =>
    cases hf : d.txfifo <;> cases hs : d.state <;> simp_all [refStrobe, strobeFor, targetState, isStable]
  | fstxon => cases hs : d.state <;> simp_all [refStrobe, strobeFor, targetState, isStable]

theorem state_strobe_of_stable {d : RefDev} {g : Target} (h : isStable d.state = true) (hne : d.state ≠ targetState g) :
    (afterByte {} d (({} : Params).strobeCode (strobeFor g))).state = targetState g := by
  rw [afterByte_default]
  simp only [refTick, isTransient_of_stable h]
  exact state_refStrobe_of_stable h hne

/-- The flush of the error state that the chip is in leads to IDLE (R91, R173). -/
theorem state_flush_rx {d : RefDev} (h : d.state = .rxFifoErr) :
    (afterByte {} d (({} : Params).strobeCode .sfrx)).state = .idle := by
  rw [afterByte_default]
  simp [refStrobe, refTick, h, isTransient]

theorem state_flush_tx {d : RefDev} (h : d.state = .txFifoErr) :
    (afterByte {} d (({} : Params).strobeCode .sftx)).state = .idle := by
  rw [afterByte_default]
  simp [refStrobe, refTick, h, isTransient]

/-- A poll in a transient state counts down, and at the end leads to the next state (R92). -/
theorem poll_of_transient {d : RefDev} (h : isTransient d.state = true) :
    (afterByte {} d (({} : Params).strobeCode .snop)).tnext = d.tnext
      ∧ (afterByte {} d (({} : Params).strobeCode .snop)).tleft = d.tleft - 1
      ∧ (afterByte {} d (({} : Params).strobeCode .snop)).state = if d.tleft - 1 = 0 then d.tnext else d.state := by
  rw [afterByte_default]
  by_cases hz : d.tleft - 1 = 0 <;> simp [refStrobe, refTick, h, hz]

/-! ### The places of SET_STATE's loop -/

/-- After the poll at iteration `n` of SET_STATE, by default parameters with MAX_POLLS = `m`; the chip was `d` before the poll. -/
structure Polled (g : Target) (m n : Nat) (d : RefDev) (v : State) : Prop where
  going : Going (setStateInstr g) v
  place : AtPlace (.polled .setState) v
  between : v.seq.txn = none
  cfg : v.cfg = {}
  maxPolls : v.csr.maxPolls.toNat = m
  iter : v.seq.iter.toNat = n
  lastPolls : v.csr.lastPolls.toNat = n
  status : (modRegs v (moduleOf v)).lastStatus = refStatus {} d
  chip : bankGet v.chips (moduleOf v) = .refDev (afterByte {} d (({} : Params).strobeCode .snop))

/-- After the action of iteration `n`, with the chip `d`. -/
structure Acted (g : Target) (m n : Nat) (d : RefDev) (v : State) : Prop where
  going : Going (setStateInstr g) v
  place : AtPlace (.acted .setState) v
  between : v.seq.txn = none
  cfg : v.cfg = {}
  maxPolls : v.csr.maxPolls.toNat = m
  iter : v.seq.iter.toNat = n
  chip : bankGet v.chips (moduleOf v) = .refDev d
  cur : d.cur = []

/-- The command ends in its target after at most `n` iterations. -/
def EndsInTarget (g : Target) (n : Nat) (v : State) : Prop :=
  ∃ k t, Reaches step k v t ∧ t.csr.busy = false ∧ t.csr.done = true ∧ t.csr.result = .ok ∧ t.csr.lastPolls.toNat ≤ n
    ∧ polledIs t (targetState g) = true

theorem EndsInTarget.of_reaches {g : Target} {n k : Nat} {u v : State} (h : Reaches step k u v) (hv : EndsInTarget g n v) :
    EndsInTarget g n u := by
  obtain ⟨k', t, hrun, ht⟩ := hv
  exact ⟨k + k', t, h.trans hrun, ht⟩

theorem EndsInTarget.mono {g : Target} {n n' : Nat} {v : State} (h : EndsInTarget g n v) (hn : n ≤ n') :
    EndsInTarget g n' v := by
  obtain ⟨k, t, hrun, hbusy, hdone, hresult, hpolls, hpolled⟩ := h
  exact ⟨k, t, hrun, hbusy, hdone, hresult, hpolls.trans hn, hpolled⟩

theorem stateIs_shifted_stateCode : ∀ c c' : ChipState,
    stateIs {} ((({} : Params).stateCode c).setWidth 8 <<< ({} : Params).stateLo) c' = decide (c' = c) := by
  intro c c'
  cases c <;> cases c' <;> decide

/-- By default parameters a status byte of the reference device shows its state alone (R46, R86). -/
theorem stateIs_refStatus (d : RefDev) (c : ChipState) : stateIs {} (refStatus {} d) c = decide (c = d.state) :=
  stateIs_shifted_stateCode d.state c

section polled
variable {g : Target} {m n : Nat} {d : RefDev} {v : State}

theorem Polled.polledIs_eq (h : Polled g m n d v) (c : ChipState) : polledIs v c = decide (c = d.state) := by
  rw [polledIs, h.status, h.cfg, stateIs_refStatus]

theorem Polled.row (h : Polled g m n d v) : polledRow v = d.state := by
  have hmem : d.state ∈ polledStates v := mem_polledStates.mpr (by rw [h.polledIs_eq]; exact decide_eq_true rfl)
  have hrow := polledIs_polledRow (List.ne_nil_of_mem hmem)
  rw [h.polledIs_eq] at hrow
  exact of_decide_eq_true hrow

theorem Polled.away (h : Polled g m n d v) (hne : d.state ≠ targetState g) : polledIs v (targetState g) = false := by
  rw [h.polledIs_eq]
  exact decide_eq_false (Ne.symm hne)

theorem Polled.below (h : Polled g m n d v) (hn : n < m) : v.seq.iter ≠ v.csr.maxPolls := by
  intro heq
  have := h.iter.symm.trans ((congrArg BitVec.toNat heq).trans h.maxPolls)
  omega

/-- In the target the command ends with OK (R171). -/
theorem Polled.ends (h : Polled g m n d v) (hd : d.state = targetState g) : EndsInTarget g n v := by
  have hp : polledIs v (targetState g) = true := by rw [h.polledIs_eq]; exact decide_eq_true hd.symm
  obtain ⟨t, hexec, hdone, -, hregs⟩ := setStateCompletes g v h.place hp
  have hmod : moduleOf t = moduleOf v := by rw [moduleOf, hdone.csr]; rfl
  refine ⟨1, t, .one (by rw [h.going.step_eq h.between, hexec]), by rw [hdone.csr], by rw [hdone.csr], by rw [hdone.csr],
    by rw [hdone.csr]; exact h.lastPolls.le, ?_⟩
  rw [polledIs, hmod, hregs, hdone.cfg]
  exact hp

/-- A strobe below the deadline (R172). -/
theorem Polled.strobe (h : Polled g m n d v) (hne : d.state ≠ targetState g) (hn : n < m) {q : Strobe}
    (hact : act d.state g = .strobe q) :
    ∃ u, Reaches step 4 v u
      ∧ Acted g m n (afterByte {} (afterByte {} d (({} : Params).strobeCode .snop)) (({} : Params).strobeCode q)) u := by
  have hstep : step v = beginTxn (wireStrobe q) (.acted .setState) v := by
    obtain ⟨done, hexec⟩ := exec_of_polled (seqTarget_setStateInstr g) h.place
    rw [h.going.step_eq h.between, hexec, afterPoll_of_act_strobe (h.away hne) (h.below hn) (by rw [h.row]; exact hact)]
  obtain ⟨u, hrun, hu⟩ := reaches_refStrobe h.going hstep (by rw [h.cfg]; decide) h.chip rfl
  have hchip := hu.chip
  rw [h.cfg] at hchip
  exact ⟨u, hrun, hu.going, hu.place, hu.between, hu.cfg.trans h.cfg, by rw [hu.csr]; exact h.maxPolls,
    by rw [hu.iter]; exact h.iter, hchip, rfl⟩

/-- A settle wait below the deadline (R175). -/
theorem Polled.wait (h : Polled g m n d v) (hne : d.state ≠ targetState g) (hn : n < m) (hact : act d.state g = .wait) :
    ∃ u, Reaches step 1 v u ∧ Acted g m n (afterByte {} d (({} : Params).strobeCode .snop)) u := by
  have hstep := exec_of_act_wait (seqTarget_setStateInstr g) h.place (h.away hne) (h.below hn) (by rw [h.row]; exact hact)
  rw [← h.going.step_eq h.between] at hstep
  exact ⟨_, .one hstep, ⟨h.going.params, h.going.agenda, h.going.phase, h.going.high, h.going.row⟩,
    ⟨h.place.phase, rfl, h.place.selects⟩, h.between, h.cfg, h.maxPolls, h.iter, h.chip, rfl⟩

/-- The next iteration's poll (R172). -/
theorem Acted.poll (h : Acted g m n d v) (hn : n < m) : ∃ u, Reaches step 4 v u ∧ Polled g m (n + 1) d u := by
  have hlt : v.seq.iter < v.csr.maxPolls := by rw [BitVec.lt_def, h.iter, h.maxPolls]; exact hn
  have hiter : (v.seq.iter + 1).toNat = n + 1 := by rw [toNat_iter_succ hlt, h.iter]
  have hstep := exec_of_acted (seqTarget_setStateInstr g) h.place
  rw [← h.going.step_eq h.between, afterAction, beginPoll] at hstep
  obtain ⟨u, hrun, hu⟩ := reaches_refStrobe
    (u := { v with seq := { v.seq with iter := v.seq.iter + 1 }, csr := { v.csr with lastPolls := v.seq.iter + 1 } })
    ⟨h.going.params, h.going.agenda, h.going.phase, h.going.high, h.going.row⟩ hstep
    (show 0 < v.cfg.readyMaxSamples by rw [h.cfg]; decide) h.chip h.cur
  have hchip := hu.chip
  have hstatus := hu.status
  simp only [h.cfg] at hchip hstatus
  exact ⟨u, hrun, hu.going, hu.place, hu.between, hu.cfg.trans h.cfg, by rw [hu.csr]; exact h.maxPolls,
    by rw [hu.iter]; exact hiter, by rw [hu.csr]; exact hiter, hstatus, hchip⟩

/-! ### The loop from each kind of chip state (R96, R180) -/

/-- From a stable state: done, or one strobe. -/
theorem Polled.ends_of_stable (h : Polled g m n d v) (hd : isStable d.state = true) (hn : n + 1 ≤ m) :
    EndsInTarget g (n + 1) v := by
  by_cases htarget : d.state = targetState g
  · exact (h.ends htarget).mono (by omega)
  · have hpoll := state_poll_of_settled (isTransient_of_stable hd)
    obtain ⟨u, hrun, hu⟩ := h.strobe htarget hn (act_of_stable (stable_cases hd) g)
    obtain ⟨w, hrun', hw⟩ := hu.poll hn
    have hends := hw.ends (state_strobe_of_stable (by rw [hpoll]; exact hd) (by rw [hpoll]; exact htarget))
    exact .of_reaches (hrun.trans hrun') hends

/-- From an error state: the flush, then as from IDLE. -/
theorem Polled.ends_of_error (h : Polled g m n d v) (hd : d.state = .rxFifoErr ∨ d.state = .txFifoErr) (hn : n + 2 ≤ m) :
    EndsInTarget g (n + 2) v := by
  have hflush : ∃ q, act d.state g = .strobe q
      ∧ (afterByte {} (afterByte {} d (({} : Params).strobeCode .snop)) (({} : Params).strobeCode q)).state = .idle := by
    rcases hd with hrx | htx
    · have hpoll := state_poll_of_settled (d := d) (by rw [hrx]; rfl)
      exact ⟨.sfrx, by rw [hrx]; rfl, state_flush_rx (hpoll.trans hrx)⟩
    · have hpoll := state_poll_of_settled (d := d) (by rw [htx]; rfl)
      exact ⟨.sftx, by rw [htx]; rfl, state_flush_tx (hpoll.trans htx)⟩
  have hne : d.state ≠ targetState g := by
    rcases hd with h | h <;> rw [h] <;> cases g <;> exact ChipState.noConfusion
  obtain ⟨q, hact, hidle⟩ := hflush
  obtain ⟨u, hrun, hu⟩ := h.strobe hne (by omega) hact
  obtain ⟨w, hrun', hw⟩ := hu.poll (by omega)
  exact .of_reaches (hrun.trans hrun') (hw.ends_of_stable (by rw [hidle]; rfl) hn)

/-- From a transient state: settle waits until the chip is in IDLE, which `tleft` polls, and one at least, bring about (R92). -/
theorem Polled.ends_of_transient (h : Polled g m n d v) (hd : isTransient d.state = true) (hnext : d.tnext = .idle)
    (hn : n + (d.tleft - 1) + 2 ≤ m) : EndsInTarget g (n + (d.tleft - 1) + 2) v := by
  generalize hleft : d.tleft - 1 = l at hn ⊢
  induction l generalizing n d v with
  | zero =>
    obtain ⟨u, hrun, hu⟩ := h.wait (ne_target_of_transient hd g) (by omega) (act_of_transient (transient_cases hd) g)
    obtain ⟨w, hrun', hw⟩ := hu.poll (by omega)
    have hidle := (poll_of_transient hd).2.2.trans ((if_pos hleft).trans hnext)
    exact .of_reaches (hrun.trans hrun') (hw.ends_of_stable (by rw [hidle]; rfl) hn)
  | succ l ih =>
    obtain ⟨u, hrun, hu⟩ := h.wait (ne_target_of_transient hd g) (by omega) (act_of_transient (transient_cases hd) g)
    obtain ⟨w, hrun', hw⟩ := hu.poll (by omega)
    obtain ⟨hnext', hleft', hstate'⟩ := poll_of_transient hd
    have hsame := hstate'.trans (if_neg (by omega))
    have hends := ih hw (by rw [hsame]; exact hd) (hnext'.trans hnext) (by rw [hleft', hleft]; rfl) (by omega)
    exact .of_reaches (hrun.trans hrun') (hends.mono (by omega))

/-- From any of the eight states (R46). -/
theorem Polled.ends_of_polled (h : Polled g m n d v) (hnext : d.tnext = .idle) (hn : n + max 2 (d.tleft + 1) ≤ m) :
    EndsInTarget g (n + max 2 (d.tleft + 1)) v := by
  cases hd : d.state with
  | idle | rx | tx | fstxon => exact (h.ends_of_stable (by rw [hd]; rfl) (by omega)).mono (by omega)
  | rxFifoErr => exact (h.ends_of_error (.inl hd) (by omega)).mono (by omega)
  | txFifoErr => exact (h.ends_of_error (.inr hd) (by omega)).mono (by omega)
  | calibrate | settling => exact (h.ends_of_transient (by rw [hd]; rfl) hnext (by omega)).mono (by omega)

end polled

/-- Settles O60: CHECK and the first poll, then the loop by the kind of the state that was polled. -/
theorem setStateReachesTarget : Obligations.SetStateReachesTarget := by
  unfold Obligations.SetStateReachesTarget
  intro g s d w hi hcfg hb ha hw hchip hcur hnext hmax
  have hd : decode s.cfg (.cmd w) = .ok (setStateInstr g) := by
    rw [← hw]
    exact decodeInvertsEncode s.cfg _ hi.params (wellFormed_of_isCommand (isCommand_setStateInstr g) _)
  have hmod : s.csr.mod.toNat < s.cfg.nModules := by rw [hcfg]; exact s.csr.mod.isLt
  obtain ⟨hcheck, hgo⟩ := reaches_started hi hb ha hd
    (by rw [checkOf_moduleOnly (.inr (.inl ⟨g, rfl⟩)), checkModuleOnly_of_lt (by exact hmod)])
  have hfirst : step (started w s) = beginSequence .setState (started w s) := by
    rw [hgo.step_eq rfl, exec_setState_start ⟨rfl, rfl, hgo.high⟩]
  obtain ⟨v, hrun, hv⟩ := reaches_refStrobe (s := started w s)
    (u := { started w s with seq := { (started w s).seq with iter := 0 }, csr := { (started w s).csr with lastPolls := 0 } })
    ⟨hgo.params, hgo.agenda, hgo.phase, hgo.high, hgo.row⟩ hfirst (show 0 < s.cfg.readyMaxSamples by rw [hcfg]; decide)
    hchip hcur
  have hpolled : Polled g s.csr.maxPolls.toNat 0 d v := by
    have hchip' := hv.chip
    have hstatus := hv.status
    have hcfg' : v.cfg = {} := hv.cfg.trans hcfg
    rw [← hv.cfg, hcfg'] at hchip' hstatus
    exact ⟨hv.going, hv.place, hv.between, hcfg', by rw [hv.csr]; rfl, by rw [hv.iter]; rfl, by rw [hv.csr]; rfl,
      hstatus, hchip'⟩
  have hends := hpolled.ends_of_polled hnext (by rw [Nat.zero_add]; exact hmax)
  rw [Nat.zero_add] at hends
  obtain ⟨k, t, hreach, ht⟩ := EndsInTarget.of_reaches (hcheck.trans hrun) hends
  exact ⟨k, t, hreach.runSteps, ht⟩

end Sys2Proof.Proofs
end

section
/-! SUPPORT. Bounded completion (R179, R221): what is left of a running command is counted by the places of its pseudocode, in
transactions to begin, bytes to send and primitives of the transaction in progress. Every step spends of it, so the command ends. -/

namespace Sys2Proof.Proofs

open Sys2Proof Sys2Proof.Machine Sys2Proof.Laws

/-! ### What is left of a running command -/

/-- Transactions after the `Sequence` run `r`, with MAX_POLLS = `m` (R171, R190). -/
def afterRun (m : Nat) : SeqRun → Nat
  | .setState => 0
  | .txIdle => 4 * m + 4
  | .txReady => 2 * m + 2
  | .txSend => 0

/-- Transactions of a whole command, at most. -/
def ofWhole (i : Instr) (m : Nat) : Nat :=
  match i with
  | .regWriteVerify _ => 2
  | .setStateIdle | .setStateRx | .setStateTx | .setStateFstxon => 1 + 2 * m
  | .txFrame _ => 6 * m + 6
  | .rxFrame _ => 4
  | _ => 1

/-- Transactions still to begin at place `c`, at most, where `n` is the iteration count. -/
def transactionsAt (i : Instr) (c : Cont) (m n : Nat) : Nat :=
  match c with
  | .start => ofWhole i m
  | .verifyWritten => 1
  | .polled r => 2 * (m - n) + afterRun m r
  | .acted r => 2 * (m - n) - 1 + afterRun m r
  | .txCounted => 6 * m + 5
  | .txFlushed => 4 * m + 3
  | .txWritten => 2 * m + 1
  | .rxCounted => 3
  | .rxPolled => 2
  | .rxFlushed => 1
  | _ => 0

/-- Data bytes of a whole command, at most; `len` is LEN, 1 at least, and `depth` FIFO_DEPTH. -/
def bytesOfWhole (i : Instr) (len depth : Nat) : Nat :=
  match i with
  | .regRead _ | .regWrite _ => len
  | .regWriteVerify _ => 2 * len
  | .txFrame _ => len + 3
  | .rxFrame _ => depth + 1
  | _ => 0

/-- Data bytes that transactions still to begin at place `c` send, at most. -/
def bytesAt (i : Instr) (c : Cont) (len depth : Nat) : Nat :=
  match c with
  | .start => bytesOfWhole i len depth
  | .verifyWritten => len
  | .polled .txIdle | .acted .txIdle | .polled .txReady | .acted .txReady | .txCounted | .txFlushed => len + 2
  | .rxCounted | .rxPolled => depth
  | _ => 0

def toBegin (i : Instr) (s : State) : Nat := transactionsAt i s.seq.cont s.csr.maxPolls.toNat s.seq.iter.toNat

def toSend (i : Instr) (s : State) : Nat := bytesAt i s.seq.cont (max 1 s.csr.len.toNat) s.cfg.fifoDepth

/-- Steps left of a transaction in progress; `r` is READY_MAX_SAMPLES and `n` the samples taken. -/
def txnSteps (r n : Nat) : Option Txn → Nat
  | none => 0
  | some x =>
    match x.pos with
    | .select => r + 4 + x.out.length
    | .ready => r - n + 3 + x.out.length
    | .hdr => 3 + x.out.length
    | .addr2 => 2 + x.out.length
    | .data => 1 + x.out.length

/-- Ready samples left of a transaction in progress. -/
def txnSamples (r n : Nat) : Option Txn → Nat
  | none => 0
  | some x =>
    match x.pos with
    | .select => r
    | .ready => r - n
    | _ => 0

/-- Whether a transaction in progress has still to select its module. -/
def txnSelects : Option Txn → Nat
  | none => 0
  | some x => if x.pos = .select then 1 else 0

/-- Steps left, completion counted. -/
def stepsLeft (i : Instr) (s : State) : Nat :=
  toBegin i s * (s.cfg.readyMaxSamples + 4) + toSend i s + txnSteps s.cfg.readyMaxSamples s.seq.samples s.seq.txn + 1

def selectsLeft (i : Instr) (s : State) : Nat := toBegin i s + txnSelects s.seq.txn

/-- Settle waits left: each comes before a poll. -/
def waitsLeft (i : Instr) (s : State) : Nat := toBegin i s / 2

def samplesLeft (i : Instr) (s : State) : Nat :=
  toBegin i s * s.cfg.readyMaxSamples + txnSamples s.cfg.readyMaxSamples s.seq.samples s.seq.txn

/-- A step from `s` to `u` that goes on with the command and records `e`: what it spends. -/
structure Spends (i : Instr) (s u : State) (e : Event) : Prop where
  hist : u.hist = s.hist ++ [e]
  goes : ∀ c, e ≠ .done c
  steps : stepsLeft i u < stepsLeft i s
  selects : countEvents isSelect [e] + selectsLeft i u ≤ selectsLeft i s
  waits : countEvents isWait [e] + waitsLeft i u ≤ waitsLeft i s
  samples : countEvents isSample [e] + samplesLeft i u ≤ samplesLeft i s

/-! ### A transaction begins -/

theorem ofWhole_strobeInstr (k : Strobe) (m : Nat) : ofWhole (strobeInstr k) m = 1 := by cases k <;> rfl

theorem ofWhole_setStateInstr (g : Target) (m : Nat) : ofWhole (setStateInstr g) m = 1 + 2 * m := by cases g <;> rfl

/-- A transaction begun is one of those still to begin. -/
theorem Begins.one_less {i j : Instr} {s v : State} {c : Cont} (h : Begins i s j c v) (hs : Machine.pollsSound s = true) :
    transactionsAt i c v.csr.maxPolls.toNat v.seq.iter.toNat + 1 ≤ toBegin i s := by
  obtain ⟨hle, -, hacted⟩ := (pollsSound_iff s).mp hs
  rw [BitVec.le_def] at hle
  unfold toBegin
  cases h with
  | read a row place | write a row place | verifyWrite a row place | verifyRead a row place | txCount a row place
    | rxCount a row place | txFlush a row place | txWrite a row place | rxFlush a row place | rxRearm a row place
    | rxRead a row place =>
    subst row
    simp only [transactionsAt, ofWhole, afterRun, place]
    omega
  | strobe k row place => simp only [place, transactionsAt, row, ofWhole_strobeInstr]; omega
  | setState g row place =>
    simp only [place, transactionsAt, row, ofWhole_setStateInstr, afterRun, sequenceStart]
    omega
  | acts r g k run place below =>
    have hlt : s.seq.iter.toNat < s.csr.maxPolls.toNat :=
      lt_of_le_of_ne hle fun he => below (BitVec.eq_of_toNat_eq he)
    simp only [place, transactionsAt]
    omega
  | pollsAgain r g run place =>
    have hlt := (hacted r place).2
    have hiter := toNat_iter_succ hlt
    rw [BitVec.lt_def] at hlt
    simp only [place, transactionsAt, sequenceAgain, hiter]
    omega
  | txIdle a row place | txSend a row place =>
    simp only [place, transactionsAt, afterRun, sequenceStart]
    omega
  | txReady a row place =>
    rcases place with place | place <;> simp only [place, transactionsAt, afterRun, sequenceStart] <;> omega
  | rxPoll a row place => simp only [place, transactionsAt]; omega

/-- Its data bytes are among those still to send. -/
theorem Begins.bytes_less {i j : Instr} {s v : State} {c : Cont} (h : Begins i s j c v) :
    bytesAt i c (max 1 s.csr.len.toNat) s.cfg.fifoDepth + (wireData j v).length ≤ toSend i s := by
  have hsize : (if burst (lenOperand s) then lenOperand s else 1) ≤ max 1 s.csr.len.toNat := by
    unfold lenOperand
    split_ifs <;> omega
  unfold toSend
  cases h with
  | read a row place | write a row place | verifyWrite a row place | verifyRead a row place =>
    subst row
    simp only [place, bytesAt, bytesOfWhole, wireData_regHeader, Bool.false_eq_true, if_true, if_false, List.length_replicate,
      length_dbufTake]
    omega
  | txCount a row place | rxCount a row place =>
    subst row
    simp only [place, bytesAt, bytesOfWhole, wireData_regHeader, Bool.false_eq_true, if_true, if_false, List.length_replicate]
    omega
  | txWrite a row place =>
    have hlen := length_wireData_txFifo s
    simp only [place, bytesAt]
    omega
  | rxRead a row place fits =>
    have hlen : (wireData .wireRxFifoBurstRead s).length = s.csr.rxCount.toNat := List.length_replicate
    simp only [place, bytesAt]
    omega
  | acts r g k run place | pollsAgain r g run place =>
    cases r <;> simp only [place, bytesAt, wireData_wireStrobe, List.length_nil] <;> omega
  | txReady a row place =>
    rcases place with place | place <;> simp only [place, bytesAt, wireData_wireStrobe, List.length_nil] <;> omega
  | strobe k row place | setState k row place | txIdle a row place | txSend a row place | txFlush a row place
    | rxPoll a row place | rxFlush a row place | rxRearm a row place =>
    simp only [place, bytesAt, wireData_wireStrobe, List.length_nil]
    omega

/-! ### What each step spends -/

theorem Begins.spends {i j : Instr} {s v : State} {c : Cont} (h : Begins i s j c v) (hs : Machine.pollsSound s = true)
    (hn : s.seq.txn = none) : Spends i s (begunState j c v) (.cs (moduleOf v) false) := by
  have hbegin : toBegin i (begunState j c v) + 1 ≤ toBegin i s := h.one_less hs
  have hsend := h.bytes_less
  have hlen : v.csr.len = s.csr.len := h.csrsKept.operandsKept.len
  have hcfg : v.cfg = s.cfg := h.sameBus.cfg
  have hsend' : toSend i (begunState j c v) + (wireData j v).length ≤ toSend i s := by
    change bytesAt i c (max 1 v.csr.len.toNat) v.cfg.fifoDepth + _ ≤ _
    rw [hlen, hcfg]
    exact hsend
  have hsteps := Nat.mul_le_mul_right (s.cfg.readyMaxSamples + 4) hbegin
  have hsamples := Nat.mul_le_mul_right s.cfg.readyMaxSamples hbegin
  rw [Nat.add_mul, Nat.one_mul] at hsteps hsamples
  refine ⟨congrArg (· ++ [_]) h.sameBus.hist, by simp, ?_, ?_, ?_, ?_⟩
  · rw [stepsLeft, stepsLeft, hn]
    change toBegin i (begunState j c v) * (v.cfg.readyMaxSamples + 4) + toSend i (begunState j c v)
      + (v.cfg.readyMaxSamples - 0 + 3 + (wireData j v).length) + 1 < _ + _ + 0 + 1
    rw [hcfg]
    omega
  · rw [selectsLeft, selectsLeft, hn]
    change 1 + (toBegin i (begunState j c v) + 0) ≤ _ + 0
    omega
  · change 0 + toBegin i (begunState j c v) / 2 ≤ toBegin i s / 2
    omega
  · rw [samplesLeft, samplesLeft, hn]
    change 0 + (toBegin i (begunState j c v) * v.cfg.readyMaxSamples + (v.cfg.readyMaxSamples - 0)) ≤ _ + 0
    rw [hcfg]
    omega

/-- A settle wait takes the place of an iteration's strobe (R172, R175). -/
theorem spends_of_wait {i : Instr} {r : SeqRun} {s u : State} (hs : Machine.pollsSound s = true) (hn : s.seq.txn = none)
    (place : s.seq.cont = .polled r) (below : s.seq.iter ≠ s.csr.maxPolls) (hist : u.hist = s.hist ++ [.wait])
    (hcfg : u.cfg = s.cfg) (hcsr : u.csr = s.csr) (hseq : u.seq = { s.seq with cont := .acted r }) : Spends i s u .wait := by
  have hle := ((pollsSound_iff s).mp hs).1
  rw [BitVec.le_def] at hle
  have hlt : s.seq.iter.toNat < s.csr.maxPolls.toNat := lt_of_le_of_ne hle fun he => below (BitVec.eq_of_toNat_eq he)
  have htxn : u.seq.txn = none := by rw [hseq]; exact hn
  have hbegin : toBegin i u + 1 = toBegin i s := by
    simp only [toBegin, transactionsAt, place, hseq, hcsr]
    omega
  have heven : toBegin i s % 2 = 0 := by
    simp only [toBegin, transactionsAt, place]
    cases r <;> simp only [afterRun] <;> omega
  have hsend : toSend i u = toSend i s := by
    simp only [toSend, place, hseq, hcsr, hcfg]
    cases r <;> rfl
  have hsteps := congrArg (· * (s.cfg.readyMaxSamples + 4)) hbegin
  have hsamples := congrArg (· * s.cfg.readyMaxSamples) hbegin
  simp only [Nat.add_mul, Nat.one_mul] at hsteps hsamples
  refine ⟨hist, by simp, ?_, ?_, ?_, ?_⟩
  · simp only [stepsLeft, hsend, hcfg, htxn, hn, txnSteps]
    omega
  · simp only [selectsLeft, htxn, hn, txnSelects]
    change 0 + _ ≤ _
    omega
  · rw [waitsLeft, waitsLeft]
    change 1 + _ ≤ _
    omega
  · simp only [samplesLeft, hcfg, htxn, hn, txnSamples]
    change 0 + _ ≤ _
    omega

/-- A primitive that goes on spends of the transaction in progress only. -/
theorem spends_of_txn {i : Instr} {s u : State} {e : Event} (hist : u.hist = s.hist ++ [e]) (goes : ∀ c, e ≠ .done c)
    (wait : isWait e = false) (hcfg : u.cfg = s.cfg) (hcsr : u.csr = s.csr) (hcont : u.seq.cont = s.seq.cont)
    (hiter : u.seq.iter = s.seq.iter)
    (steps : txnSteps s.cfg.readyMaxSamples u.seq.samples u.seq.txn < txnSteps s.cfg.readyMaxSamples s.seq.samples s.seq.txn)
    (selects : countEvents isSelect [e] + txnSelects u.seq.txn ≤ txnSelects s.seq.txn)
    (samples : countEvents isSample [e] + txnSamples s.cfg.readyMaxSamples u.seq.samples u.seq.txn
      ≤ txnSamples s.cfg.readyMaxSamples s.seq.samples s.seq.txn) : Spends i s u e := by
  have hbegin : toBegin i u = toBegin i s := by rw [toBegin, toBegin, hcsr, hcont, hiter]
  have hsend : toSend i u = toSend i s := by rw [toSend, toSend, hcsr, hcfg, hcont]
  refine ⟨hist, goes, ?_, ?_, ?_, ?_⟩
  · rw [stepsLeft, stepsLeft, hbegin, hsend, hcfg]
    omega
  · rw [selectsLeft, selectsLeft, hbegin]
    omega
  · rw [waitsLeft, waitsLeft, hbegin, countEvents, List.filter_singleton, wait]
    exact (Nat.zero_add _).le
  · rw [samplesLeft, samplesLeft, hbegin, hcfg]
    omega

theorem Primitive.spends {i : Instr} {hdr : List Byte} {x : Txn} {s u : State} (h : Primitive hdr x s u)
    (hx : s.seq.txn = some x) : u = complete .timeout s ∨ ∃ e, Spends i s u e := by
  cases h with
  | timesOut _ hu => exact .inl hu
  | selects pos high hu =>
    subst hu
    refine .inr ⟨_, spends_of_txn rfl (by simp) rfl rfl rfl rfl rfl ?_ ?_ ?_⟩
    · simp only [csLow_seq, hx, txnSteps, pos]
      omega
    · simp only [csLow_seq, hx, txnSelects, pos]
      exact le_rfl
    · simp [hx, txnSamples, pos, countEvents, isSample]
  | isReady pos below hu =>
    subst hu
    refine .inr ⟨_, spends_of_txn rfl (by simp) rfl rfl rfl rfl rfl ?_ ?_ ?_⟩
    · simp only [setTxn_seq, takeSample_seq, hx, txnSteps, pos]
      omega
    · simp [hx, txnSelects, pos, countEvents, isSelect]
    · simp only [setTxn_seq, takeSample_seq, hx, txnSamples, pos]
      exact Nat.sub_pos_of_lt below
  | notReady pos below hu =>
    subst hu
    refine .inr ⟨_, spends_of_txn rfl (by simp) rfl rfl rfl rfl rfl ?_ ?_ ?_⟩
    · simp only [takeSample_seq, hx, txnSteps, pos]
      omega
    · simp [hx, txnSelects, pos, countEvents, isSelect]
    · simp only [takeSample_seq, hx, txnSamples, pos]
      change 1 + _ ≤ _
      omega
  | header pos hu =>
    subst hu
    have hnext : (if hdr.length = 2 then TxnPos.addr2 else .data) = .addr2
        ∨ (if hdr.length = 2 then TxnPos.addr2 else .data) = .data := by split <;> simp
    refine .inr ⟨_, spends_of_txn rfl (by simp) rfl rfl rfl rfl rfl ?_ ?_ ?_⟩
    · rcases hnext with hp | hp <;> simp [hx, txnSteps, pos, hp]
    · rcases hnext with hp | hp <;> simp [hx, txnSelects, pos, hp, countEvents, isSelect]
    · rcases hnext with hp | hp <;> simp [hx, txnSamples, pos, hp, countEvents, isSample]
  | addr2 pos hu =>
    subst hu
    refine .inr ⟨_, spends_of_txn rfl (by simp) rfl rfl rfl rfl rfl ?_ ?_ ?_⟩
    · simp only [setTxn_seq, hx, txnSteps, pos]
      omega
    · simp [hx, txnSelects, pos, countEvents, isSelect]
    · simp [hx, txnSamples, pos, countEvents, isSample]
  | data b rest pos out hu =>
    subst hu
    refine .inr ⟨_, spends_of_txn rfl (by simp) rfl rfl rfl rfl rfl ?_ ?_ ?_⟩
    · simp [hx, txnSteps, pos, out]
    · simp [hx, txnSelects, pos, countEvents, isSelect]
    · simp [hx, txnSamples, pos, countEvents, isSample]
  | deselects pos out hu =>
    subst hu
    refine .inr ⟨_, spends_of_txn rfl (by simp) rfl rfl rfl rfl rfl ?_ ?_ ?_⟩
    · simp [hx, txnSteps, pos, out]
    · simp [hx, txnSelects, pos, countEvents, isSelect]
    · simp [hx, txnSamples, pos, countEvents, isSample]

/-- A step of a running command completes it, or spends (R15). -/
theorem completes_or_spends {i : Instr} {s u : State} (hi : Inv s) (hrun : s.seq.phase = .run) (hc : Command i s)
    (h : rscStep s = .next u) :
    (∃ code v, code ≠ .pending ∧ SameBus s v ∧ u = complete code v)
    ∨ Command i u ∧ u.seq.phase = .run ∧ ∃ e, Spends i s u e := by
  have hne : s.seq.phase ≠ .idle := by rw [hrun]; decide
  cases outcome_of_rscStep hi hne h with
  | ended code v real bus _ _ eq => exact .inl ⟨code, v, real, bus, eq⟩
  | running j running command =>
    have hsame : j = i := hc.row_eq (by rw [← running.same.cfg, ← running.same.commandWord]; exact command.row)
    subst hsame
    have hlive : ∀ code v, u ≠ complete code v := by
      rintro code v rfl
      exact absurd running.phase (by simp [Seq.reset])
    refine .inr ⟨command, running.phase, ?_⟩
    rcases rscStep_cases h with ⟨hidle, -⟩ | ⟨-, why, -, hu⟩ | ⟨-, k, hrow, hexec⟩
    · exact absurd hidle hne
    · exact absurd hu (hlive _ _)
    · rcases hrow.wire_or_command hi with ⟨hcmd, hphase, hd⟩ | ⟨hwire, -, x, hx⟩
      · obtain rfl := hc.row_eq hd
        have hn : s.seq.txn = none := by
          rcases hphase with hcheck | ⟨-, hn⟩
          · rw [hrun] at hcheck; cases hcheck
          · exact hn
        cases hexec with
        | issues _ hidle _ => exact absurd hidle hne
        | fails _ _ code _ hu => exact absurd hu (hlive _ _)
        | passes _ hp _ _ => rw [hrun] at hp; cases hp
        | runs _ _ body =>
          cases body with
          | begins j c v goes _ hu => exact ⟨_, hu ▸ goes.spends hi.polls hn⟩
          | waits r g _ place below hu =>
            exact ⟨_, spends_of_wait hi.polls hn place below (by rw [hu]; rfl) (by rw [hu]; rfl) (by rw [hu]; rfl)
              (by rw [hu]; rfl)⟩
          | ends code v _ hu => exact absurd hu (hlive _ _)
        | opens hw _ _ _ => exact absurd hw (not_wire_of_command hcmd)
        | continues hw _ _ _ => exact absurd hw (not_wire_of_command hcmd)
      · cases hexec with
        | issues hc _ _ => exact absurd hwire (not_wire_of_command hc)
        | fails hc _ _ _ _ => exact absurd hwire (not_wire_of_command hc)
        | passes hc _ _ _ => exact absurd hwire (not_wire_of_command hc)
        | runs hc _ _ => exact absurd hwire (not_wire_of_command hc)
        | opens _ hn _ _ => rw [hx] at hn; cases hn
        | continues _ y hy prim =>
          rcases prim.spends (i := j) hy with hu | hspends
          · exact absurd hu (hlive _ _)
          · exact hspends

/-! ### The run to completion -/

theorem countEvents_append (f : Event → Bool) (es es' : List Event) :
    countEvents f (es ++ es') = countEvents f es + countEvents f es' := by
  rw [countEvents, List.filter_append, List.length_append]
  rfl

/-- What `k` steps of the machine that complete the command of `s` leave, and the events `es` they recorded (R221). -/
structure Finishes (s : State) (k : Nat) (t : State) (es : List Event) : Prop where
  reaches : Reaches step k s t
  hist : t.hist = s.hist ++ es
  idle : t.csr.busy = false
  done : t.csr.done = true
  result : t.csr.result ≠ .pending
  last : ∃ before, es = before ++ [.done t.csr.result] ∧ ∀ c, .done c ∉ before

theorem Finishes.cons {s u t : State} {k : Nat} {es : List Event} {e : Event} (h : Finishes u k t es)
    (hstep : step s = .next u) (hist : u.hist = s.hist ++ [e]) (goes : ∀ c, e ≠ .done c) :
    Finishes s (k + 1) t (e :: es) := by
  obtain ⟨before, hes, hbefore⟩ := h.last
  refine ⟨.next hstep h.reaches, ?_, h.idle, h.done, h.result, e :: before, by rw [hes]; rfl, fun c hm => ?_⟩
  · rw [h.hist, hist, List.append_assoc]
    rfl
  · rcases List.mem_cons.mp hm with heq | hm
    · exact goes c heq.symm
    · exact hbefore c hm

/-- A step that completes records chip selects going high, then DONE (R221). -/
theorem finishes_of_complete {s v : State} {code : Result} (hstep : step s = .next (complete code v)) (real : code ≠ .pending)
    (bus : SameBus s v) :
    ∃ es, Finishes s 1 (complete code v) es ∧ countEvents isSelect es = 0 ∧ countEvents isWait es = 0
      ∧ countEvents isSample es = 0 := by
  obtain ⟨before, hbefore, hhigh⟩ := hist_releaseAll v
  have hnone : ∀ f : Event → Bool, (∀ m, f (.cs m true) = false) → f (.done code) = false →
      countEvents f (before ++ [.done code]) = 0 := by
    intro f hcs hdone
    rw [countEvents, List.length_eq_zero_iff, List.filter_eq_nil_iff]
    intro e he
    rcases List.mem_append.mp he with he | he
    · obtain ⟨m, rfl⟩ := hhigh e he
      simp [hcs]
    · rw [List.mem_singleton.mp he]
      simp [hdone]
  refine ⟨before ++ [.done code], ⟨.one hstep, ?_, by rw [complete_csr], by rw [complete_csr], by rw [complete_csr]; exact real,
    before, by rw [complete_csr], fun c hm => ?_⟩, hnone _ (fun _ => rfl) rfl, hnone _ (fun _ => rfl) rfl,
    hnone _ (fun _ => rfl) rfl⟩
  · rw [complete_hist, hbefore, bus.hist, List.append_assoc]
  · obtain ⟨m, hm⟩ := hhigh _ hm
    cases hm

theorem step_eq_rscStep {s : State} (hi : Inv s) (ha : s.agenda = []) : step s = rscStep s := by
  simp only [step, ha, checked_ok hi.params]

theorem agenda_rscStep {s u : State} (h : rscStep s = .next u) : u.agenda = s.agenda := by
  rcases rscStep_cases h with ⟨-, hu⟩ | ⟨-, why, -, hu⟩ | ⟨-, k, -, hexec⟩
  · rw [hu]
  · rw [hu, complete_agenda]
  · exact hexec.outside.2.1

/-- A running command finishes within what is left of it (R179). -/
theorem finishes_of_running {i : Instr} (n : Nat) {s : State} (hi : Inv s) (ha : s.agenda = []) (hrun : s.seq.phase = .run)
    (hc : Command i s) (hn : stepsLeft i s ≤ n) :
    ∃ k t es, Finishes s k t es ∧ k ≤ stepsLeft i s ∧ countEvents isSelect es ≤ selectsLeft i s
      ∧ countEvents isWait es ≤ waitsLeft i s ∧ countEvents isSample es ≤ samplesLeft i s := by
  induction n generalizing s with
  | zero => exact absurd hn (by simp [stepsLeft])
  | succ n ih =>
    obtain ⟨u, hu⟩ := rscStep_answers hi
    have hstep : step s = .next u := (step_eq_rscStep hi ha).trans hu
    rcases completes_or_spends hi hrun hc hu with ⟨code, v, real, bus, rfl⟩ | ⟨hcu, hrunu, e, hspends⟩
    · obtain ⟨es, hfin, hselects, hwaits, hsamples⟩ := finishes_of_complete hstep real bus
      exact ⟨1, _, es, hfin, by simp [stepsLeft], by omega, by omega, by omega⟩
    · have hsteps := hspends.steps
      obtain ⟨k, t, es, hfin, hk, hselects, hwaits, hsamples⟩ :=
        ih (inv_rscStep hi hu) ((agenda_rscStep hu).trans ha) hrunu hcu (by omega)
      have hcount : ∀ f, countEvents f (e :: es) = countEvents f [e] + countEvents f es := fun f => countEvents_append f [e] es
      have hs := hspends.selects
      have hw := hspends.waits
      have hr := hspends.samples
      exact ⟨k + 1, t, e :: es, hfin.cons hstep hspends.hist hspends.goes, by omega, by rw [hcount]; omega,
        by rw [hcount]; omega, by rw [hcount]; omega⟩

/-! ### The bound -/

theorem transactionsAt_le (i : Instr) (c : Cont) (m n : Nat) : transactionsAt i c m n ≤ 6 * m + 6 := by
  cases c with
  | start => cases i <;> simp only [transactionsAt, ofWhole] <;> omega
  | polled r | acted r => cases r <;> simp only [transactionsAt, afterRun] <;> omega
  | _ => simp only [transactionsAt]; omega

/-- A register command that passed CHECK has a length that fits DBUF (R131, R225). -/
theorem len_le_of_checkRegister {s : State} (h : checkRegister s = none) : s.csr.len.toNat ≤ s.cfg.dbufCap := by
  have hm : s.csr.mod.toNat < s.cfg.nModules := by
    by_contra hge
    rw [checkRegister, moduleCheck_of_ge (Nat.not_lt.mp hge)] at h
    cases h
  have haddr := addrCheck_of_checkRegister h
  rw [checkRegister_of_lt hm, if_neg (not_not.mpr haddr)] at h
  rcases lenCheck_cases s.cfg (lenOperand s) with ⟨-, hle, -⟩ | ⟨-, hbad⟩
  · exact hle
  · rw [hbad] at h
    cases h

/-- The transactions of one command send at most 258 data bytes: TX_FRAME's count read and a frame (R192, R193). -/
theorem toSend_le {i : Instr} {s : State} (hp : paramsOk s.cfg = true) (hc : checkOf i s = none) : toSend i s ≤ 258 := by
  have hcap := dbufCap_of_paramsOk hp
  have hdepth := fifoDepth_of_paramsOk hp
  have hlen := s.csr.len.isLt
  unfold toSend bytesAt
  split
  case h_1 =>
    cases i
    case regWriteVerify a =>
      have hle := len_le_of_checkRegister hc
      simp only [bytesOfWhole]
      omega
    all_goals simp only [bytesOfWhole]; omega
  all_goals omega

theorem txnSteps_some_le (r n : Nat) (x : Txn) : txnSteps r n (some x) ≤ r + 4 + x.out.length := by
  cases hpos : x.pos <;> simp only [txnSteps, hpos] <;> omega

/-- What is left is within the bound, with one step to spare. -/
theorem stepsLeft_lt_completionBound {i : Instr} {s : State} (hp : paramsOk s.cfg = true) (hc : checkOf i s = none) :
    stepsLeft i s < completionBound s := by
  have hbegin : toBegin i s * (s.cfg.readyMaxSamples + 4) ≤ (6 * s.csr.maxPolls.toNat + 6) * (s.cfg.readyMaxSamples + 4) :=
    Nat.mul_le_mul_right _ (transactionsAt_le _ _ _ _)
  have hsplit : (6 * s.csr.maxPolls.toNat + 9) * (s.cfg.readyMaxSamples + 4)
      = (6 * s.csr.maxPolls.toNat + 6) * (s.cfg.readyMaxSamples + 4) + 3 * (s.cfg.readyMaxSamples + 4) := by
    rw [← Nat.add_mul]
  have hsend := toSend_le hp hc
  unfold stepsLeft completionBound
  cases hx : s.seq.txn with
  | none =>
    simp only [txnSteps]
    omega
  | some x =>
    have htxn := txnSteps_some_le s.cfg.readyMaxSamples s.seq.samples x
    simp only
    omega

/-! ### The statement -/

/-- The first step of a command: CHECK completes it, or leaves it at its first place (R103, R225). -/
theorem completes_or_passes {s u : State} (hphase : s.seq.phase = .check) (h : rscStep s = .next u) :
    (∃ code, code ≠ .pending ∧ u = complete code s)
    ∨ ∃ i, decode s.cfg (.cmd (commandWord s)) = .ok i ∧ checkOf i s = none
        ∧ u = { s with seq := { s.seq with phase := .run } } := by
  cases hd : decode s.cfg (.cmd (commandWord s)) with
  | error why =>
    have hbad : rscStep s = .next (complete (illegalResult why) s) := by
      simp only [rscStep, fetch, hphase, fetchCommand, hd, runIllegal]
    exact .inl ⟨_, illegalResult_ne_pending why, Host.Outcome.next.inj (h.symm.trans hbad)⟩
  | ok i =>
    rw [rscStep_check hphase hd] at h
    obtain ⟨hfail, hpass⟩ := exec_check (isCommand_of_decode hd) hphase
    cases hr : checkOf i s with
    | some r => exact .inl ⟨r, checkOf_ne_pending hr, Host.Outcome.next.inj (h.symm.trans (hfail r hr))⟩
    | none => exact .inr ⟨i, rfl, hr, Host.Outcome.next.inj (h.symm.trans (hpass hr))⟩

theorem completionBound_pos (s : State) : 1 ≤ completionBound s := by
  unfold completionBound
  omega

/-- A command in CHECK finishes, and a row that passes CHECK within what is left of it at its first place. -/
theorem finishes_of_check {s : State} (hi : Inv s) (ha : s.agenda = []) (hphase : s.seq.phase = .check) :
    ∃ k t es, Finishes s k t es ∧ k ≤ completionBound s
      ∧ ∀ i, runningCommand s = some i → countEvents isSelect es ≤ ofWhole i s.csr.maxPolls.toNat
        ∧ countEvents isWait es ≤ ofWhole i s.csr.maxPolls.toNat / 2
        ∧ countEvents isSample es ≤ ofWhole i s.csr.maxPolls.toNat * s.cfg.readyMaxSamples := by
  obtain ⟨u, hu⟩ := rscStep_answers hi
  have hstep : step s = .next u := (step_eq_rscStep hi ha).trans hu
  rcases completes_or_passes hphase hu with ⟨code, real, rfl⟩ | ⟨i, hd, hcheck, rfl⟩
  · obtain ⟨es, hfin, hselects, hwaits, hsamples⟩ := finishes_of_complete hstep real (.refl s)
    exact ⟨1, _, es, hfin, completionBound_pos s, fun i _ => ⟨by omega, by omega, by omega⟩⟩
  · have hseq := hi.check_clear hphase
    have hcont : s.seq.cont = .start := by rw [hseq]; rfl
    have htxn : s.seq.txn = none := by rw [hseq]; rfl
    have hc : Command i { s with seq := { s.seq with phase := .run } } :=
      ⟨hd, hcheck, by
        change contFits i s.seq.cont = true
        rw [hcont]
        rfl⟩
    obtain ⟨k, t, es, hfin, hk, hselects, hwaits, hsamples⟩ :=
      finishes_of_running _ (inv_rscStep hi hu) ha rfl hc le_rfl
    have hbound : stepsLeft i s < completionBound s := stepsLeft_lt_completionBound hi.params hcheck
    have hbegin : toBegin i s = ofWhole i s.csr.maxPolls.toNat := by rw [toBegin, hcont]; rfl
    change k ≤ stepsLeft i s at hk
    change _ ≤ selectsLeft i s at hselects
    change _ ≤ waitsLeft i s at hwaits
    change _ ≤ samplesLeft i s at hsamples
    rw [selectsLeft, hbegin, htxn] at hselects
    rw [waitsLeft, hbegin] at hwaits
    rw [samplesLeft, hbegin, htxn] at hsamples
    refine ⟨k + 1, t, es, ⟨.next hstep hfin.reaches, hfin.hist, hfin.idle, hfin.done, hfin.result, hfin.last⟩, by omega,
      fun j hj => ?_⟩
    have hsame : i = j := by
      rw [runningCommand, hd] at hj
      exact Option.some.inj hj
    rw [← hsame]
    exact ⟨hselects, hwaits, hsamples⟩

/-- Settles O58, by the phase: nothing runs, CHECK comes first, or a running command spends what is left of it. -/
theorem everyCommandCompletes : Obligations.EveryCommandCompletes := by
  unfold Obligations.EveryCommandCompletes
  intro s hi ha
  cases hphase : s.seq.phase with
  | idle =>
    have hidle : s.csr.busy = false := by
      by_contra hb
      exact hi.busy_phase.mp (by simpa using hb) hphase
    refine ⟨0, s, [], rfl, Nat.zero_le _, hidle, (List.append_nil _).symm, fun hb => ?_, fun _ hcheck => ?_⟩
    · rw [hidle] at hb
      cases hb
    · cases hcheck
  | check =>
    obtain ⟨k, t, es, hfin, hk, hcounts⟩ := finishes_of_check hi ha hphase
    refine ⟨k, t, es, hfin.reaches.runSteps, hk, hfin.idle, hfin.hist, fun _ => ⟨hfin.done, hfin.result, hfin.last⟩,
      fun g _ hg => ?_⟩
    obtain ⟨hselects, hwaits, hsamples⟩ := hcounts _ hg
    rw [ofWhole_setStateInstr] at hselects hwaits hsamples
    exact ⟨hselects, by omega, hsamples⟩
  | run =>
    obtain ⟨i, hc⟩ := command_of_inv hi hphase
    obtain ⟨k, t, es, hfin, hk, -⟩ := finishes_of_running _ hi ha hphase hc le_rfl
    have hbound := stepsLeft_lt_completionBound hi.params hc.check
    exact ⟨k, t, es, hfin.reaches.runSteps, by omega, hfin.idle, hfin.hist, fun _ => ⟨hfin.done, hfin.result, hfin.last⟩,
      fun _ hcheck _ => by cases hcheck⟩

end Sys2Proof.Proofs
end
